-- ==== Sys2Proof/Word.lean ====
section
/-! DEFINITION. The machine word of the unit (rule R7, rule R10): 32 bits, unsigned, bit 0 least significant. -/

namespace Sys2Proof

/-- A word: a natural number in `0 .. 2^32 - 1` (rule R10). -/
abbrev Word := BitVec 32

/-- One byte of a host's byte view of memory (rule R41); the unit itself never sees a byte. -/
abbrev Byte := BitVec 8

end Sys2Proof
end

