-- ==== Sys2Proof/Syntax.lean ====
section
/-! DEFINITION. The command set (rule R2, rule R63): one constructor per row of spec/opcode_table.json, its arguments in the
document's order (first column of rule R62); and the packet that carries a command (rule R60).
Lengths, base addresses, offsets and the shift amount are natural numbers, because the unit never wraps them (rule R44);
the scalar words `x`, `c`, `bit` and the double word `y64` are bit vectors. -/

namespace Sys2Proof

/-- The 31 commands. `len` is always the word count of a magnitude, also for an extended operand (rule R22). -/
inductive Instr where
  -- buffer_primitives (40_buffer_primitives.md)
  | create (len z : Nat)
  | createExt (len zz : Nat)
  | zero (len z : Nat)
  | isZero (len x : Nat)
  | isZeroExt (len xx : Nat)
  | isOne (len x : Nat)
  -- ripple_carry_adder (41_add_subtract.md)
  | add (len x y z : Nat)
  | addBothTo (len x y z : Nat)
  | addExt (len xx yy zz : Nat)
  | addToExt (len x xOff zz zzOff : Nat)
  | addWordExt (len : Nat) (x : Word) (zz zzOff : Nat)
  -- ripple_carry_subtractor (41_add_subtract.md)
  | sub (len x y z : Nat)
  | subBothFrom (len x y z : Nat)
  | subExt (len xx yy zz : Nat)
  | subFromExt (len x xOff zz zzOff : Nat)
  -- schoolbook_multiplier (42_multiply_square.md)
  | mulWordExt (len : Nat) (x : Word) (y zz zzOff : Nat)
  | mulWordAddExt (len : Nat) (x : Word) (y yyOff zz zzOff : Nat)
  | mulWordDwordAdd (len : Nat) (x : Word) (y64 : BitVec 64) (z zOff : Nat)
  | mul (len x y zz : Nat)
  -- optimized_squarer (42_multiply_square.md)
  | squareWordAddExt (len x xPos zz : Nat)
  | square (len x zz : Nat)
  -- barrel_shifter (43_shift.md)
  | shiftDownBit (len x : Nat) (c : Word) (z : Nat)
  | shiftDownBits (len x bits : Nat) (c : Word) (z : Nat)
  | shiftDownWord (len x : Nat) (c : Word) (z : Nat)
  | shiftUpBit (len x : Nat) (c : Word) (z : Nat)
  -- magnitude_comparator (44_compare_incdec.md)
  | gte (len x y : Nat)
  | gteExt (len xx yy : Nat)
  | getBit (len x : Nat) (bit : Word)
  -- increment_decrement_ripple (44_compare_incdec.md)
  | inc (len z zOff : Nat)
  | incExt (len zz zzOff : Nat)
  | dec (len z zOff : Nat)
deriving DecidableEq, Repr

/-- A command packet, format `CMD11`: eleven 32-bit fields, field 0 first (rule R60). -/
structure Packet where
  op : Word
  len : Word
  xa : Word
  xoff : Word
  ya : Word
  yoff : Word
  za : Word
  zoff : Word
  s0 : Word
  s1 : Word
  s2 : Word
deriving DecidableEq, Repr

end Sys2Proof
end

