-- ==== Sys2Proof/WellFormed.lean ====
section
/-! DEFINITION. Which terms of `Instr` a packet can carry: every length, base address, offset and shift amount is one unsigned
32-bit packet field (rule R60, rule R67). A scalar word, a bit index and `y64` have their width in their type.
Well-formedness says nothing of the preconditions of rule R173: a packet that breaks one is a legal encoding whose command
faults or is refused. -/

namespace Sys2Proof

/-- The number fits an unsigned 32-bit packet field (rule R60). -/
def fitsField (n : Nat) : Bool := n < 2 ^ 32

/-- Every natural-number argument fits its packet field (rule R62 says which field). -/
def Instr.wellFormed : Instr → Bool
  | .create len z => fitsField len && fitsField z
  | .createExt len zz => fitsField len && fitsField zz
  | .zero len z => fitsField len && fitsField z
  | .isZero len x => fitsField len && fitsField x
  | .isZeroExt len xx => fitsField len && fitsField xx
  | .isOne len x => fitsField len && fitsField x
  | .add len x y z => fitsField len && fitsField x && fitsField y && fitsField z
  | .addBothTo len x y z => fitsField len && fitsField x && fitsField y && fitsField z
  | .addExt len xx yy zz => fitsField len && fitsField xx && fitsField yy && fitsField zz
  | .addToExt len x xOff zz zzOff =>
      fitsField len && fitsField x && fitsField xOff && fitsField zz && fitsField zzOff
  | .addWordExt len _ zz zzOff => fitsField len && fitsField zz && fitsField zzOff
  | .sub len x y z => fitsField len && fitsField x && fitsField y && fitsField z
  | .subBothFrom len x y z => fitsField len && fitsField x && fitsField y && fitsField z
  | .subExt len xx yy zz => fitsField len && fitsField xx && fitsField yy && fitsField zz
  | .subFromExt len x xOff zz zzOff =>
      fitsField len && fitsField x && fitsField xOff && fitsField zz && fitsField zzOff
  | .mulWordExt len _ y zz zzOff => fitsField len && fitsField y && fitsField zz && fitsField zzOff
  | .mulWordAddExt len _ y yyOff zz zzOff =>
      fitsField len && fitsField y && fitsField yyOff && fitsField zz && fitsField zzOff
  | .mulWordDwordAdd len _ _ z zOff => fitsField len && fitsField z && fitsField zOff
  | .mul len x y zz => fitsField len && fitsField x && fitsField y && fitsField zz
  | .squareWordAddExt len x xPos zz => fitsField len && fitsField x && fitsField xPos && fitsField zz
  | .square len x zz => fitsField len && fitsField x && fitsField zz
  | .shiftDownBit len x _ z => fitsField len && fitsField x && fitsField z
  | .shiftDownBits len x bits _ z => fitsField len && fitsField x && fitsField bits && fitsField z
  | .shiftDownWord len x _ z => fitsField len && fitsField x && fitsField z
  | .shiftUpBit len x _ z => fitsField len && fitsField x && fitsField z
  | .gte len x y => fitsField len && fitsField x && fitsField y
  | .gteExt len xx yy => fitsField len && fitsField xx && fitsField yy
  | .getBit len x _ => fitsField len && fitsField x
  | .inc len z zOff => fitsField len && fitsField z && fitsField zOff
  | .incExt len zz zzOff => fitsField len && fitsField zz && fitsField zzOff
  | .dec len z zOff => fitsField len && fitsField z && fitsField zOff

end Sys2Proof
end

