-- ==== Sys2Proof/Decode.lean ====
section
/-! DEFINITION. Decoding and encoding of packets (30_encoding.md rule R60 to rule R67): the bit layout of a packet, the opcode map,
which field carries which argument, and the reader the host calls (`decodeTableWord`). -/

namespace Sys2Proof

/-- Why a packet is illegal (rule R61): both raise F_ILLOP (rule R172). -/
inductive Reject where
  /-- `OP[31:8] ≠ 0`. -/
  | upperOpBits
  /-- `OP[31:8] = 0` and `OP[7:0]` is none of the 31 opcodes of rule R63. -/
  | reservedOpcode
deriving DecidableEq, Repr

/-- The number `w` without its lowest `32·j` bits. -/
def dropFields : Nat → Nat → Nat
  | 0, w => w
  | j + 1, w => dropFields j (w / 2 ^ 32)

/-- Field `j` of a packet written as a number occupies bits `32·j+31 .. 32·j` (rule R60); the bits of the number from bit
`nbits` up count as zero. -/
def fieldOfBits (nbits w j : Nat) : Word := BitVec.ofNat 32 (dropFields j w % 2 ^ min 32 (nbits - 32 * j))

/-- The packet whose low `nbits` bits are those of `w`, bit 0 of `w` being bit 0 of field OP (rule R60), and whose other bits
are zero: what a word of spec/opcode_table.json stands for. -/
def packetOfTableWord (nbits w : Nat) : Packet where
  op := fieldOfBits nbits w 0
  len := fieldOfBits nbits w 1
  xa := fieldOfBits nbits w 2
  xoff := fieldOfBits nbits w 3
  ya := fieldOfBits nbits w 4
  yoff := fieldOfBits nbits w 5
  za := fieldOfBits nbits w 6
  zoff := fieldOfBits nbits w 7
  s0 := fieldOfBits nbits w 8
  s1 := fieldOfBits nbits w 9
  s2 := fieldOfBits nbits w 10

/-- The packet whose 352 bits are `w` (rule R60). -/
def Packet.ofBits (w : Nat) : Packet := packetOfTableWord 352 w

/-- The packet as a list of words, "field 0 first" (rule R60). -/
def Packet.toWords (p : Packet) : List Word :=
  [p.op, p.len, p.xa, p.xoff, p.ya, p.yoff, p.za, p.zoff, p.s0, p.s1, p.s2]

/-- The number a list of words stands for, the first word lowest. -/
def bitsOfWords : List Word → Nat
  | [] => 0
  | w :: ws => w.toNat + 2 ^ 32 * bitsOfWords ws

/-- The 352 bits of a packet as one number (rule R60). -/
def Packet.toBits (p : Packet) : Nat := bitsOfWords p.toWords

/-- The command whose opcode is `opcode`, its arguments taken from the fields rule R62 names; `none` for a reserved opcode
(rule R63, rule R64). A field the command does not use is ignored (rule R65). `y64 = S2 · 2^32 + S1` (rule R67). -/
def decodeOpcode (opcode : Nat) (p : Packet) : Option Instr :=
  let len := p.len.toNat
  let x := p.xa.toNat
  let xOff := p.xoff.toNat
  let y := p.ya.toNat
  let yOff := p.yoff.toNat
  let z := p.za.toNat
  let zOff := p.zoff.toNat
  match opcode with
  | 0x01 => some (.create len z)
  | 0x02 => some (.createExt len z)
  | 0x03 => some (.zero len z)
  | 0x04 => some (.isZero len x)
  | 0x05 => some (.isZeroExt len x)
  | 0x06 => some (.isOne len x)
  | 0x10 => some (.add len x y z)
  | 0x11 => some (.addBothTo len x y z)
  | 0x12 => some (.addExt len x y z)
  | 0x13 => some (.addToExt len x xOff z zOff)
  | 0x14 => some (.addWordExt len p.s0 z zOff)
  | 0x18 => some (.sub len x y z)
  | 0x19 => some (.subBothFrom len x y z)
  | 0x1A => some (.subExt len x y z)
  | 0x1B => some (.subFromExt len x xOff z zOff)
  | 0x20 => some (.mulWordExt len p.s0 y z zOff)
  | 0x21 => some (.mulWordAddExt len p.s0 y yOff z zOff)
  | 0x22 => some (.mulWordDwordAdd len p.s0 (p.s2 ++ p.s1) z zOff)
  | 0x23 => some (.mul len x y z)
  | 0x24 => some (.squareWordAddExt len x xOff z)
  | 0x25 => some (.square len x z)
  | 0x30 => some (.shiftDownBit len x p.s0 z)
  | 0x31 => some (.shiftDownBits len x p.s1.toNat p.s0 z)
  | 0x32 => some (.shiftDownWord len x p.s0 z)
  | 0x33 => some (.shiftUpBit len x p.s0 z)
  | 0x40 => some (.gte len x y)
  | 0x41 => some (.gteExt len x y)
  | 0x42 => some (.getBit len x p.s0)
  | 0x43 => some (.inc len z zOff)
  | 0x44 => some (.incExt len z zOff)
  | 0x45 => some (.dec len z zOff)
  | _ => none

/-- Decoding a packet (rule R61): total, and every illegal packet is rejected by name. -/
def decode (p : Packet) : Except Reject Instr :=
  if p.op.toNat / 2 ^ 8 ≠ 0 then
    .error .upperOpBits
  else
    match decodeOpcode (p.op.toNat % 2 ^ 8) p with
    | some i => .ok i
    | none => .error .reservedOpcode

/-- The packet with every field zero. -/
def Packet.blank : Packet :=
  { op := 0#32, len := 0#32, xa := 0#32, xoff := 0#32, ya := 0#32, yoff := 0#32, za := 0#32, zoff := 0#32,
    s0 := 0#32, s1 := 0#32, s2 := 0#32 }

/-- A natural number as a packet field. -/
def field (n : Nat) : Word := BitVec.ofNat 32 n

/-- The packet of a command (rule R62, rule R63), zero in every field the command does not use, as the assembler writes
it (rule R65). -/
def encode : Instr → Packet
  | .create len z => { Packet.blank with op := 0x01#32, len := field len, za := field z }
  | .createExt len zz => { Packet.blank with op := 0x02#32, len := field len, za := field zz }
  | .zero len z => { Packet.blank with op := 0x03#32, len := field len, za := field z }
  | .isZero len x => { Packet.blank with op := 0x04#32, len := field len, xa := field x }
  | .isZeroExt len xx => { Packet.blank with op := 0x05#32, len := field len, xa := field xx }
  | .isOne len x => { Packet.blank with op := 0x06#32, len := field len, xa := field x }
  | .add len x y z =>
      { Packet.blank with op := 0x10#32, len := field len, xa := field x, ya := field y, za := field z }
  | .addBothTo len x y z =>
      { Packet.blank with op := 0x11#32, len := field len, xa := field x, ya := field y, za := field z }
  | .addExt len xx yy zz =>
      { Packet.blank with op := 0x12#32, len := field len, xa := field xx, ya := field yy, za := field zz }
  | .addToExt len x xOff zz zzOff =>
      { Packet.blank with
        op := 0x13#32, len := field len, xa := field x, xoff := field xOff, za := field zz, zoff := field zzOff }
  | .addWordExt len x zz zzOff =>
      { Packet.blank with op := 0x14#32, len := field len, za := field zz, zoff := field zzOff, s0 := x }
  | .sub len x y z =>
      { Packet.blank with op := 0x18#32, len := field len, xa := field x, ya := field y, za := field z }
  | .subBothFrom len x y z =>
      { Packet.blank with op := 0x19#32, len := field len, xa := field x, ya := field y, za := field z }
  | .subExt len xx yy zz =>
      { Packet.blank with op := 0x1A#32, len := field len, xa := field xx, ya := field yy, za := field zz }
  | .subFromExt len x xOff zz zzOff =>
      { Packet.blank with
        op := 0x1B#32, len := field len, xa := field x, xoff := field xOff, za := field zz, zoff := field zzOff }
  | .mulWordExt len x y zz zzOff =>
      { Packet.blank with
        op := 0x20#32, len := field len, ya := field y, za := field zz, zoff := field zzOff, s0 := x }
  | .mulWordAddExt len x y yyOff zz zzOff =>
      { Packet.blank with
        op := 0x21#32, len := field len, ya := field y, yoff := field yyOff, za := field zz, zoff := field zzOff,
        s0 := x }
  | .mulWordDwordAdd len x y64 z zOff =>
      { Packet.blank with
        op := 0x22#32, len := field len, za := field z, zoff := field zOff, s0 := x,
        s1 := y64.extractLsb' 0 32, s2 := y64.extractLsb' 32 32 }
  | .mul len x y zz =>
      { Packet.blank with op := 0x23#32, len := field len, xa := field x, ya := field y, za := field zz }
  | .squareWordAddExt len x xPos zz =>
      { Packet.blank with op := 0x24#32, len := field len, xa := field x, xoff := field xPos, za := field zz }
  | .square len x zz => { Packet.blank with op := 0x25#32, len := field len, xa := field x, za := field zz }
  | .shiftDownBit len x c z =>
      { Packet.blank with op := 0x30#32, len := field len, xa := field x, za := field z, s0 := c }
  | .shiftDownBits len x bits c z =>
      { Packet.blank with
        op := 0x31#32, len := field len, xa := field x, za := field z, s0 := c, s1 := field bits }
  | .shiftDownWord len x c z =>
      { Packet.blank with op := 0x32#32, len := field len, xa := field x, za := field z, s0 := c }
  | .shiftUpBit len x c z =>
      { Packet.blank with op := 0x33#32, len := field len, xa := field x, za := field z, s0 := c }
  | .gte len x y => { Packet.blank with op := 0x40#32, len := field len, xa := field x, ya := field y }
  | .gteExt len xx yy => { Packet.blank with op := 0x41#32, len := field len, xa := field xx, ya := field yy }
  | .getBit len x bit => { Packet.blank with op := 0x42#32, len := field len, xa := field x, s0 := bit }
  | .inc len z zOff => { Packet.blank with op := 0x43#32, len := field len, za := field z, zoff := field zOff }
  | .incExt len zz zzOff =>
      { Packet.blank with op := 0x44#32, len := field len, za := field zz, zoff := field zzOff }
  | .dec len z zOff => { Packet.blank with op := 0x45#32, len := field len, za := field z, zoff := field zOff }

/-- The command the decoder reads from the packet whose bits are `w` (bit 0 is bit 0 of OP, as spec/opcode_table.json numbers
them; the bits above `nbits` are zero); `none` where it rejects. -/
def decodeTableWord (nbits w : Nat) : Option Instr :=
  match decode (packetOfTableWord nbits w) with
  | .ok i => some i
  | .error _ => none

end Sys2Proof
end

