-- ==== Sys2Proof/Config.lean ====
section
/-! DEFINITION. The parameters the spec leaves open (rule R8, 92_eei_decisions.md D2, D7, D8, D22).
They are fixed when the unit is built and no command can read or write them (rule R31).
A model "takes each as an argument of its configuration": `exec` and `step` have a fixed type, so the argument travels
in the state as a field that nothing ever writes, and a statement about every state is a statement about every
configuration (log entry 1). -/

namespace Sys2Proof

/-- How a platform that gives the host a byte view of `M` lays the bytes of a word (rule R41, D22): used by no command. -/
inductive ByteOrder where
  | little
  | big
deriving DecidableEq, Repr

/-- The open parameters, collected at the end of 92_eei_decisions.md. -/
structure Config where
  /-- `MEM_WORDS`: the number of words of the buffer memory. -/
  memWords : Nat
  /-- `LEN_MAX`: the largest legal `len`. -/
  lenMax : Nat
  /-- `CHECKED`: whether the unit checks operand preconditions or trusts them. -/
  checked : Bool
  /-- `HOST_BYTE_ORDER`: only a host's byte view depends on it. -/
  hostByteOrder : ByteOrder
deriving DecidableEq, Repr

/-- The constraints of rule R8 on the parameters. -/
abbrev Config.Valid (c : Config) : Prop :=
  2 ≤ c.memWords ∧ c.memWords ≤ 2 ^ 32 ∧ 1 ≤ c.lenMax ∧ c.lenMax ≤ 2 ^ 26 ∧ 2 * c.lenMax ≤ c.memWords

/-- The configuration of `State.reset`: the parameter values 95_test_vectors.md uses (log entry 1).
DESIGN CHOICE: the spec leaves every parameter open. -/
def Config.testVectors : Config :=
  { memWords := 0x1000, lenMax := 0x400, checked := true, hostByteOrder := .little }

end Sys2Proof
end

