-- ==== Sys2Proof/Machine/State.lean ====
section
/-! DEFINITION. The state of the unit (10_state.md): the buffer memory `M` and the two response registers; the configuration of
rule R8; and the model-level program and command index of rule R26 that stand for the host's side of the command port.
The unit has no program counter, flags, register file, control register or vector (rule R26 to rule R31), and the
accumulator, loop index and carry of rule R30 exist inside one command only. -/

namespace Sys2Proof.Machine

/-- The buffer memory `M` (rule R20): (word address, word) pairs in the canonical form `Memory.wf`. The addressable unit is the
32-bit word; there are no byte addresses (rule R40, rule R42; log entry 2). -/
abbrev Memory := List (Nat × Word)

/-- The state of the unit and of its command port. -/
structure State where
  /-- The open parameters (rule R8); no command reads or writes them as state, and nothing ever changes them (rule R31). -/
  cfg : Config
  /-- `M` (rule R20). -/
  mem : Memory
  /-- `RET` (rule R24): the return value of the last command that completed without fault. -/
  ret : Word
  /-- `FAULT` (rule R25): 0, or the code of the first fault since reset. -/
  fault : BitVec 4
  /-- The host's list of packets `P[0] .. P[n-1]` (rule R26; model-level). -/
  program : List Packet
  /-- The command index `k` of rule R26 (model-level): the host presents `P[k]` next. -/
  k : Nat
deriving DecidableEq, Repr

/-- The machine never stops with a fault of the model's: the unit's three faults F_ILLOP, F_PRECOND and F_BOUNDS are recorded in
`FAULT` and the machine goes on, halted, dropping packets (rule R175, rule R177). So the type has no constructor: no step
raises one (safe and unsafe do not arise). -/
inductive Fault where
deriving DecidableEq, Repr

/-- Why a step has no meaning. -/
inductive Refusal where
  /-- An instruction whose meaning is not written yet: raised by `exec`'s arm for it, by mnemonic; safe. No arm raises it. -/
  | notModelled (mnemonic : String)
  /-- A precondition of rule R173 is violated in a unit built with `CHECKED = false` (rule R174: "`refuse`. A model marks the
  state refused and proves nothing about it"): raised by the shared operation `issue`, for any command; safe. -/
  | trustedPreconditionViolated
deriving DecidableEq, Repr

/-- The state right after reset (rule R32) of a unit built with configuration `cfg`, the memory holding `m`: "a model quantifies
over all initial memories". -/
def State.resetOf (cfg : Config) (m : Memory) : State :=
  { cfg := cfg, mem := m, ret := 0#32, fault := 0#4, program := [], k := 0 }

/-- The reset state the host's interface asks for: the configuration of the spec's test vectors and a memory that lists nothing
(log entries 1 and 3; DESIGN CHOICE, since the spec leaves both open). -/
def State.reset : State := State.resetOf Config.testVectors []

end Sys2Proof.Machine
end

