-- ==== Sys2Proof/Machine/Flags.lean ====
section
/-! DEFINITION. The number conventions of the unit (rule R10, rule R11) and what it delivers instead of flags: it has "No flags, no
condition codes, no predicates" (rule R27), and carries, borrows and predicates are words written to `RET` (rule R24). -/

namespace Sys2Proof.Machine

/-- `lo32(v) = v mod 2^32` for any integer, negative ones included (rule R10). -/
def lo32 (v : Int) : Word := BitVec.ofInt 32 v

/-- The word read as a signed two's-complement value (rule R10). -/
def s32 (w : Word) : Int := if w.toNat < 2 ^ 31 then (w.toNat : Int) else (w.toNat : Int) - 2 ^ 32

/-- A word as the exact integer it stands for: "A word is always interpreted as unsigned" (rule R16). -/
def uint (w : Word) : Int := (w.toNat : Int)

/-- `v[hi:lo]` as a natural number (rule R10). -/
def bitField (v hi lo : Nat) : Nat := v / 2 ^ lo % 2 ^ (hi + 1 - lo)

/-- `a << n` on words, truncated to 32 bits (rule R10). -/
def shl (a : Word) (n : Nat) : Word := BitVec.ofNat 32 (a.toNat * 2 ^ n)

/-- `a >> n` on words, logical (rule R10). -/
def shr (a : Word) (n : Nat) : Word := BitVec.ofNat 32 (a.toNat / 2 ^ n)

/-- `acc >> 32`, and `acc >>a 32` for a signed accumulator: both are `floor(acc / 2^32)` (rule R11). -/
def carryOf (acc : Int) : Int := acc / 2 ^ 32

/-- A predicate's answer in `RET`: 1 for true, 0 for false (rule R24). -/
def truth (b : Bool) : Word := if b then 1#32 else 0#32

/-- What an operation with no return value leaves in `RET` (rule R24). -/
def noValue : Word := 0#32

end Sys2Proof.Machine
end

