-- ==== Sys2Proof/Machine/Operands.lean ====
section
/-! DEFINITION. Operands: effective addresses (rule R43), the regions of each command (rule R45) and the preconditions P1 to P9 of
rule R173 with the aliasing rules of rule R56 and rule R193. All of it is a function of the packet's fields and the
configuration, never of memory contents (rule R173). -/

namespace Sys2Proof.Machine

/-- Base plus offset plus index, in the naturals, never wrapped (rule R43, rule R44). -/
abbrev effective (base off i : Nat) : Nat := base + off + i

/-- The word addresses `[base, base + size)` an operand may reach (rule R45). -/
structure Region where
  base : Nat
  size : Nat
deriving DecidableEq, Repr

/-- "A region `[a, a+n)` is inside memory iff `a + n ≤ MEM_WORDS`" (rule R44). -/
def Region.inside (memWords : Nat) (r : Region) : Bool := r.base + r.size ≤ memWords

/-- The two regions share no word (rule R56). -/
def Region.disjoint (r q : Region) : Bool := r.base + r.size ≤ q.base || q.base + q.size ≤ r.base

/-- Same start, same length (rule R56). -/
def Region.exactAlias (r q : Region) : Bool := r.base == q.base && r.size == q.size

/-- The field LEN of a command (rule R62). -/
def lenOf : Instr → Nat
  | .create len _ => len
  | .createExt len _ => len
  | .zero len _ => len
  | .isZero len _ => len
  | .isZeroExt len _ => len
  | .isOne len _ => len
  | .add len _ _ _ => len
  | .addBothTo len _ _ _ => len
  | .addExt len _ _ _ => len
  | .addToExt len _ _ _ _ => len
  | .addWordExt len _ _ _ => len
  | .sub len _ _ _ => len
  | .subBothFrom len _ _ _ => len
  | .subExt len _ _ _ => len
  | .subFromExt len _ _ _ _ => len
  | .mulWordExt len _ _ _ _ => len
  | .mulWordAddExt len _ _ _ _ _ => len
  | .mulWordDwordAdd len _ _ _ _ => len
  | .mul len _ _ _ => len
  | .squareWordAddExt len _ _ _ => len
  | .square len _ _ => len
  | .shiftDownBit len _ _ _ => len
  | .shiftDownBits len _ _ _ _ => len
  | .shiftDownWord len _ _ _ => len
  | .shiftUpBit len _ _ _ => len
  | .gte len _ _ => len
  | .gteExt len _ _ => len
  | .getBit len _ _ => len
  | .inc len _ _ => len
  | .incExt len _ _ => len
  | .dec len _ _ => len

/-- The regions marked R in rule R45, in the order of the operands. -/
def sources : Instr → List Region
  | .create _ _ => []
  | .createExt _ _ => []
  | .zero _ _ => []
  | .isZero len x => [⟨x, len⟩]
  | .isZeroExt len xx => [⟨xx, 2 * len⟩]
  | .isOne len x => [⟨x, len⟩]
  | .add len x y _ => [⟨x, len⟩, ⟨y, len⟩]
  | .addBothTo len x y _ => [⟨x, len⟩, ⟨y, len⟩]
  | .addExt len xx yy _ => [⟨xx, 2 * len⟩, ⟨yy, 2 * len⟩]
  | .addToExt len x xOff _ _ => [⟨effective x xOff 0, len⟩]
  | .addWordExt _ _ _ _ => []
  | .sub len x y _ => [⟨x, len⟩, ⟨y, len⟩]
  | .subBothFrom len x y _ => [⟨x, len⟩, ⟨y, len⟩]
  | .subExt len xx yy _ => [⟨xx, 2 * len⟩, ⟨yy, 2 * len⟩]
  | .subFromExt len x xOff _ _ => [⟨effective x xOff 0, len⟩]
  | .mulWordExt len _ y _ _ => [⟨y, len⟩]
  | .mulWordAddExt len _ y yyOff _ _ => [⟨effective y yyOff 0, len⟩]
  | .mulWordDwordAdd _ _ _ _ _ => []
  | .mul len x y _ => [⟨x, len⟩, ⟨y, len⟩]
  | .squareWordAddExt len x _ _ => [⟨x, len⟩]
  | .square len x _ => [⟨x, len⟩]
  | .shiftDownBit len x _ _ => [⟨x, len⟩]
  | .shiftDownBits len x _ _ _ => [⟨x, len⟩]
  | .shiftDownWord len x _ _ => [⟨x, len⟩]
  | .shiftUpBit len x _ _ => [⟨x, len⟩]
  | .gte len x y => [⟨x, len⟩, ⟨y, len⟩]
  | .gteExt len xx yy => [⟨xx, 2 * len⟩, ⟨yy, 2 * len⟩]
  | .getBit len x _ => [⟨x, len⟩]
  | .inc _ _ _ => []
  | .incExt _ _ _ => []
  | .dec _ _ _ => []

/-- The region marked W in rule R45; a command has at most one. -/
def destination : Instr → Option Region
  | .create len z => some ⟨z, len⟩
  | .createExt len zz => some ⟨zz, 2 * len⟩
  | .zero len z => some ⟨z, len⟩
  | .isZero _ _ => none
  | .isZeroExt _ _ => none
  | .isOne _ _ => none
  | .add len _ _ z => some ⟨z, len⟩
  | .addBothTo len _ _ z => some ⟨z, len⟩
  | .addExt len _ _ zz => some ⟨zz, 2 * len⟩
  | .addToExt len _ _ zz zzOff => some ⟨effective zz zzOff 0, len⟩
  | .addWordExt len _ zz _ => some ⟨zz, 2 * len⟩
  | .sub len _ _ z => some ⟨z, len⟩
  | .subBothFrom len _ _ z => some ⟨z, len⟩
  | .subExt len _ _ zz => some ⟨zz, 2 * len⟩
  | .subFromExt len _ _ zz zzOff => some ⟨effective zz zzOff 0, len⟩
  | .mulWordExt len _ _ zz zzOff => some ⟨effective zz zzOff 0, len⟩
  | .mulWordAddExt len _ _ _ zz zzOff => some ⟨effective zz zzOff 0, len⟩
  | .mulWordDwordAdd len _ _ z _ => some ⟨z, len⟩
  | .mul len _ _ zz => some ⟨zz, 2 * len⟩
  | .squareWordAddExt len _ _ zz => some ⟨zz, 2 * len⟩
  | .square len _ zz => some ⟨zz, 2 * len⟩
  | .shiftDownBit len _ _ z => some ⟨z, len⟩
  | .shiftDownBits len _ _ _ z => some ⟨z, len⟩
  | .shiftDownWord len _ _ z => some ⟨z, len⟩
  | .shiftUpBit len _ _ z => some ⟨z, len⟩
  | .gte _ _ _ => none
  | .gteExt _ _ _ => none
  | .getBit _ _ _ => none
  | .inc len z _ => some ⟨z, len⟩
  | .incExt len zz _ => some ⟨zz, 2 * len⟩
  | .dec len z _ => some ⟨z, len⟩

/-- P2 to P8 of rule R173: the ranges of the offsets and of the shift amount. A command none of them names has no such
precondition. -/
def operandsInRange : Instr → Bool
  | .create _ _ => true
  | .createExt _ _ => true
  | .zero _ _ => true
  | .isZero _ _ => true
  | .isZeroExt _ _ => true
  | .isOne _ _ => true
  | .add _ _ _ _ => true
  | .addBothTo _ _ _ _ => true
  | .addExt _ _ _ _ => true
  | .addToExt len _ _ _ zzOff => zzOff ≤ len
  | .addWordExt len _ _ zzOff => zzOff < 2 * len
  | .sub _ _ _ _ => true
  | .subBothFrom _ _ _ _ => true
  | .subExt _ _ _ _ => true
  | .subFromExt len _ _ _ zzOff => zzOff ≤ len
  | .mulWordExt len _ _ _ zzOff => zzOff ≤ len
  | .mulWordAddExt len _ _ _ _ zzOff => zzOff ≤ len
  | .mulWordDwordAdd len _ _ _ zOff => zOff + 3 ≤ len
  | .mul _ _ _ _ => true
  | .squareWordAddExt len _ xPos _ => 0 < xPos && xPos < len
  | .square _ _ _ => true
  | .shiftDownBit _ _ _ _ => true
  | .shiftDownBits _ _ bits _ _ => 0 < bits && bits < 32
  | .shiftDownWord _ _ _ _ => true
  | .shiftUpBit _ _ _ _ => true
  | .gte _ _ _ => true
  | .gteExt _ _ _ => true
  | .getBit _ _ _ => true
  | .inc len _ zOff => zOff < len
  | .incExt len _ zzOff => zzOff < 2 * len
  | .dec len _ zOff => zOff < len

/-- The operations whose traversal order makes an exact alias of a source and the destination safe (rule R56, rule R173 P9). -/
def mayAlias : Instr → Bool
  | .create _ _ => false
  | .createExt _ _ => false
  | .zero _ _ => false
  | .isZero _ _ => false
  | .isZeroExt _ _ => false
  | .isOne _ _ => false
  | .add _ _ _ _ => true
  | .addBothTo _ _ _ _ => true
  | .addExt _ _ _ _ => true
  | .addToExt _ _ _ _ _ => true
  | .addWordExt _ _ _ _ => false
  | .sub _ _ _ _ => true
  | .subBothFrom _ _ _ _ => true
  | .subExt _ _ _ _ => true
  | .subFromExt _ _ _ _ _ => true
  | .mulWordExt _ _ _ _ _ => false
  | .mulWordAddExt _ _ _ _ _ _ => false
  | .mulWordDwordAdd _ _ _ _ _ => false
  | .mul _ _ _ _ => false
  | .squareWordAddExt _ _ _ _ => false
  | .square _ _ _ => false
  | .shiftDownBit _ _ _ _ => true
  | .shiftDownBits _ _ _ _ _ => true
  | .shiftDownWord _ _ _ _ => true
  | .shiftUpBit _ _ _ _ => true
  | .gte _ _ _ => false
  | .gteExt _ _ _ => false
  | .getBit _ _ _ => false
  | .inc _ _ _ => false
  | .incExt _ _ _ => false
  | .dec _ _ _ => false

/-- P9 for one source and the destination `d` (rule R56, rule R173). -/
def overlapAllowed (i : Instr) (d r : Region) : Bool := r.disjoint d || (mayAlias i && r.exactAlias d)

/-- P9: every source against the destination; sources may overlap each other in any way (rule R56, rule R193). -/
def aliasingAllowed (i : Instr) : Bool :=
  match destination i with
  | none => true
  | some d => (sources i).all (overlapAllowed i d)

/-- P1 of rule R173: `1 ≤ LEN ≤ LEN_MAX`. -/
def lengthLegal (cfg : Config) (i : Instr) : Bool := 1 ≤ lenOf i && lenOf i ≤ cfg.lenMax

/-- Every precondition of rule R173 holds. -/
def preconditionHolds (cfg : Config) (i : Instr) : Bool :=
  lengthLegal cfg i && operandsInRange i && aliasingAllowed i

/-- Every region of the command is inside memory (rule R44, rule R45). -/
def regionsInside (cfg : Config) (i : Instr) : Bool :=
  (sources i).all (Region.inside cfg.memWords) && (destination i).all (Region.inside cfg.memWords)

end Sys2Proof.Machine
end

