-- ==== Sys2Proof/Machine/Ops.lean ====
section
/-! DEFINITION. The shared operations: the buffer memory, the loops the operation rules are written with, the ripples, fault entry
and reset, and the order of checks every command goes through (rule R171). -/

namespace Sys2Proof.Machine

/-! ### The buffer memory -/

/-- What an address the list does not hold reads as. DESIGN CHOICE (log entry 3): the spec gives no reset content (rule R32); every
content of `M` is some canonical list, so a statement about every memory covers them all. -/
def unlisted : Word := 0#32

/-- The canonical form: addresses strictly rising, no cell equal to what an unlisted address reads as. -/
abbrev Memory.wf (m : Memory) : Prop := m.Pairwise (fun c d => c.1 < d.1) ∧ ∀ c ∈ m, c.2 ≠ unlisted

/-- `MemRead(a, 1)`: the word at word address `a` (rule R12, rule R46). -/
def Memory.read : Memory → Nat → Word
  | [], _ => unlisted
  | (b, w) :: cells, a => if a = b then w else Memory.read cells a

/-- A cell to put in the list, unless it says what an unlisted address says anyway. -/
def Memory.cell (a : Nat) (v : Word) : Memory := if v = unlisted then [] else [(a, v)]

/-- `MemWrite(a, 1, v)` (rule R12, rule R46), keeping the canonical form. -/
def Memory.write : Memory → Nat → Word → Memory
  | [], a, v => Memory.cell a v
  | (b, w) :: cells, a, v =>
      if a < b then Memory.cell a v ++ (b, w) :: cells
      else if a = b then Memory.cell a v ++ cells
      else (b, w) :: Memory.write cells a v

/-- `val(a, n) = Σ M[a + i] · 2^(32·i)` for `i = 0 .. n-1` (rule R13). -/
def Memory.val (m : Memory) (a : Nat) : Nat → Nat
  | 0 => 0
  | n + 1 => Memory.val m a n + (m.read (a + n)).toNat * 2 ^ (32 * n)

/-! ### Loops (rule R14) -/

/-- `for i in 0 .. n-1`. -/
def ascending {σ : Type} : Nat → (Nat → σ → σ) → σ → σ
  | 0, _, st => st
  | n + 1, body, st => body n (ascending n body st)

/-- `for i in n-1 downto 0`. -/
def descending {σ : Type} : Nat → (Nat → σ → σ) → σ → σ
  | 0, _, st => st
  | n + 1, body, st => descending n body (body n st)

/-- One step of the word-at-a-time mechanism (rule R90, rule R96, rule R110): read the words of step `i` and add their exact
sum to the accumulator, write `lo32(acc)` to word `i` of the destination, keep the carry or borrow. -/
def wordStep (dst : Nat) (term : Memory → Nat → Int) (i : Nat) (st : Memory × Int) : Memory × Int :=
  let acc := st.2 + term st.1 i
  (st.1.write (dst + i) (lo32 acc), carryOf acc)

/-- The word-at-a-time mechanism over `n` words, from index 0 to the top, with `acc <- 0` before; the second component is what
`RET` receives, the narrowed last carry or borrow (rule R90, rule R96). -/
def wordLoop (n dst : Nat) (term : Memory → Nat → Int) (m : Memory) : Memory × Word :=
  let st := ascending n (wordStep dst term) (m, 0)
  (st.1, lo32 st.2)

/-- One step of a shift (rule R130): read `x[i]`, write `z[i]` from it and the carry word, and the word read becomes the carry. -/
def shiftStep (x z : Nat) (combine : Word → Word → Word) (i : Nat) (st : Memory × Word) : Memory × Word :=
  let next := st.1.read (x + i)
  (st.1.write (z + i) (combine next st.2), next)

/-- A down shift: words from the top down, the carry-in word first (rule R131 to rule R133). -/
def shiftDown (n x z : Nat) (combine : Word → Word → Word) (c : Word) (m : Memory) : Memory × Word :=
  descending n (shiftStep x z combine) (m, c)

/-- An up shift: words from the bottom up (rule R134). -/
def shiftUp (n x z : Nat) (combine : Word → Word → Word) (c : Word) (m : Memory) : Memory × Word :=
  ascending n (shiftStep x z combine) (m, c)

/-- Writing zero to `n` words from `a`, in ascending address order (rule R80). -/
def zeroFill (n a : Nat) (m : Memory) : Memory := ascending n (fun i m => m.write (a + i) 0#32) m

/-- The `n` words from `a` are all zero (rule R84). -/
def allZero (m : Memory) (a n : Nat) : Bool := ascending n (fun i r => r && m.read (a + i) == 0#32) true

/-- The unsigned comparison of two `n`-word magnitudes from the top word down, stopping at the first difference (rule R140). -/
def notBelow (m : Memory) (x y : Nat) : Nat → Bool
  | 0 => true
  | n + 1 =>
      if (m.read (x + n)).toNat < (m.read (y + n)).toNat then false
      else if (m.read (y + n)).toNat < (m.read (x + n)).toNat then true
      else notBelow m x y n

/-- The body of `ripple_inc` (rule R143) over the `n` words from address `a`, ascending, stopping at the first word that does not
wrap. -/
def rippleIncWords : Nat → Nat → Memory → Memory × Word
  | 0, _, m => (m, 1#32)
  | n + 1, a, m =>
      let v := m.read a + 1#32
      let m' := m.write a v
      if v ≠ 0#32 then (m', 0#32) else rippleIncWords n (a + 1) m'

/-- The body of `ripple_dec` (rule R143). -/
def rippleDecWords : Nat → Nat → Memory → Memory × Word
  | 0, _, m => (m, 0xFFFFFFFF#32)
  | n + 1, a, m =>
      let v := m.read a - 1#32
      let m' := m.write a v
      if v ≠ 0xFFFFFFFF#32 then (m', 0#32) else rippleDecWords n (a + 1) m'

/-- `ripple_inc(base, from, top)` (rule R143). -/
def rippleInc (base start top : Nat) (m : Memory) : Memory × Word :=
  rippleIncWords (top - start) (effective base start 0) m

/-- `ripple_dec(base, from, top)` (rule R143). -/
def rippleDec (base start top : Nat) (m : Memory) : Memory × Word :=
  rippleDecWords (top - start) (effective base start 0) m

/-! ### Faults and reset -/

/-- F_ILLOP (rule R172). -/
def illegalOperation : BitVec 4 := 1#4

/-- F_PRECOND (rule R173). -/
def preconditionViolated : BitVec 4 := 2#4

/-- F_BOUNDS (rule R176). -/
def outOfBounds : BitVec 4 := 3#4

/-- `raise Fault(code)`, fault entry (rule R175): `FAULT <- code`; `M` and `RET` unchanged; the command ends. Nothing is saved, no
handler runs and control goes nowhere. -/
def raiseFault (code : BitVec 4) (s : State) : State := { s with fault := code }

/-- The unit is halted (rule R177). -/
def halted (s : State) : Bool := s.fault != 0#4

/-- Reset, asserted by the host, the only exit from the halted state (rule R190): `RET` and `FAULT` are cleared, the model-level
index restarts, and every word of `M` has an unspecified value, here the argument `m`. -/
def hostReset (m : Memory) (s : State) : State := { s with mem := m, ret := 0#32, fault := 0#4, k := 0 }

/-! ### The order of checks -/

/-- A command that completes: `M` as its pseudocode leaves it, and `RET` written once, last (rule R24, rule R171 step 5). -/
def complete (result : Memory × Word) (s : State) : State := { s with mem := result.1, ret := result.2 }

/-- The steps of rule R171 for a packet that decodes to `i`, whose pseudocode is `run`: dropped when halted; the preconditions;
the bounds; then the operation. The checks precede every access to `M`. -/
def issue (i : Instr) (run : Memory → Memory × Word) (s : State) : Host.Outcome State Fault Refusal :=
  if halted s then .next s
  else if !preconditionHolds s.cfg i then
    if s.cfg.checked then .next (raiseFault preconditionViolated s) else .refused .trustedPreconditionViolated
  else if !regionsInside s.cfg i then .next (raiseFault outOfBounds s)
  else .next (complete (run s.mem) s)

/-- The steps of rule R171 for a packet that decodes to no command: dropped when halted, else F_ILLOP. -/
def illegalPacket (s : State) : Host.Outcome State Fault Refusal :=
  if halted s then .next s else .next (raiseFault illegalOperation s)

/-- The packet the host presents next, if its list has one left (rule R26). -/
def presented (s : State) : Option Packet := s.program[s.k]?

/-- The model-level index moves on after a packet, whatever became of it (rule R26). -/
def advance (o : Host.Outcome State Fault Refusal) : Host.Outcome State Fault Refusal :=
  match o with
  | .next s => .next { s with k := s.k + 1 }
  | .fault r => .fault r
  | .refused r => .refused r

/-- The host's list is the one packet `p`, presented next: how a command comes to the unit (rule R26, rule R28). -/
def presentOnly (p : Packet) (s : State) : State := { s with program := [p], k := 0 }

end Sys2Proof.Machine
end

