-- ==== Sys2Proof/Machine/AddSub.lean ====
section
/-! DEFINITION. Ripple-carry add and subtract (41_add_subtract.md). Each meaning gives the exact sum of one step; the ripple is
`wordLoop`. -/

namespace Sys2Proof.Machine

/-- `add`, rule R91. -/
def execAdd (len x y z : Nat) (s : State) : Host.Outcome State Fault Refusal :=
  issue (.add len x y z) (wordLoop len z (fun m i => uint (m.read (x + i)) + uint (m.read (y + i)))) s

/-- `addBothTo`, rule R92: `z` is both an addend and the destination. -/
def execAddBothTo (len x y z : Nat) (s : State) : Host.Outcome State Fault Refusal :=
  issue (.addBothTo len x y z)
    (wordLoop len z (fun m i => uint (m.read (x + i)) + uint (m.read (y + i)) + uint (m.read (z + i)))) s

/-- `addExt`, rule R93. -/
def execAddExt (len xx yy zz : Nat) (s : State) : Host.Outcome State Fault Refusal :=
  issue (.addExt len xx yy zz)
    (wordLoop (2 * len) zz (fun m i => uint (m.read (xx + i)) + uint (m.read (yy + i)))) s

/-- `addToExt`, rule R94: the carry out of the window is returned, not rippled. -/
def execAddToExt (len x xOff zz zzOff : Nat) (s : State) : Host.Outcome State Fault Refusal :=
  issue (.addToExt len x xOff zz zzOff)
    (wordLoop len (effective zz zzOff 0)
      (fun m i => uint (m.read (effective x xOff i)) + uint (m.read (effective zz zzOff i)))) s

/-- The pseudocode of rule R95, also run inside `square` (rule R116). -/
def addWordAt (len : Nat) (x : Word) (zz zzOff : Nat) (m : Memory) : Memory × Word :=
  let acc := uint x + uint (m.read (effective zz zzOff 0))
  let m' := m.write (effective zz zzOff 0) (lo32 acc)
  if carryOf acc = 0 then (m', 0#32) else rippleInc zz (zzOff + 1) (2 * len) m'

/-- `addWordExt`, rule R95. -/
def execAddWordExt (len : Nat) (x : Word) (zz zzOff : Nat) (s : State) : Host.Outcome State Fault Refusal :=
  issue (.addWordExt len x zz zzOff) (addWordAt len x zz zzOff) s

/-- `sub`, rule R97. -/
def execSub (len x y z : Nat) (s : State) : Host.Outcome State Fault Refusal :=
  issue (.sub len x y z) (wordLoop len z (fun m i => uint (m.read (x + i)) - uint (m.read (y + i)))) s

/-- `subBothFrom`, rule R98: `z` is the minuend and the destination. -/
def execSubBothFrom (len x y z : Nat) (s : State) : Host.Outcome State Fault Refusal :=
  issue (.subBothFrom len x y z)
    (wordLoop len z (fun m i => uint (m.read (z + i)) - uint (m.read (x + i)) - uint (m.read (y + i)))) s

/-- `subExt`, rule R99. -/
def execSubExt (len xx yy zz : Nat) (s : State) : Host.Outcome State Fault Refusal :=
  issue (.subExt len xx yy zz)
    (wordLoop (2 * len) zz (fun m i => uint (m.read (xx + i)) - uint (m.read (yy + i)))) s

/-- `subFromExt`, rule R100: the borrow out of the window is returned, not rippled. -/
def execSubFromExt (len x xOff zz zzOff : Nat) (s : State) : Host.Outcome State Fault Refusal :=
  issue (.subFromExt len x xOff zz zzOff)
    (wordLoop len (effective zz zzOff 0)
      (fun m i => uint (m.read (effective zz zzOff i)) - uint (m.read (effective x xOff i)))) s

end Sys2Proof.Machine
end

