-- ==== Sys2Proof/Machine/Buffer.lean ====
section
/-! DEFINITION. Buffer primitives (40_buffer_primitives.md). -/

namespace Sys2Proof.Machine

/-- `create`, rule R81: zero-fills `len` words at the address the host chose; there is no allocator. -/
def execCreate (len z : Nat) (s : State) : Host.Outcome State Fault Refusal :=
  issue (.create len z) (fun m => (zeroFill len z m, noValue)) s

/-- `createExt`, rule R82. -/
def execCreateExt (len zz : Nat) (s : State) : Host.Outcome State Fault Refusal :=
  issue (.createExt len zz) (fun m => (zeroFill (2 * len) zz m, noValue)) s

/-- `zero`, rule R83. -/
def execZero (len z : Nat) (s : State) : Host.Outcome State Fault Refusal :=
  issue (.zero len z) (fun m => (zeroFill len z m, noValue)) s

/-- `isZero`, rule R84. -/
def execIsZero (len x : Nat) (s : State) : Host.Outcome State Fault Refusal :=
  issue (.isZero len x) (fun m => (m, truth (allZero m x len))) s

/-- `isZeroExt`, rule R85. -/
def execIsZeroExt (len xx : Nat) (s : State) : Host.Outcome State Fault Refusal :=
  issue (.isZeroExt len xx) (fun m => (m, truth (allZero m xx (2 * len)))) s

/-- `isOne`, rule R86: word 0 is 1 and words `1 .. len-1` are zero. -/
def execIsOne (len x : Nat) (s : State) : Host.Outcome State Fault Refusal :=
  issue (.isOne len x) (fun m => (m, truth (m.read x == 1#32 && allZero m (x + 1) (len - 1)))) s

end Sys2Proof.Machine
end

