-- ==== Sys2Proof/Machine/Compare.lean ====
section
/-! DEFINITION. Comparison, bit test, increment and decrement (44_compare_incdec.md). -/

namespace Sys2Proof.Machine

/-- `gte`, rule R140. -/
def execGte (len x y : Nat) (s : State) : Host.Outcome State Fault Refusal :=
  issue (.gte len x y) (fun m => (m, truth (notBelow m x y len))) s

/-- `gteExt`, rule R141. -/
def execGteExt (len xx yy : Nat) (s : State) : Host.Outcome State Fault Refusal :=
  issue (.gteExt len xx yy) (fun m => (m, truth (notBelow m xx yy (2 * len)))) s

/-- The pseudocode of rule R142: the word index against the word count, unsigned; no word is read out of range. -/
def bitAt (len x : Nat) (bit : Word) (m : Memory) : Word :=
  let w := (shr bit 5).toNat
  if len ≤ w then 0#32 else shr (m.read (x + w)) (bit &&& 31#32).toNat &&& 1#32

/-- `getBit`, rule R142. -/
def execGetBit (len x : Nat) (bit : Word) (s : State) : Host.Outcome State Fault Refusal :=
  issue (.getBit len x bit) (fun m => (m, bitAt len x bit m)) s

/-- `inc`, rule R144. -/
def execInc (len z zOff : Nat) (s : State) : Host.Outcome State Fault Refusal :=
  issue (.inc len z zOff) (rippleInc z zOff len) s

/-- `incExt`, rule R145. -/
def execIncExt (len zz zzOff : Nat) (s : State) : Host.Outcome State Fault Refusal :=
  issue (.incExt len zz zzOff) (rippleInc zz zzOff (2 * len)) s

/-- `dec`, rule R146. -/
def execDec (len z zOff : Nat) (s : State) : Host.Outcome State Fault Refusal :=
  issue (.dec len z zOff) (rippleDec z zOff len) s

end Sys2Proof.Machine
end

