-- ==== Sys2Proof/Machine/Shift.lean ====
section
/-! DEFINITION. Shift operators (43_shift.md). Each meaning gives how a word of `z` is made from the word of `x` and the carry word,
and how the last carry word is returned. -/

namespace Sys2Proof.Machine

/-- `(next >> n) | (c << (32 - n))`: the down shift by `n` bits of one word (rule R131 with `n = 1`, rule R132). -/
def downWord (n : Nat) (next c : Word) : Word := shr next n ||| shl c (32 - n)

/-- `(next << 1) | (c >> 31)`: the up shift by one bit of one word (rule R134). -/
def upWord (next c : Word) : Word := shl next 1 ||| shr c 31

/-- `shiftDownBit`, rule R131. -/
def execShiftDownBit (len x : Nat) (c : Word) (z : Nat) (s : State) : Host.Outcome State Fault Refusal :=
  issue (.shiftDownBit len x c z)
    (fun m => let r := shiftDown len x z (downWord 1) c m; (r.1, shl r.2 31)) s

/-- `shiftDownBits`, rule R132. -/
def execShiftDownBits (len x bits : Nat) (c : Word) (z : Nat) (s : State) : Host.Outcome State Fault Refusal :=
  issue (.shiftDownBits len x bits c z)
    (fun m => let r := shiftDown len x z (downWord bits) c m; (r.1, shl r.2 (32 - bits))) s

/-- `shiftDownWord`, rule R133. -/
def execShiftDownWord (len x : Nat) (c : Word) (z : Nat) (s : State) : Host.Outcome State Fault Refusal :=
  issue (.shiftDownWord len x c z) (shiftDown len x z (fun _ carry => carry) c) s

/-- The pseudocode of rule R134 over `n` words, also run inside `square` (rule R116). -/
def shiftUpOne (n x : Nat) (c : Word) (z : Nat) (m : Memory) : Memory × Word :=
  let r := shiftUp n x z upWord c m
  (r.1, shr r.2 31)

/-- `shiftUpBit`, rule R134. -/
def execShiftUpBit (len x : Nat) (c : Word) (z : Nat) (s : State) : Host.Outcome State Fault Refusal :=
  issue (.shiftUpBit len x c z) (shiftUpOne len x c z) s

end Sys2Proof.Machine
end

