-- ==== Sys2Proof/Machine/MulSquare.lean ====
section
/-! DEFINITION. Multiply and square engine (42_multiply_square.md). A product of two words is exact and joins the accumulator of
`wordLoop` (rule R110). -/

namespace Sys2Proof.Machine

/-- The pseudocode of rule R111, also row 0 of `mul`; `dst` is the first word of the window. -/
def mulRow (n : Nat) (w : Word) (y dst : Nat) (m : Memory) : Memory × Word :=
  wordLoop n dst (fun m i => uint w * uint (m.read (y + i))) m

/-- The pseudocode of rule R112, also the other rows of `mul` and, over `xPos` words, the body of rule R115. -/
def mulAddRow (n : Nat) (w : Word) (y dst : Nat) (m : Memory) : Memory × Word :=
  wordLoop n dst (fun m i => uint w * uint (m.read (y + i)) + uint (m.read (dst + i))) m

/-- `mulWordExt`, rule R111. -/
def execMulWordExt (len : Nat) (x : Word) (y zz zzOff : Nat) (s : State) : Host.Outcome State Fault Refusal :=
  issue (.mulWordExt len x y zz zzOff) (mulRow len x y (effective zz zzOff 0)) s

/-- `mulWordAddExt`, rule R112. -/
def execMulWordAddExt (len : Nat) (x : Word) (y yyOff zz zzOff : Nat) (s : State) :
    Host.Outcome State Fault Refusal :=
  issue (.mulWordAddExt len x y yyOff zz zzOff) (mulAddRow len x (effective y yyOff 0) (effective zz zzOff 0)) s

/-- The three steps of rule R113 on the window at address `a`; the last component is the carry out of the window. -/
def mulDwordWindow (x : Word) (y64 : BitVec 64) (a : Nat) (m : Memory) : Memory × Int :=
  let acc0 := uint x * uint (y64.extractLsb' 0 32) + uint (m.read a)
  let m0 := m.write a (lo32 acc0)
  let acc1 := carryOf acc0 + uint x * uint (y64.extractLsb' 32 32) + uint (m0.read (a + 1))
  let m1 := m0.write (a + 1) (lo32 acc1)
  let acc2 := carryOf acc1 + uint (m1.read (a + 2))
  (m1.write (a + 2) (lo32 acc2), carryOf acc2)

/-- `mulWordDwordAdd`, rule R113: the whole 96-bit product is added (90_conflicts.md C3). -/
def execMulWordDwordAdd (len : Nat) (x : Word) (y64 : BitVec 64) (z zOff : Nat) (s : State) :
    Host.Outcome State Fault Refusal :=
  issue (.mulWordDwordAdd len x y64 z zOff)
    (fun m =>
      let w := mulDwordWindow x y64 (effective z zOff 0) m
      if w.2 = 0 then (w.1, 0#32) else rippleInc z (zOff + 3) len w.1) s

/-- Row 0 of rule R114: `x[0]` times `y`, its carry stored at `zz[len]`. -/
def mulFirstRow (len x y zz : Nat) (m : Memory) : Memory :=
  let r := mulRow len (m.read x) y zz m
  r.1.write (zz + len) r.2

/-- Row `i` of rule R114: `x[i]` times `y` added at `zz[i ..]`, its carry stored at `zz[i + len]`. -/
def mulNextRow (len x y zz i : Nat) (m : Memory) : Memory :=
  let r := mulAddRow len (m.read (x + i)) y (zz + i) m
  r.1.write (zz + i + len) r.2

/-- The pseudocode of rule R114. -/
def mulAll (len x y zz : Nat) (m : Memory) : Memory :=
  ascending (len - 1) (fun j m => mulNextRow len x y zz (j + 1) m) (mulFirstRow len x y zz m)

/-- `mul`, rule R114. -/
def execMul (len x y zz : Nat) (s : State) : Host.Outcome State Fault Refusal :=
  issue (.mul len x y zz) (fun m => (mulAll len x y zz m, noValue)) s

/-- The pseudocode of rule R115: `x[xPos]` times `x[0 .. xPos)` added at `zz[xPos ..]`, over `xPos` words. -/
def crossTerms (x xPos zz : Nat) (m : Memory) : Memory × Word :=
  mulAddRow xPos (m.read (x + xPos)) x (zz + xPos) m

/-- `squareWordAddExt`, rule R115. -/
def execSquareWordAddExt (len x xPos zz : Nat) (s : State) : Host.Outcome State Fault Refusal :=
  issue (.squareWordAddExt len x xPos zz) (crossTerms x xPos zz) s

/-- One step of pass 1 of rule R116: slot `j` of the halved diagonal; the state's second component is the one-bit carry. -/
def diagonalStep (x zz j : Nat) (st : Memory × Word) : Memory × Word :=
  let w := (st.1.read (x + j)).toNat
  let p := w * w
  let m1 := st.1.write (zz + 2 * j + 1) (shl st.2 31 ||| BitVec.ofNat 32 (bitField p 63 33))
  let m2 := m1.write (zz + 2 * j) (BitVec.ofNat 32 (bitField p 32 1))
  (m2, BitVec.ofNat 32 (bitField p 0 0))

/-- Pass 1 of rule R116: the diagonal, halved, descending. -/
def squareDiagonal (len x zz : Nat) (m : Memory) : Memory := (descending len (diagonalStep x zz) (m, 0#32)).1

/-- One step of pass 2 of rule R116: the cross terms of `i`, their carry folded in at `zz[2·i]`. -/
def crossStep (len x zz i : Nat) (m : Memory) : Memory :=
  let r := crossTerms x i zz m
  (addWordAt len r.2 zz (2 * i) r.1).1

/-- Pass 2 of rule R116: the cross terms, once each, for `i` in `1 .. len-1`. -/
def squareCross (len x zz : Nat) (m : Memory) : Memory :=
  ascending (len - 1) (fun j m => crossStep len x zz (j + 1) m) m

/-- Pass 3 of rule R116: double, shifting in bit 0 of `x[0]` (90_conflicts.md C1). -/
def squareDouble (len x zz : Nat) (m : Memory) : Memory :=
  (shiftUpOne (2 * len) zz (shl (m.read x) 31) zz m).1

/-- The three passes of rule R116. The inner operations run as pseudocode only: no checks, no write of `RET`. -/
def squareAll (len x zz : Nat) (m : Memory) : Memory :=
  squareDouble len x zz (squareCross len x zz (squareDiagonal len x zz m))

/-- `square`, rule R116. -/
def execSquare (len x zz : Nat) (s : State) : Host.Outcome State Fault Refusal :=
  issue (.square len x zz) (fun m => (squareAll len x zz m, noValue)) s

end Sys2Proof.Machine
end

