-- ==== Sys2Proof/Machine/Dispatch.lean ====
section
/-! DEFINITION. The meaning of each command, one arm per constructor of `Instr`. -/

namespace Sys2Proof.Machine

def exec (i : Instr) (s : State) : Host.Outcome State Fault Refusal :=
  match i with
  | .create len z => Sys2Proof.Machine.execCreate len z s
  | .createExt len zz => Sys2Proof.Machine.execCreateExt len zz s
  | .zero len z => Sys2Proof.Machine.execZero len z s
  | .isZero len x => Sys2Proof.Machine.execIsZero len x s
  | .isZeroExt len xx => Sys2Proof.Machine.execIsZeroExt len xx s
  | .isOne len x => Sys2Proof.Machine.execIsOne len x s
  | .add len x y z => Sys2Proof.Machine.execAdd len x y z s
  | .addBothTo len x y z => Sys2Proof.Machine.execAddBothTo len x y z s
  | .addExt len xx yy zz => Sys2Proof.Machine.execAddExt len xx yy zz s
  | .addToExt len x xOff zz zzOff => Sys2Proof.Machine.execAddToExt len x xOff zz zzOff s
  | .addWordExt len x zz zzOff => Sys2Proof.Machine.execAddWordExt len x zz zzOff s
  | .sub len x y z => Sys2Proof.Machine.execSub len x y z s
  | .subBothFrom len x y z => Sys2Proof.Machine.execSubBothFrom len x y z s
  | .subExt len xx yy zz => Sys2Proof.Machine.execSubExt len xx yy zz s
  | .subFromExt len x xOff zz zzOff => Sys2Proof.Machine.execSubFromExt len x xOff zz zzOff s
  | .mulWordExt len x y zz zzOff => Sys2Proof.Machine.execMulWordExt len x y zz zzOff s
  | .mulWordAddExt len x y yyOff zz zzOff => Sys2Proof.Machine.execMulWordAddExt len x y yyOff zz zzOff s
  | .mulWordDwordAdd len x y64 z zOff => Sys2Proof.Machine.execMulWordDwordAdd len x y64 z zOff s
  | .mul len x y zz => Sys2Proof.Machine.execMul len x y zz s
  | .squareWordAddExt len x xPos zz => Sys2Proof.Machine.execSquareWordAddExt len x xPos zz s
  | .square len x zz => Sys2Proof.Machine.execSquare len x zz s
  | .shiftDownBit len x c z => Sys2Proof.Machine.execShiftDownBit len x c z s
  | .shiftDownBits len x bits c z => Sys2Proof.Machine.execShiftDownBits len x bits c z s
  | .shiftDownWord len x c z => Sys2Proof.Machine.execShiftDownWord len x c z s
  | .shiftUpBit len x c z => Sys2Proof.Machine.execShiftUpBit len x c z s
  | .gte len x y => Sys2Proof.Machine.execGte len x y s
  | .gteExt len xx yy => Sys2Proof.Machine.execGteExt len xx yy s
  | .getBit len x bit => Sys2Proof.Machine.execGetBit len x bit s
  | .inc len z zOff => Sys2Proof.Machine.execInc len z zOff s
  | .incExt len zz zzOff => Sys2Proof.Machine.execIncExt len zz zzOff s
  | .dec len z zOff => Sys2Proof.Machine.execDec len z zOff s

end Sys2Proof.Machine
end

