-- ==== Sys2Proof/Machine/Step.lean ====
section
/-! DEFINITION. One step of the machine (rule R171, rule R26): the unit takes the packet the host presents, does what rule R171 says,
and the model-level index moves on; with no packet presented the unit is idle. -/

namespace Sys2Proof.Machine

/-- One step. With no packet left the unit waits for the next one and nothing changes (rule R70, rule R190). -/
def step (s : State) : Host.Outcome State Fault Refusal :=
  match presented s with
  | none => .next s
  | some p =>
    match decode p with
    | .ok i => advance (exec i s)
    | .error _ => advance (illegalPacket s)

/-- `s` with the packet whose low `nbits` bits are those of `w` (the bits above zero) presented next, alone. -/
def State.withFetchWord (s : State) (nbits w : Nat) : State := presentOnly (packetOfTableWord nbits w) s

end Sys2Proof.Machine
end

