-- ==== Sys2Proof/Machine/Assembler.lean ====
section
/-! DEFINITION. The assembler syntax (rule R68, D26) and the pseudo-instructions (rule R69): from a line of text to its tokens, from
the tokens to a command, from a command to its packet. -/

namespace Sys2Proof.Machine

/-- The argument forms of rule R68. -/
inductive AsmArg where
  /-- A count or an offset: a plain number. -/
  | number (n : Nat)
  /-- A buffer: `@` and its base word address. -/
  | buffer (a : Nat)
  /-- A scalar: `#` and a number. -/
  | scalar (v : Nat)
deriving DecidableEq, Repr

/-- The mnemonics: "the document's routine name, spelled and capitalised as there" (rule R68). -/
inductive Mnemonic where
  | create | createExt | zero | isZero | isZeroExt | isOne | add | addBothTo | addExt | addToExt | addWordExt
  | sub | subBothFrom | subExt | subFromExt | mulWordExt | mulWordAddExt | mulWordDwordAdd | mul
  | squareWordAddExt | square | shiftDownBit | shiftDownBits | shiftDownWord | shiftUpBit | gte | gteExt | getBit
  | inc | incExt | dec
deriving DecidableEq, Repr

/-- How a mnemonic is spelled (rule R68). -/
def Mnemonic.text : Mnemonic → String
  | .create => "create"
  | .createExt => "createExt"
  | .zero => "zero"
  | .isZero => "isZero"
  | .isZeroExt => "isZeroExt"
  | .isOne => "isOne"
  | .add => "add"
  | .addBothTo => "addBothTo"
  | .addExt => "addExt"
  | .addToExt => "addToExt"
  | .addWordExt => "addWordExt"
  | .sub => "sub"
  | .subBothFrom => "subBothFrom"
  | .subExt => "subExt"
  | .subFromExt => "subFromExt"
  | .mulWordExt => "mulWordExt"
  | .mulWordAddExt => "mulWordAddExt"
  | .mulWordDwordAdd => "mulWordDwordAdd"
  | .mul => "mul"
  | .squareWordAddExt => "squareWordAddExt"
  | .square => "square"
  | .shiftDownBit => "shiftDownBit"
  | .shiftDownBits => "shiftDownBits"
  | .shiftDownWord => "shiftDownWord"
  | .shiftUpBit => "shiftUpBit"
  | .gte => "gte"
  | .gteExt => "gteExt"
  | .getBit => "getBit"
  | .inc => "inc"
  | .incExt => "incExt"
  | .dec => "dec"

/-- Every mnemonic, in the order of the opcode map (rule R63). -/
def allMnemonics : List Mnemonic :=
  [.create, .createExt, .zero, .isZero, .isZeroExt, .isOne, .add, .addBothTo, .addExt, .addToExt, .addWordExt,
  .sub, .subBothFrom, .subExt, .subFromExt, .mulWordExt, .mulWordAddExt, .mulWordDwordAdd, .mul,
  .squareWordAddExt, .square, .shiftDownBit, .shiftDownBits, .shiftDownWord, .shiftUpBit, .gte, .gteExt, .getBit,
  .inc, .incExt, .dec]

/-- A line: the mnemonic and its arguments (rule R68). -/
structure AsmLine where
  mnemonic : Mnemonic
  args : List AsmArg
deriving DecidableEq, Repr

/-! ### Text to tokens -/

/-- The value of a decimal digit, or of a hexadecimal one. -/
def digitValue (base : Nat) (c : Char) : Option Nat :=
  let n := c.toNat
  let v :=
    if 48 ≤ n ∧ n ≤ 57 then n - 48
    else if 65 ≤ n ∧ n ≤ 70 then n - 55
    else if 97 ≤ n ∧ n ≤ 102 then n - 87
    else base
  if v < base then some v else none

/-- The digits as a number, after the value `v` read so far. -/
def digitsValue (base v : Nat) : List Char → Option Nat
  | [] => some v
  | c :: cs =>
    match digitValue base c with
    | some d => digitsValue base (v * base + d) cs
    | none => none

/-- A decimal number, or a hexadecimal one after `0x` (rule R68). -/
def parseNumber : List Char → Option Nat
  | [] => none
  | '0' :: 'x' :: c :: cs => digitsValue 16 0 (c :: cs)
  | c :: cs => digitsValue 10 0 (c :: cs)

/-- One argument. -/
def parseArg : List Char → Option AsmArg
  | '@' :: cs => (parseNumber cs).map AsmArg.buffer
  | '#' :: cs => (parseNumber cs).map AsmArg.scalar
  | cs => (parseNumber cs).map AsmArg.number

/-- The text without its comment: everything from `;` on (rule R68). -/
def withoutComment (cs : List Char) : List Char := cs.takeWhile (fun c => c != ';')

/-- The text split at `c`. -/
def splitAt (c : Char) : List Char → List (List Char)
  | [] => [[]]
  | d :: ds =>
    if d = c then [] :: splitAt c ds
    else
      match splitAt c ds with
      | [] => [[d]]
      | w :: ws => (d :: w) :: ws

/-- The text without its blanks. -/
def withoutBlanks (cs : List Char) : List Char := cs.filter (fun c => c != ' ')

/-- Every argument, or nothing. -/
def parseArgs : List (List Char) → Option (List AsmArg)
  | [] => some []
  | w :: ws =>
    match parseArg (withoutBlanks w), parseArgs ws with
    | some a, some as => some (a :: as)
    | _, _ => none

/-- The mnemonic spelled so. -/
def parseMnemonic (cs : List Char) : Option Mnemonic := allMnemonics.find? (fun m => m.text.toList == cs)

/-- A line `mnemonic arg, arg, …` (rule R68). -/
def parseLine (text : List Char) : Option AsmLine :=
  let body := (withoutComment text).dropWhile (fun c => c == ' ')
  let word := body.takeWhile (fun c => c != ' ')
  match parseMnemonic word, parseArgs (splitAt ',' (body.drop word.length)) with
  | some m, some args => some { mnemonic := m, args := args }
  | _, _ => none

/-! ### Tokens to a command -/

/-- A scalar word `#v`, for `v` below `2^32`. -/
def scalarWord (v : Nat) : Option Word := if v < 2 ^ 32 then some (BitVec.ofNat 32 v) else none

/-- The scalar `y64`, for `v` below `2^64` (rule R68). -/
def scalarDword (v : Nat) : Option (BitVec 64) := if v < 2 ^ 64 then some (BitVec.ofNat 64 v) else none

/-- The command of a line, its arguments "in the order of the first column of rule R62" (rule R68); the shifts' shorter forms are
the pseudo-instructions of rule R69. -/
def assembleLine (l : AsmLine) : Option Instr :=
  match l.mnemonic, l.args with
  | .create, [.number len, .buffer z] => some (.create len z)
  | .createExt, [.number len, .buffer zz] => some (.createExt len zz)
  | .zero, [.number len, .buffer z] => some (.zero len z)
  | .isZero, [.number len, .buffer x] => some (.isZero len x)
  | .isZeroExt, [.number len, .buffer xx] => some (.isZeroExt len xx)
  | .isOne, [.number len, .buffer x] => some (.isOne len x)
  | .add, [.number len, .buffer x, .buffer y, .buffer z] => some (.add len x y z)
  | .addBothTo, [.number len, .buffer x, .buffer y, .buffer z] => some (.addBothTo len x y z)
  | .addExt, [.number len, .buffer xx, .buffer yy, .buffer zz] => some (.addExt len xx yy zz)
  | .addToExt, [.number len, .buffer x, .number xOff, .buffer zz, .number zzOff] =>
      some (.addToExt len x xOff zz zzOff)
  | .addWordExt, [.number len, .scalar x, .buffer zz, .number zzOff] =>
      (scalarWord x).map (fun x => .addWordExt len x zz zzOff)
  | .sub, [.number len, .buffer x, .buffer y, .buffer z] => some (.sub len x y z)
  | .subBothFrom, [.number len, .buffer x, .buffer y, .buffer z] => some (.subBothFrom len x y z)
  | .subExt, [.number len, .buffer xx, .buffer yy, .buffer zz] => some (.subExt len xx yy zz)
  | .subFromExt, [.number len, .buffer x, .number xOff, .buffer zz, .number zzOff] =>
      some (.subFromExt len x xOff zz zzOff)
  | .mulWordExt, [.number len, .scalar x, .buffer y, .buffer zz, .number zzOff] =>
      (scalarWord x).map (fun x => .mulWordExt len x y zz zzOff)
  | .mulWordAddExt, [.number len, .scalar x, .buffer y, .number yyOff, .buffer zz, .number zzOff] =>
      (scalarWord x).map (fun x => .mulWordAddExt len x y yyOff zz zzOff)
  | .mulWordDwordAdd, [.number len, .scalar x, .scalar y64, .buffer z, .number zOff] =>
      match scalarWord x, scalarDword y64 with
      | some x, some y64 => some (.mulWordDwordAdd len x y64 z zOff)
      | _, _ => none
  | .mul, [.number len, .buffer x, .buffer y, .buffer zz] => some (.mul len x y zz)
  | .squareWordAddExt, [.number len, .buffer x, .number xPos, .buffer zz] =>
      some (.squareWordAddExt len x xPos zz)
  | .square, [.number len, .buffer x, .buffer zz] => some (.square len x zz)
  | .shiftDownBit, [.number len, .buffer x, .scalar c, .buffer z] =>
      (scalarWord c).map (fun c => .shiftDownBit len x c z)
  | .shiftDownBit, [.number len, .buffer z, .scalar c] => (scalarWord c).map (fun c => .shiftDownBit len z c z)
  | .shiftDownBits, [.number len, .buffer x, .number bits, .scalar c, .buffer z] =>
      (scalarWord c).map (fun c => .shiftDownBits len x bits c z)
  | .shiftDownBits, [.number len, .buffer z, .number bits, .scalar c] =>
      (scalarWord c).map (fun c => .shiftDownBits len z bits c z)
  | .shiftDownWord, [.number len, .buffer x, .scalar c, .buffer z] =>
      (scalarWord c).map (fun c => .shiftDownWord len x c z)
  | .shiftDownWord, [.number len, .buffer z, .scalar c] => (scalarWord c).map (fun c => .shiftDownWord len z c z)
  | .shiftUpBit, [.number len, .buffer x, .scalar c, .buffer z] =>
      (scalarWord c).map (fun c => .shiftUpBit len x c z)
  | .shiftUpBit, [.number len, .buffer z, .scalar c] => (scalarWord c).map (fun c => .shiftUpBit len z c z)
  | .gte, [.number len, .buffer x, .buffer y] => some (.gte len x y)
  | .gteExt, [.number len, .buffer xx, .buffer yy] => some (.gteExt len xx yy)
  | .getBit, [.number len, .buffer x, .scalar bit] => (scalarWord bit).map (fun bit => .getBit len x bit)
  | .inc, [.number len, .buffer z, .number zOff] => some (.inc len z zOff)
  | .incExt, [.number len, .buffer zz, .number zzOff] => some (.incExt len zz zzOff)
  | .dec, [.number len, .buffer z, .number zOff] => some (.dec len z zOff)
  | _, _ => none

/-- The packet of a line; a number that fits no packet field has none (rule R60). -/
def assemble (l : AsmLine) : Option Packet :=
  match assembleLine l with
  | some i => if i.wellFormed then some (encode i) else none
  | none => none

/-- The line a command is written as (rule R68). -/
def disassemble : Instr → AsmLine
  | .create len z => ⟨.create, [.number len, .buffer z]⟩
  | .createExt len zz => ⟨.createExt, [.number len, .buffer zz]⟩
  | .zero len z => ⟨.zero, [.number len, .buffer z]⟩
  | .isZero len x => ⟨.isZero, [.number len, .buffer x]⟩
  | .isZeroExt len xx => ⟨.isZeroExt, [.number len, .buffer xx]⟩
  | .isOne len x => ⟨.isOne, [.number len, .buffer x]⟩
  | .add len x y z => ⟨.add, [.number len, .buffer x, .buffer y, .buffer z]⟩
  | .addBothTo len x y z => ⟨.addBothTo, [.number len, .buffer x, .buffer y, .buffer z]⟩
  | .addExt len xx yy zz => ⟨.addExt, [.number len, .buffer xx, .buffer yy, .buffer zz]⟩
  | .addToExt len x xOff zz zzOff =>
      ⟨.addToExt, [.number len, .buffer x, .number xOff, .buffer zz, .number zzOff]⟩
  | .addWordExt len x zz zzOff =>
      ⟨.addWordExt, [.number len, .scalar x.toNat, .buffer zz, .number zzOff]⟩
  | .sub len x y z => ⟨.sub, [.number len, .buffer x, .buffer y, .buffer z]⟩
  | .subBothFrom len x y z => ⟨.subBothFrom, [.number len, .buffer x, .buffer y, .buffer z]⟩
  | .subExt len xx yy zz => ⟨.subExt, [.number len, .buffer xx, .buffer yy, .buffer zz]⟩
  | .subFromExt len x xOff zz zzOff =>
      ⟨.subFromExt, [.number len, .buffer x, .number xOff, .buffer zz, .number zzOff]⟩
  | .mulWordExt len x y zz zzOff =>
      ⟨.mulWordExt, [.number len, .scalar x.toNat, .buffer y, .buffer zz, .number zzOff]⟩
  | .mulWordAddExt len x y yyOff zz zzOff =>
      ⟨.mulWordAddExt,
        [.number len, .scalar x.toNat, .buffer y, .number yyOff, .buffer zz, .number zzOff]⟩
  | .mulWordDwordAdd len x y64 z zOff =>
      ⟨.mulWordDwordAdd, [.number len, .scalar x.toNat, .scalar y64.toNat, .buffer z, .number zOff]⟩
  | .mul len x y zz => ⟨.mul, [.number len, .buffer x, .buffer y, .buffer zz]⟩
  | .squareWordAddExt len x xPos zz =>
      ⟨.squareWordAddExt, [.number len, .buffer x, .number xPos, .buffer zz]⟩
  | .square len x zz => ⟨.square, [.number len, .buffer x, .buffer zz]⟩
  | .shiftDownBit len x c z =>
      ⟨.shiftDownBit, [.number len, .buffer x, .scalar c.toNat, .buffer z]⟩
  | .shiftDownBits len x bits c z =>
      ⟨.shiftDownBits, [.number len, .buffer x, .number bits, .scalar c.toNat, .buffer z]⟩
  | .shiftDownWord len x c z =>
      ⟨.shiftDownWord, [.number len, .buffer x, .scalar c.toNat, .buffer z]⟩
  | .shiftUpBit len x c z => ⟨.shiftUpBit, [.number len, .buffer x, .scalar c.toNat, .buffer z]⟩
  | .gte len x y => ⟨.gte, [.number len, .buffer x, .buffer y]⟩
  | .gteExt len xx yy => ⟨.gteExt, [.number len, .buffer xx, .buffer yy]⟩
  | .getBit len x bit => ⟨.getBit, [.number len, .buffer x, .scalar bit.toNat]⟩
  | .inc len z zOff => ⟨.inc, [.number len, .buffer z, .number zOff]⟩
  | .incExt len zz zzOff => ⟨.incExt, [.number len, .buffer zz, .number zzOff]⟩
  | .dec len z zOff => ⟨.dec, [.number len, .buffer z, .number zOff]⟩

end Sys2Proof.Machine
end

