-- ==== Sys2Proof/Machine/HostPort.lean ====
section
/-! DEFINITION. The host's side of the unit's interfaces (rule R28): what the host can do between commands (rule R52). The unit has
no move during which the host acts, so a host access during a command cannot be expressed (93_implementation_defined.md
U4; log entry 6). Reset, also the host's, is `hostReset` in Machine/Ops.lean. -/

namespace Sys2Proof.Machine

/-- Why a host's own action fails; neither touches `FAULT` or `RET`. -/
inductive HostError where
  /-- The word address is `≥ MEM_WORDS` and names no word (rule R47). -/
  | noSuchWord
  /-- The validated failure of `fromBigInteger` (rule R161, rule R170). -/
  | invalidArgument
deriving DecidableEq, Repr

/-- The response port: `RET` and `FAULT`, readable between commands (rule R28). -/
def hostResponse (s : State) : Word × BitVec 4 := (s.ret, s.fault)

/-- The memory port, reading (rule R28, rule R52); the answer at an address that does not exist is log entry 9. -/
def hostRead (a : Nat) (s : State) : Except HostError Word :=
  if a < s.cfg.memWords then .ok (s.mem.read a) else .error .noSuchWord

/-- The memory port, writing (rule R28, rule R52); the answer at an address that does not exist is log entry 9. -/
def hostWrite (a : Nat) (v : Word) (s : State) : Except HostError State :=
  if a < s.cfg.memWords then .ok { s with mem := s.mem.write a v } else .error .noSuchWord

/-- The command port: the host has one more packet to present after those of its list (rule R26, rule R28). -/
def hostSend (p : Packet) (s : State) : State := { s with program := s.program ++ [p] }

/-- The four bytes of a word, the least significant first. -/
def littleBytes (w : Word) : List Byte :=
  [w.extractLsb' 0 8, w.extractLsb' 8 8, w.extractLsb' 16 8, w.extractLsb' 24 8]

/-- The four bytes of a word in the order a host's byte view lays them (rule R41, parameter `HOST_BYTE_ORDER`). -/
def hostBytes (order : ByteOrder) (w : Word) : List Byte :=
  match order with
  | .little => littleBytes w
  | .big => (littleBytes w).reverse

/-- Byte `b` of a host's byte view of `M` (rule R41): that bytes `4·a .. 4·a+3` are those of word `a` is log entry 17, the answer for a
word that does not exist log entry 9. -/
def hostByte (b : Nat) (s : State) : Except HostError Byte :=
  if b / 4 < s.cfg.memWords then .ok ((hostBytes s.cfg.hostByteOrder (s.mem.read (b / 4))).getD (b % 4) 0#8)
  else .error .noSuchWord

end Sys2Proof.Machine
end

