-- ==== Sys2Proof/Machine/Conversion.lean ====
section
/-! DEFINITION. The conversion boundary (45_conversion_boundary.md): host software with no opcode, kept because it fixes how a buffer
is read as an integer (rule R160). -/

namespace Sys2Proof.Machine

/-- The words of `value`, least significant first, put at `a` (rule R161). -/
def putWords (a value : Nat) (n : Nat) (m : Memory) : Memory :=
  ascending n (fun i m => m.write (a + i) (BitVec.ofNat 32 (value / 2 ^ (32 * i)))) m

/-- `fromBigInteger(len, value)` into the region the host chose at `a` (rule R161): invalid-argument when the value is negative or
does not fit `32·len` bits. The region as an argument, and the error for one that is not inside memory, are log entry 9. -/
def fromBigInteger (len : Nat) (value : Int) (a : Nat) (s : State) : Except HostError State :=
  if value < 0 ∨ 2 ^ (32 * len) ≤ value then .error .invalidArgument
  else if s.cfg.memWords < a + len then .error .noSuchWord
  else .ok { s with mem := putWords a value.toNat len s.mem }

/-- The big-endian byte string of the `n`-word magnitude at `x`: word `x[i]` supplies the four bytes at offsets `4·(n-1-i)` on,
most significant first (rule R162). -/
def bigEndianBytes (m : Memory) (x : Nat) : Nat → List Byte
  | 0 => []
  | n + 1 => (littleBytes (m.read (x + n))).reverse ++ bigEndianBytes m x n

/-- A big-endian byte string as a non-negative integer (rule R162). -/
def integerOfBytes (bytes : List Byte) : Nat := bytes.foldl (fun v b => v * 256 + b.toNat) 0

/-- `toBigInteger(len, x)` (rule R162): never fails and writes nothing. The spec does not say what it gives for a region that reaches
past `MEM_WORDS`, where no word exists (rule R47): the model tests no bound and takes each such word as the memory list has it,
which is 0 in every state of the invariant. DESIGN CHOICE, log entry 9. -/
def toBigInteger (len x : Nat) (s : State) : Nat := integerOfBytes (bigEndianBytes s.mem x len)

end Sys2Proof.Machine
end

