-- ==== Sys2Proof/Safety.lean ====
section
/-! DEFINITION. The words statements are made in: the invariant, reachable states, the spec's own tables of regions and preconditions
written as propositions (beside, and not in terms of, the checks of Machine/Operands.lean that the meanings use), and what
"completes, changing only these words" means. -/

namespace Sys2Proof.Machine

/-! ### The invariant and reachable states -/

/-- What every reachable state satisfies: the parameters meet rule R8, memory is canonical and holds only words that exist
(rule R47), and `FAULT` is one of the four codes that are ever written (rule R25). -/
abbrev State.Inv (s : State) : Prop :=
  s.cfg.Valid ∧ s.mem.wf ∧ (∀ c ∈ s.mem, c.1 < s.cfg.memWords) ∧ s.fault.toNat ≤ 3

/-- What can happen to a unit other than reset: a step, or one of the host's moves between commands (rule R28, rule R52,
rule R160). -/
inductive Move : State → State → Prop where
  | step (s t : State) (stepped : Machine.step s = .next t) : Move s t
  | hostWrite (s t : State) (a : Nat) (v : Word) (wrote : Machine.hostWrite a v s = .ok t) : Move s t
  | hostSend (s : State) (p : Packet) : Move s (Machine.hostSend p s)
  | fromBigInteger (s t : State) (len : Nat) (value : Int) (a : Nat)
      (converted : Machine.fromBigInteger len value a s = .ok t) : Move s t

/-- The states that follow `s` for as long as reset is not asserted. -/
inductive UntilReset (s : State) : State → Prop where
  | refl : UntilReset s s
  | move (t u : State) (from_ : UntilReset s t) (moved : Move t u) : UntilReset s u

/-- The states a unit and its host can reach: reset with any legal configuration and any memory, every move, and reset again
(rule R32, rule R190). -/
inductive Reachable : State → Prop where
  | reset (cfg : Config) (m : Memory) (valid : cfg.Valid) (canonical : m.wf)
      (exist : ∀ c ∈ m, c.1 < cfg.memWords) : Reachable (State.resetOf cfg m)
  | move (s t : State) (from_ : Reachable s) (moved : Move s t) : Reachable t
  | hostReset (s : State) (m : Memory) (from_ : Reachable s) (canonical : m.wf)
      (exist : ∀ c ∈ m, c.1 < s.cfg.memWords) : Reachable (Machine.hostReset m s)

/-- A unit that has raised no fault: "A faulted state is never a successful end of a program" (rule R177). -/
abbrev Safe (s : State) : Prop := s.fault = 0#4

/-! ### Regions and preconditions, as the spec's tables give them -/

/-- `q` is one of the `n` words from `a`. -/
abbrev Within (a n q : Nat) : Prop := a ≤ q ∧ q < a + n

/-- The regions `[a, a+n)` and `[b, b+m)` are disjoint (rule R56). -/
abbrev Apart (a n b m : Nat) : Prop := a + n ≤ b ∨ b + m ≤ a

/-- Disjoint, or an exact alias (rule R56), for two regions of `n` words. -/
abbrev ApartOrSame (a b n : Nat) : Prop := Apart a n b n ∨ a = b

/-- Word `q` is in a region rule R45 marks R for the command. -/
def Reads : Instr → Nat → Prop
  | .create _ _, _ => False
  | .createExt _ _, _ => False
  | .zero _ _, _ => False
  | .isZero len x, q => Within x len q
  | .isZeroExt len xx, q => Within xx (2 * len) q
  | .isOne len x, q => Within x len q
  | .add len x y _, q => Within x len q ∨ Within y len q
  | .addBothTo len x y _, q => Within x len q ∨ Within y len q
  | .addExt len xx yy _, q => Within xx (2 * len) q ∨ Within yy (2 * len) q
  | .addToExt len x xOff _ _, q => Within (x + xOff) len q
  | .addWordExt _ _ _ _, _ => False
  | .sub len x y _, q => Within x len q ∨ Within y len q
  | .subBothFrom len x y _, q => Within x len q ∨ Within y len q
  | .subExt len xx yy _, q => Within xx (2 * len) q ∨ Within yy (2 * len) q
  | .subFromExt len x xOff _ _, q => Within (x + xOff) len q
  | .mulWordExt len _ y _ _, q => Within y len q
  | .mulWordAddExt len _ y yyOff _ _, q => Within (y + yyOff) len q
  | .mulWordDwordAdd _ _ _ _ _, _ => False
  | .mul len x y _, q => Within x len q ∨ Within y len q
  | .squareWordAddExt len x _ _, q => Within x len q
  | .square len x _, q => Within x len q
  | .shiftDownBit len x _ _, q => Within x len q
  | .shiftDownBits len x _ _ _, q => Within x len q
  | .shiftDownWord len x _ _, q => Within x len q
  | .shiftUpBit len x _ _, q => Within x len q
  | .gte len x y, q => Within x len q ∨ Within y len q
  | .gteExt len xx yy, q => Within xx (2 * len) q ∨ Within yy (2 * len) q
  | .getBit len x _, q => Within x len q
  | .inc _ _ _, _ => False
  | .incExt _ _ _, _ => False
  | .dec _ _ _, _ => False

/-- Word `q` is in the region rule R45 marks W for the command. -/
def Writes : Instr → Nat → Prop
  | .create len z, q => Within z len q
  | .createExt len zz, q => Within zz (2 * len) q
  | .zero len z, q => Within z len q
  | .isZero _ _, _ => False
  | .isZeroExt _ _, _ => False
  | .isOne _ _, _ => False
  | .add len _ _ z, q => Within z len q
  | .addBothTo len _ _ z, q => Within z len q
  | .addExt len _ _ zz, q => Within zz (2 * len) q
  | .addToExt len _ _ zz zzOff, q => Within (zz + zzOff) len q
  | .addWordExt len _ zz _, q => Within zz (2 * len) q
  | .sub len _ _ z, q => Within z len q
  | .subBothFrom len _ _ z, q => Within z len q
  | .subExt len _ _ zz, q => Within zz (2 * len) q
  | .subFromExt len _ _ zz zzOff, q => Within (zz + zzOff) len q
  | .mulWordExt len _ _ zz zzOff, q => Within (zz + zzOff) len q
  | .mulWordAddExt len _ _ _ zz zzOff, q => Within (zz + zzOff) len q
  | .mulWordDwordAdd len _ _ z _, q => Within z len q
  | .mul len _ _ zz, q => Within zz (2 * len) q
  | .squareWordAddExt len _ _ zz, q => Within zz (2 * len) q
  | .square len _ zz, q => Within zz (2 * len) q
  | .shiftDownBit len _ _ z, q => Within z len q
  | .shiftDownBits len _ _ _ z, q => Within z len q
  | .shiftDownWord len _ _ z, q => Within z len q
  | .shiftUpBit len _ _ z, q => Within z len q
  | .gte _ _ _, _ => False
  | .gteExt _ _ _, _ => False
  | .getBit _ _ _, _ => False
  | .inc len z _, q => Within z len q
  | .incExt len zz _, q => Within zz (2 * len) q
  | .dec len z _, q => Within z len q

/-- Every word of every region of the command exists (rule R44, rule R47). -/
def AllInside (cfg : Config) (i : Instr) : Prop := ∀ q, Reads i q ∨ Writes i q → q < cfg.memWords

/-- P1 of rule R173. -/
abbrev LegalLength (cfg : Config) (len : Nat) : Prop := 1 ≤ len ∧ len ≤ cfg.lenMax

/-- P1 to P9 of rule R173 for each command, the aliasing table of rule R193 included. -/
def Legal (cfg : Config) : Instr → Prop
  | .create len _ => LegalLength cfg len
  | .createExt len _ => LegalLength cfg len
  | .zero len _ => LegalLength cfg len
  | .isZero len _ => LegalLength cfg len
  | .isZeroExt len _ => LegalLength cfg len
  | .isOne len _ => LegalLength cfg len
  | .add len x y z => LegalLength cfg len ∧ ApartOrSame x z len ∧ ApartOrSame y z len
  | .addBothTo len x y z => LegalLength cfg len ∧ ApartOrSame x z len ∧ ApartOrSame y z len
  | .addExt len xx yy zz => LegalLength cfg len ∧ ApartOrSame xx zz (2 * len) ∧ ApartOrSame yy zz (2 * len)
  | .addToExt len x xOff zz zzOff => LegalLength cfg len ∧ zzOff ≤ len ∧ ApartOrSame (x + xOff) (zz + zzOff) len
  | .addWordExt len _ _ zzOff => LegalLength cfg len ∧ zzOff + 1 ≤ 2 * len
  | .sub len x y z => LegalLength cfg len ∧ ApartOrSame x z len ∧ ApartOrSame y z len
  | .subBothFrom len x y z => LegalLength cfg len ∧ ApartOrSame x z len ∧ ApartOrSame y z len
  | .subExt len xx yy zz => LegalLength cfg len ∧ ApartOrSame xx zz (2 * len) ∧ ApartOrSame yy zz (2 * len)
  | .subFromExt len x xOff zz zzOff => LegalLength cfg len ∧ zzOff ≤ len ∧ ApartOrSame (x + xOff) (zz + zzOff) len
  | .mulWordExt len _ y zz zzOff => LegalLength cfg len ∧ zzOff ≤ len ∧ Apart y len (zz + zzOff) len
  | .mulWordAddExt len _ y yyOff zz zzOff =>
      LegalLength cfg len ∧ zzOff ≤ len ∧ Apart (y + yyOff) len (zz + zzOff) len
  | .mulWordDwordAdd len _ _ _ zOff => LegalLength cfg len ∧ zOff + 3 ≤ len
  | .mul len x y zz => LegalLength cfg len ∧ Apart x len zz (2 * len) ∧ Apart y len zz (2 * len)
  | .squareWordAddExt len x xPos zz => LegalLength cfg len ∧ 0 < xPos ∧ xPos < len ∧ Apart x len zz (2 * len)
  | .square len x zz => LegalLength cfg len ∧ Apart x len zz (2 * len)
  | .shiftDownBit len x _ z => LegalLength cfg len ∧ ApartOrSame x z len
  | .shiftDownBits len x bits _ z => LegalLength cfg len ∧ 0 < bits ∧ bits < 32 ∧ ApartOrSame x z len
  | .shiftDownWord len x _ z => LegalLength cfg len ∧ ApartOrSame x z len
  | .shiftUpBit len x _ z => LegalLength cfg len ∧ ApartOrSame x z len
  | .gte len _ _ => LegalLength cfg len
  | .gteExt len _ _ => LegalLength cfg len
  | .getBit len _ _ => LegalLength cfg len
  | .inc len _ zOff => LegalLength cfg len ∧ zOff < len
  | .incExt len _ zzOff => LegalLength cfg len ∧ zzOff < 2 * len
  | .dec len _ zOff => LegalLength cfg len ∧ zOff < len

/-! ### Completion and frames -/

/-- The unit takes a command of length `len`: it is not halted, and P1 holds; the memory list is in its canonical form. -/
abbrev Accepts (s : State) (len : Nat) : Prop := s.fault = 0#4 ∧ s.mem.wf ∧ LegalLength s.cfg len

/-- The value held in the buffer at `lo` and, above it, the buffer at `hi`, of `len` words each (rule R135). -/
abbrev wideValue (m : Memory) (lo hi len : Nat) : Nat := m.val lo len + 2 ^ (32 * len) * m.val hi len

/-- The `n` words from `a` exist (rule R44). -/
abbrev Fits (s : State) (a n : Nat) : Prop := a + n ≤ s.cfg.memWords

/-- `t` is `s` but for `RET` and the `n` words of memory from `d`: the frame of a command that stores there. -/
def KeepsAllBut (d n : Nat) (s t : State) : Prop :=
  t.cfg = s.cfg ∧ t.fault = s.fault ∧ t.program = s.program ∧ t.k = s.k ∧
  ∀ q, ¬ Within d n q → t.mem.read q = s.mem.read q

/-- The command completes: it answers a next state, which differs from `s` at most in `RET` and the `n` words from `d`, and in
which `post` holds. -/
def CompletesOver (i : Instr) (s : State) (d n : Nat) (post : State → Prop) : Prop :=
  ∃ t, exec i s = .next t ∧ KeepsAllBut d n s t ∧ post t

/-- The command completes with `v` in `RET` and changes nothing else: the frame of a command that stores nothing. -/
def CompletesReading (i : Instr) (s : State) (v : Word) : Prop := exec i s = .next { s with ret := v }

end Sys2Proof.Machine
end

