-- ==== Sys2Proof/Certificates/Slice0/Obligations.lean ====
section
/-! DEFINITION. The statements for the provers. Each says which rule of spec/ it formalises. -/

open Sys2Proof Sys2Proof.Machine

/-! ### Reset, the invariant, the step -/

/-- Rule R191: the reset values are `RET = 0`, `FAULT = 0`, `k = 0`, `M` whatever it is. The rest is the model's choice: that the memory
after reset is an argument and that the configuration and the host's list of packets are kept is log entry 10, that `State.reset`
is one configuration with an empty memory list log entries 1 and 3. -/
def Obligations.ResetClearsTheResponseRegisters : Prop :=
  (∀ (m : Memory) (s : State),
    (hostReset m s).ret = 0#32 ∧ (hostReset m s).fault = 0#4 ∧ (hostReset m s).k = 0 ∧ (hostReset m s).mem = m ∧
      (hostReset m s).cfg = s.cfg ∧ (hostReset m s).program = s.program) ∧
  (∀ (cfg : Config) (m : Memory),
    (State.resetOf cfg m).ret = 0#32 ∧ (State.resetOf cfg m).fault = 0#4 ∧ (State.resetOf cfg m).k = 0 ∧
      (State.resetOf cfg m).mem = m) ∧
  State.reset.ret = 0#32 ∧ State.reset.fault = 0#4 ∧ State.reset.k = 0

/-- The invariant holds at reset, for the interface's reset state (its configuration and empty memory list are the model's choice,
log entries 1 and 3) and for every legal configuration and memory. -/
def Obligations.ResetMeetsTheInvariant : Prop :=
  State.reset.Inv ∧
  ∀ (cfg : Config) (m : Memory), cfg.Valid → m.wf → (∀ c ∈ m, c.1 < cfg.memWords) → (State.resetOf cfg m).Inv

/-- Every step keeps the invariant: the parameters legal, memory canonical and inside the address space, `FAULT` one of the four
codes ever written (rule R8, rule R25, rule R47). -/
def Obligations.StepKeepsTheInvariant : Prop :=
  ∀ s t : State, s.Inv → step s = .next t → t.Inv

/-- Every move of the host between commands keeps the invariant. -/
def Obligations.HostMovesKeepTheInvariant : Prop :=
  ∀ s : State, s.Inv →
    (∀ a v t, hostWrite a v s = .ok t → t.Inv) ∧
    (∀ p, (hostSend p s).Inv) ∧
    (∀ m : Memory, m.wf → (∀ c ∈ m, c.1 < s.cfg.memWords) → (hostReset m s).Inv) ∧
    (∀ len value a t, fromBigInteger len value a s = .ok t → t.Inv)

/-- Every reachable state of every legal configuration satisfies the invariant, and has a next one, unless it is a trusting unit's
(`CHECKED = false`) that is presented a command with a violated precondition (rule R174, rule R200). That a state with no
packet presented has a next one, itself, is the model's choice, log entry 5. -/
def Obligations.ReachableStatesAreLegalAndStopOnlyWhenTrusting : Prop :=
  ∀ s : State, Reachable s →
    s.Inv ∧
    ((∃ t, step s = .next t) ∨
      (s.cfg.checked = false ∧ s.fault = 0#4 ∧ step s = .refused .trustedPreconditionViolated ∧
        ∃ p i, s.program[s.k]? = some p ∧ decode p = .ok i ∧ ¬ Legal s.cfg i))

/-- A step runs the command the presented packet decodes to, and moves the model-level index on; with no packet presented the unit
is idle (log entry 5). -/
def Obligations.StepRunsTheDecodedCommand : Prop :=
  ∀ s : State,
    (∀ p i, s.program[s.k]? = some p → decode p = .ok i →
      (∀ t, exec i s = .next t → step s = .next { t with k := t.k + 1 }) ∧
      (∀ r, exec i s = .refused r → step s = .refused r)) ∧
    (s.program[s.k]? = none → step s = .next s)

/-- Rule R171, the order of checks: dropped when halted, then the opcode, the preconditions, the bounds, then the operation. -/
def Obligations.StepFollowsTheCheckOrder : Prop :=
  ∀ (s : State) (p : Packet), s.program[s.k]? = some p →
    (s.fault ≠ 0#4 → step s = .next { s with k := s.k + 1 }) ∧
    (s.fault = 0#4 →
      (∀ e, decode p = .error e → step s = .next { s with fault := 1#4, k := s.k + 1 }) ∧
      (∀ i, decode p = .ok i →
        (¬ Legal s.cfg i → s.cfg.checked = true → step s = .next { s with fault := 2#4, k := s.k + 1 }) ∧
        (¬ Legal s.cfg i → s.cfg.checked = false → step s = .refused .trustedPreconditionViolated) ∧
        (Legal s.cfg i → ¬ AllInside s.cfg i → step s = .next { s with fault := 3#4, k := s.k + 1 }) ∧
        (Legal s.cfg i → AllInside s.cfg i →
          ∃ t, exec i s = .next t ∧ step s = .next { t with k := s.k + 1 } ∧ t.fault = 0#4)))

/-- Rule R173, rule R174, rule R176, rule R178 for each command: a violated precondition faults in a checking unit and is refused
in a trusting one, before the bounds are looked at; then a region outside memory faults. -/
def Obligations.CommandsAreCheckedBeforeTheyRun : Prop :=
  ∀ (i : Instr) (s : State), s.fault = 0#4 →
    (¬ Legal s.cfg i → s.cfg.checked = true → exec i s = .next { s with fault := 2#4 }) ∧
    (¬ Legal s.cfg i → s.cfg.checked = false → exec i s = .refused .trustedPreconditionViolated) ∧
    (Legal s.cfg i → ¬ AllInside s.cfg i → exec i s = .next { s with fault := 3#4 })

/-- Rule R177: until reset, whatever the unit is presented and whatever the host does, `FAULT` and `RET` keep their values and a step
changes no state but the index, so only the host changes `M`; any number of steps keeps `M`, `RET` and `FAULT`; reset clears
`FAULT`. That a step is still a next state when no packet is left is the model's choice, log entry 5. -/
def Obligations.HaltedUnitStaysHaltedUntilReset : Prop :=
  ∀ s : State, s.fault ≠ 0#4 →
    (∀ t, UntilReset s t → t.fault = s.fault ∧ t.ret = s.ret ∧
      (step t = .next { t with k := t.k + 1 } ∨ t.program[t.k]? = none ∧ step t = .next t)) ∧
    (∀ n : Nat, ∃ t : State, Sys2Proof.core.run n s = .next t ∧ t.mem = s.mem ∧ t.ret = s.ret ∧ t.fault = s.fault) ∧
    (∀ m : Memory, (hostReset m s).fault = 0#4)

/-- Rule R172, rule R64: a packet whose field OP is none of the 31 opcodes of rule R63, as a 32-bit number, faults with F_ILLOP. -/
def Obligations.ReservedEncodingsFault : Prop :=
  ∀ (s : State) (p : Packet), s.program[s.k]? = some p → s.fault = 0#4 →
    p.op.toNat ∉ [0x01, 0x02, 0x03, 0x04, 0x05, 0x06, 0x10, 0x11, 0x12, 0x13, 0x14, 0x18, 0x19, 0x1A, 0x1B,
      0x20, 0x21, 0x22, 0x23, 0x24, 0x25, 0x30, 0x31, 0x32, 0x33, 0x40, 0x41, 0x42, 0x43, 0x44, 0x45] →
    step s = .next { s with fault := 1#4, k := s.k + 1 }

/-- Rule R175: a step that changes `FAULT` changes nothing else of the unit, and records one of the three codes in a unit that had
none; every other step leaves `FAULT` as it was. -/
def Obligations.FaultEntryChangesOnlyFault : Prop :=
  ∀ s t : State, step s = .next t → t.fault ≠ s.fault →
    s.fault = 0#4 ∧ (t.fault = 1#4 ∨ t.fault = 2#4 ∨ t.fault = 3#4) ∧
      t.mem = s.mem ∧ t.ret = s.ret ∧ t.cfg = s.cfg ∧ t.program = s.program ∧ t.k = s.k + 1

/-- Rule R200: every command ends. A unit that checks preconditions always has a next state; a step that is refused is a trusting
unit's, on a violated precondition (rule R174), and no step stops otherwise. That a step with no packet presented has a next
state, the same one, is the model's choice, log entry 5. -/
def Obligations.EveryStepEnds : Prop :=
  ∀ s : State,
    (s.cfg.checked = true → ∃ t, step s = .next t) ∧
    (∀ r, step s = .refused r →
      s.fault = 0#4 ∧ s.cfg.checked = false ∧ r = .trustedPreconditionViolated ∧
        ∃ p i, s.program[s.k]? = some p ∧ decode p = .ok i ∧ ¬ Legal s.cfg i)

/-! ### Encoding -/

/-- Every well-formed command comes back from the 352 bits of its packet, every operand at every value (rule R60 to rule R67). -/
def Obligations.DecodeInvertsEncode : Prop :=
  ∀ i : Instr, i.wellFormed = true → decodeTableWord 352 (encode i).toBits = some i

/-- What the decoder accepts is well-formed, and re-encodes to a packet with the same OP and LEN that means the same command. -/
def Obligations.DecodedCommandsReencode : Prop :=
  ∀ (p : Packet) (i : Instr), decode p = .ok i →
    i.wellFormed = true ∧ decode (encode i) = .ok i ∧ (encode i).op = p.op ∧ (encode i).len = p.len

/-- Rule R60: the eleven fields and the 352 bits of a packet determine each other. -/
def Obligations.PacketBitsAndFieldsAgree : Prop :=
  (∀ p : Packet, p.toBits < 2 ^ 352 ∧ Packet.ofBits p.toBits = p) ∧
  (∀ w : Nat, w < 2 ^ 352 → (Packet.ofBits w).toBits = w)

/-- Rule R63: the opcode map, OP as a 32-bit number: every one of the 31 values is the opcode of a command, and of the command the
table names. -/
def Obligations.OpcodeMapIsTheTable : Prop :=
  (∀ p : Packet,
    p.op.toNat ∈ [0x01, 0x02, 0x03, 0x04, 0x05, 0x06, 0x10, 0x11, 0x12, 0x13, 0x14, 0x18, 0x19, 0x1A, 0x1B,
      0x20, 0x21, 0x22, 0x23, 0x24, 0x25, 0x30, 0x31, 0x32, 0x33, 0x40, 0x41, 0x42, 0x43, 0x44, 0x45] →
    ∃ i, decode p = .ok i) ∧
  ∀ (p : Packet) (i : Instr), decode p = .ok i →
    p.op.toNat =
      match i with
      | .create _ _ => 0x01
      | .createExt _ _ => 0x02
      | .zero _ _ => 0x03
      | .isZero _ _ => 0x04
      | .isZeroExt _ _ => 0x05
      | .isOne _ _ => 0x06
      | .add _ _ _ _ => 0x10
      | .addBothTo _ _ _ _ => 0x11
      | .addExt _ _ _ _ => 0x12
      | .addToExt _ _ _ _ _ => 0x13
      | .addWordExt _ _ _ _ => 0x14
      | .sub _ _ _ _ => 0x18
      | .subBothFrom _ _ _ _ => 0x19
      | .subExt _ _ _ _ => 0x1A
      | .subFromExt _ _ _ _ _ => 0x1B
      | .mulWordExt _ _ _ _ _ => 0x20
      | .mulWordAddExt _ _ _ _ _ _ => 0x21
      | .mulWordDwordAdd _ _ _ _ _ => 0x22
      | .mul _ _ _ _ => 0x23
      | .squareWordAddExt _ _ _ _ => 0x24
      | .square _ _ _ => 0x25
      | .shiftDownBit _ _ _ _ => 0x30
      | .shiftDownBits _ _ _ _ _ => 0x31
      | .shiftDownWord _ _ _ _ => 0x32
      | .shiftUpBit _ _ _ _ => 0x33
      | .gte _ _ _ => 0x40
      | .gteExt _ _ _ => 0x41
      | .getBit _ _ _ => 0x42
      | .inc _ _ _ => 0x43
      | .incExt _ _ _ => 0x44
      | .dec _ _ _ => 0x45

/-- Rule R62 and rule R65: two packets that agree on OP, LEN and the fields rule R62 names for the command decode alike, whatever
their other fields hold. -/
def Obligations.UnusedFieldsAreIgnored : Prop :=
  ∀ (p q : Packet) (i : Instr), decode p = .ok i → q.op = p.op → q.len = p.len →
    (match i with
      | .create _ _ => q.za = p.za
      | .createExt _ _ => q.za = p.za
      | .zero _ _ => q.za = p.za
      | .isZero _ _ => q.xa = p.xa
      | .isZeroExt _ _ => q.xa = p.xa
      | .isOne _ _ => q.xa = p.xa
      | .add _ _ _ _ => q.xa = p.xa ∧ q.ya = p.ya ∧ q.za = p.za
      | .addBothTo _ _ _ _ => q.xa = p.xa ∧ q.ya = p.ya ∧ q.za = p.za
      | .addExt _ _ _ _ => q.xa = p.xa ∧ q.ya = p.ya ∧ q.za = p.za
      | .addToExt _ _ _ _ _ => q.xa = p.xa ∧ q.xoff = p.xoff ∧ q.za = p.za ∧ q.zoff = p.zoff
      | .addWordExt _ _ _ _ => q.za = p.za ∧ q.zoff = p.zoff ∧ q.s0 = p.s0
      | .sub _ _ _ _ => q.xa = p.xa ∧ q.ya = p.ya ∧ q.za = p.za
      | .subBothFrom _ _ _ _ => q.xa = p.xa ∧ q.ya = p.ya ∧ q.za = p.za
      | .subExt _ _ _ _ => q.xa = p.xa ∧ q.ya = p.ya ∧ q.za = p.za
      | .subFromExt _ _ _ _ _ => q.xa = p.xa ∧ q.xoff = p.xoff ∧ q.za = p.za ∧ q.zoff = p.zoff
      | .mulWordExt _ _ _ _ _ => q.ya = p.ya ∧ q.za = p.za ∧ q.zoff = p.zoff ∧ q.s0 = p.s0
      | .mulWordAddExt _ _ _ _ _ _ =>
          q.ya = p.ya ∧ q.yoff = p.yoff ∧ q.za = p.za ∧ q.zoff = p.zoff ∧ q.s0 = p.s0
      | .mulWordDwordAdd _ _ _ _ _ =>
          q.za = p.za ∧ q.zoff = p.zoff ∧ q.s0 = p.s0 ∧ q.s1 = p.s1 ∧ q.s2 = p.s2
      | .mul _ _ _ _ => q.xa = p.xa ∧ q.ya = p.ya ∧ q.za = p.za
      | .squareWordAddExt _ _ _ _ => q.xa = p.xa ∧ q.xoff = p.xoff ∧ q.za = p.za
      | .square _ _ _ => q.xa = p.xa ∧ q.za = p.za
      | .shiftDownBit _ _ _ _ => q.xa = p.xa ∧ q.za = p.za ∧ q.s0 = p.s0
      | .shiftDownBits _ _ _ _ _ => q.xa = p.xa ∧ q.za = p.za ∧ q.s0 = p.s0 ∧ q.s1 = p.s1
      | .shiftDownWord _ _ _ _ => q.xa = p.xa ∧ q.za = p.za ∧ q.s0 = p.s0
      | .shiftUpBit _ _ _ _ => q.xa = p.xa ∧ q.za = p.za ∧ q.s0 = p.s0
      | .gte _ _ _ => q.xa = p.xa ∧ q.ya = p.ya
      | .gteExt _ _ _ => q.xa = p.xa ∧ q.ya = p.ya
      | .getBit _ _ _ => q.xa = p.xa ∧ q.s0 = p.s0
      | .inc _ _ _ => q.za = p.za ∧ q.zoff = p.zoff
      | .incExt _ _ _ => q.za = p.za ∧ q.zoff = p.zoff
      | .dec _ _ _ => q.za = p.za ∧ q.zoff = p.zoff) →
    decode q = .ok i

/-- The packets rule R68 writes out, each read from its eleven words. -/
def Obligations.SpecPacketsDecode : Prop :=
  decode ⟨0x10#32, 2#32, 0x100#32, 0#32, 0x102#32, 0#32, 0x104#32, 0#32, 0#32, 0#32, 0#32⟩ =
      .ok (.add 2 0x100 0x102 0x104) ∧
  decode ⟨0x21#32, 4#32, 0#32, 0#32, 0x110#32, 0#32, 0x200#32, 3#32, 0x89ABCDEF#32, 0#32, 0#32⟩ =
      .ok (.mulWordAddExt 4 0x89ABCDEF#32 0x110 0 0x200 3) ∧
  decode ⟨0x22#32, 4#32, 0#32, 0#32, 0#32, 0#32, 0x120#32, 1#32, 3#32, 2#32, 1#32⟩ =
      .ok (.mulWordDwordAdd 4 3#32 0x0000000100000002#64 0x120 1) ∧
  decode ⟨0x31#32, 2#32, 0x100#32, 0#32, 0#32, 0#32, 0x108#32, 0#32, 0xA#32, 4#32, 0#32⟩ =
      .ok (.shiftDownBits 2 0x100 4 0xA#32 0x108) ∧
  decode ⟨0x42#32, 2#32, 0x100#32, 0#32, 0#32, 0#32, 0#32, 0#32, 0x21#32, 0#32, 0#32⟩ =
      .ok (.getBit 2 0x100 0x21#32)

/-- Rule R68: the line a command is written as assembles to that command, and to its packet when the packet can carry it. -/
def Obligations.AssemblerReadsItsOwnListing : Prop :=
  ∀ i : Instr, assembleLine (disassemble i) = some i ∧
    (i.wellFormed = true → assemble (disassemble i) = some (encode i))

/-- Rule R69: the single-buffer shifts are the two-buffer commands with source and destination the same buffer. -/
def Obligations.SingleBufferShiftsExpand : Prop :=
  ∀ (len z bits c : Nat),
    assemble ⟨.shiftDownBit, [.number len, .buffer z, .scalar c]⟩ =
      assemble ⟨.shiftDownBit, [.number len, .buffer z, .scalar c, .buffer z]⟩ ∧
    assemble ⟨.shiftDownBits, [.number len, .buffer z, .number bits, .scalar c]⟩ =
      assemble ⟨.shiftDownBits, [.number len, .buffer z, .number bits, .scalar c, .buffer z]⟩ ∧
    assemble ⟨.shiftDownWord, [.number len, .buffer z, .scalar c]⟩ =
      assemble ⟨.shiftDownWord, [.number len, .buffer z, .scalar c, .buffer z]⟩ ∧
    assemble ⟨.shiftUpBit, [.number len, .buffer z, .scalar c]⟩ =
      assemble ⟨.shiftUpBit, [.number len, .buffer z, .scalar c, .buffer z]⟩

/-! ### Buffer primitives -/

/-- Rule R81 and rule R83: `create` and `zero` write zero to `len` words and nothing else, and return 0. -/
def Obligations.CreateAndZeroFillWithZero : Prop :=
  ∀ (s : State) (len z : Nat), Accepts s len → Fits s z len →
    ∀ i, i = Instr.create len z ∨ i = Instr.zero len z →
      CompletesOver i s z len (fun t => t.ret = 0#32 ∧ t.mem.val z len = 0)

/-- Rule R82: `createExt` writes zero to `2·len` words. -/
def Obligations.CreateExtFillsBothHalves : Prop :=
  ∀ (s : State) (len zz : Nat), Accepts s len → Fits s zz (2 * len) →
    CompletesOver (.createExt len zz) s zz (2 * len) (fun t => t.ret = 0#32 ∧ t.mem.val zz (2 * len) = 0)

/-- Rule R84 and rule R85: the zero tests. -/
def Obligations.ZeroTestsReadTheValue : Prop :=
  ∀ (s : State) (len x : Nat), Accepts s len →
    (Fits s x len → CompletesReading (.isZero len x) s (if s.mem.val x len = 0 then 1#32 else 0#32)) ∧
    (Fits s x (2 * len) →
      CompletesReading (.isZeroExt len x) s (if s.mem.val x (2 * len) = 0 then 1#32 else 0#32))

/-- Rule R86: `isOne`. -/
def Obligations.IsOneReadsTheValue : Prop :=
  ∀ (s : State) (len x : Nat), Accepts s len → Fits s x len →
    CompletesReading (.isOne len x) s (if s.mem.val x len = 1 then 1#32 else 0#32)

/-! ### Adder -/

/-- Rule R91: `add`, exact, with every allowed alias. -/
def Obligations.AddIsExact : Prop :=
  ∀ (s : State) (len x y z : Nat), Accepts s len → Fits s x len → Fits s y len → Fits s z len →
    ApartOrSame x z len → ApartOrSame y z len →
    CompletesOver (.add len x y z) s z len (fun t =>
      t.ret.toNat ≤ 1 ∧ t.mem.val z len + t.ret.toNat * 2 ^ (32 * len) = s.mem.val x len + s.mem.val y len)

/-- Rule R92: `addBothTo`, whose carry can be 2. -/
def Obligations.AddBothToIsExact : Prop :=
  ∀ (s : State) (len x y z : Nat), Accepts s len → Fits s x len → Fits s y len → Fits s z len →
    ApartOrSame x z len → ApartOrSame y z len →
    CompletesOver (.addBothTo len x y z) s z len (fun t =>
      t.ret.toNat ≤ 2 ∧
        t.mem.val z len + t.ret.toNat * 2 ^ (32 * len) = s.mem.val x len + s.mem.val y len + s.mem.val z len)

/-- Rule R93: `addExt` over `2·len` words. -/
def Obligations.AddExtIsExact : Prop :=
  ∀ (s : State) (len xx yy zz : Nat), Accepts s len → Fits s xx (2 * len) → Fits s yy (2 * len) →
    Fits s zz (2 * len) → ApartOrSame xx zz (2 * len) → ApartOrSame yy zz (2 * len) →
    CompletesOver (.addExt len xx yy zz) s zz (2 * len) (fun t =>
      t.ret.toNat ≤ 1 ∧
        t.mem.val zz (2 * len) + t.ret.toNat * 2 ^ (64 * len) = s.mem.val xx (2 * len) + s.mem.val yy (2 * len))

/-- Rule R94: `addToExt` adds into the window at `zzOff` and returns the window's carry. -/
def Obligations.AddToExtIsExact : Prop :=
  ∀ (s : State) (len x xOff zz zzOff : Nat), Accepts s len → zzOff ≤ len → Fits s (x + xOff) len →
    Fits s (zz + zzOff) len → ApartOrSame (x + xOff) (zz + zzOff) len →
    CompletesOver (.addToExt len x xOff zz zzOff) s (zz + zzOff) len (fun t =>
      t.ret.toNat ≤ 1 ∧
        t.mem.val (zz + zzOff) len + t.ret.toNat * 2 ^ (32 * len) =
          s.mem.val (x + xOff) len + s.mem.val (zz + zzOff) len)

/-- Rule R95: `addWordExt`, the carry rippling to the top of the extended buffer; words below `zzOff` are untouched. -/
def Obligations.AddWordExtIsExact : Prop :=
  ∀ (s : State) (len : Nat) (x : Word) (zz zzOff : Nat), Accepts s len → zzOff ≤ 2 * len - 1 → Fits s zz (2 * len) →
    CompletesOver (.addWordExt len x zz zzOff) s (zz + zzOff) (2 * len - zzOff) (fun t =>
      t.ret.toNat ≤ 1 ∧
        t.mem.val zz (2 * len) + t.ret.toNat * 2 ^ (64 * len) =
          s.mem.val zz (2 * len) + x.toNat * 2 ^ (32 * zzOff))

/-! ### Subtractor -/

/-- Rule R97: `sub`, exact with the signed borrow; the borrow says whether `X < Y`. -/
def Obligations.SubIsExact : Prop :=
  ∀ (s : State) (len x y z : Nat), Accepts s len → Fits s x len → Fits s y len → Fits s z len →
    ApartOrSame x z len → ApartOrSame y z len →
    CompletesOver (.sub len x y z) s z len (fun t =>
      (t.ret = 0#32 ∨ t.ret = 0xFFFFFFFF#32) ∧
      (t.mem.val z len : Int) + s32 t.ret * 2 ^ (32 * len) = (s.mem.val x len : Int) - s.mem.val y len ∧
      (t.ret = 0xFFFFFFFF#32 ↔ s.mem.val x len < s.mem.val y len))

/-- Rule R98: `subBothFrom`, whose borrow can be −2. -/
def Obligations.SubBothFromIsExact : Prop :=
  ∀ (s : State) (len x y z : Nat), Accepts s len → Fits s x len → Fits s y len → Fits s z len →
    ApartOrSame x z len → ApartOrSame y z len →
    CompletesOver (.subBothFrom len x y z) s z len (fun t =>
      (t.ret = 0#32 ∨ t.ret = 0xFFFFFFFF#32 ∨ t.ret = 0xFFFFFFFE#32) ∧
      (t.mem.val z len : Int) + s32 t.ret * 2 ^ (32 * len) =
        (s.mem.val z len : Int) - s.mem.val x len - s.mem.val y len)

/-- Rule R99: `subExt` over `2·len` words. -/
def Obligations.SubExtIsExact : Prop :=
  ∀ (s : State) (len xx yy zz : Nat), Accepts s len → Fits s xx (2 * len) → Fits s yy (2 * len) →
    Fits s zz (2 * len) → ApartOrSame xx zz (2 * len) → ApartOrSame yy zz (2 * len) →
    CompletesOver (.subExt len xx yy zz) s zz (2 * len) (fun t =>
      (t.ret = 0#32 ∨ t.ret = 0xFFFFFFFF#32) ∧
      (t.mem.val zz (2 * len) : Int) + s32 t.ret * 2 ^ (64 * len) =
        (s.mem.val xx (2 * len) : Int) - s.mem.val yy (2 * len))

/-- Rule R100: `subFromExt` subtracts from the window at `zzOff` and returns the window's borrow. -/
def Obligations.SubFromExtIsExact : Prop :=
  ∀ (s : State) (len x xOff zz zzOff : Nat), Accepts s len → zzOff ≤ len → Fits s (x + xOff) len →
    Fits s (zz + zzOff) len → ApartOrSame (x + xOff) (zz + zzOff) len →
    CompletesOver (.subFromExt len x xOff zz zzOff) s (zz + zzOff) len (fun t =>
      (t.ret = 0#32 ∨ t.ret = 0xFFFFFFFF#32) ∧
      (t.mem.val (zz + zzOff) len : Int) + s32 t.ret * 2 ^ (32 * len) =
        (s.mem.val (zz + zzOff) len : Int) - s.mem.val (x + xOff) len)

/-! ### Multiply and square -/

/-- Rule R111: `mulWordExt`, the window overwritten, the top word of the product returned. -/
def Obligations.MulWordExtIsExact : Prop :=
  ∀ (s : State) (len : Nat) (x : Word) (y zz zzOff : Nat), Accepts s len → zzOff ≤ len → Fits s y len →
    Fits s (zz + zzOff) len → Apart y len (zz + zzOff) len →
    CompletesOver (.mulWordExt len x y zz zzOff) s (zz + zzOff) len (fun t =>
      t.ret.toNat ≤ 2 ^ 32 - 2 ∧
        t.mem.val (zz + zzOff) len + t.ret.toNat * 2 ^ (32 * len) = x.toNat * s.mem.val y len)

/-- Rule R112: `mulWordAddExt`, the product added into the window. -/
def Obligations.MulWordAddExtIsExact : Prop :=
  ∀ (s : State) (len : Nat) (x : Word) (y yyOff zz zzOff : Nat), Accepts s len → zzOff ≤ len →
    Fits s (y + yyOff) len → Fits s (zz + zzOff) len → Apart (y + yyOff) len (zz + zzOff) len →
    CompletesOver (.mulWordAddExt len x y yyOff zz zzOff) s (zz + zzOff) len (fun t =>
      t.mem.val (zz + zzOff) len + t.ret.toNat * 2 ^ (32 * len) =
        s.mem.val (zz + zzOff) len + x.toNat * s.mem.val (y + yyOff) len)

/-- Rule R113: `mulWordDwordAdd` adds the whole 96-bit product at `zOff`, the carry rippling to the top of `z`. -/
def Obligations.MulWordDwordAddIsExact : Prop :=
  ∀ (s : State) (len : Nat) (x : Word) (y64 : BitVec 64) (z zOff : Nat), Accepts s len → zOff + 3 ≤ len →
    Fits s z len →
    CompletesOver (.mulWordDwordAdd len x y64 z zOff) s (z + zOff) (len - zOff) (fun t =>
      t.ret.toNat ≤ 1 ∧
        t.mem.val z len + t.ret.toNat * 2 ^ (32 * len) =
          s.mem.val z len + x.toNat * y64.toNat * 2 ^ (32 * zOff))

/-- Rule R114: `mul` leaves the exact double-width product; `x` and `y` may be the same buffer. -/
def Obligations.MulIsExact : Prop :=
  ∀ (s : State) (len x y zz : Nat), Accepts s len → Fits s x len → Fits s y len → Fits s zz (2 * len) →
    Apart x len zz (2 * len) → Apart y len zz (2 * len) →
    CompletesOver (.mul len x y zz) s zz (2 * len) (fun t =>
      t.ret = 0#32 ∧ t.mem.val zz (2 * len) = s.mem.val x len * s.mem.val y len)

/-- Rule R115: `squareWordAddExt` adds `x[xPos] · x[0 .. xPos)` at `zz[xPos ..]` over `xPos` words. -/
def Obligations.SquareWordAddExtIsExact : Prop :=
  ∀ (s : State) (len x xPos zz : Nat), Accepts s len → 0 < xPos → xPos < len → Fits s x len →
    Fits s zz (2 * len) → Apart x len zz (2 * len) →
    CompletesOver (.squareWordAddExt len x xPos zz) s (zz + xPos) xPos (fun t =>
      t.mem.val (zz + xPos) xPos + t.ret.toNat * 2 ^ (32 * xPos) =
        s.mem.val (zz + xPos) xPos + (s.mem.read (x + xPos)).toNat * s.mem.val x xPos)

/-- Rule R116: `square` leaves the exact double-width square. -/
def Obligations.SquareIsExact : Prop :=
  ∀ (s : State) (len x zz : Nat), Accepts s len → Fits s x len → Fits s zz (2 * len) → Apart x len zz (2 * len) →
    CompletesOver (.square len x zz) s zz (2 * len) (fun t =>
      t.ret = 0#32 ∧ t.mem.val zz (2 * len) = s.mem.val x len * s.mem.val x len)

/-- Rule R116, "the key correctness property": `mul` with both sources `x` and `square` are the same command, in every state whose
memory is canonical, the halted, faulting and refused ones too. -/
def Obligations.SquareEqualsMul : Prop :=
  ∀ (s : State) (len x zz : Nat), s.mem.wf → exec (.square len x zz) s = exec (.mul len x x zz) s

/-! ### Shifts -/

/-- Rule R131: `shiftDownBit`. -/
def Obligations.ShiftDownBitHalves : Prop :=
  ∀ (s : State) (len x : Nat) (c : Word) (z : Nat), Accepts s len → Fits s x len → Fits s z len →
    ApartOrSame x z len →
    CompletesOver (.shiftDownBit len x c z) s z len (fun t =>
      t.mem.val z len = (s.mem.val x len + c.toNat % 2 * 2 ^ (32 * len)) / 2 ∧
      t.ret.toNat = s.mem.val x len % 2 * 2 ^ 31)

/-- Rule R132: `shiftDownBits` for each shift amount 1 to 31. -/
def Obligations.ShiftDownBitsDivides : Prop :=
  ∀ (s : State) (len x bits : Nat) (c : Word) (z : Nat), Accepts s len → 0 < bits → bits < 32 → Fits s x len →
    Fits s z len → ApartOrSame x z len →
    CompletesOver (.shiftDownBits len x bits c z) s z len (fun t =>
      t.mem.val z len = (s.mem.val x len + c.toNat % 2 ^ bits * 2 ^ (32 * len)) / 2 ^ bits ∧
      t.ret.toNat = s.mem.val x len % 2 ^ bits * 2 ^ (32 - bits))

/-- Rule R133: `shiftDownWord`, word by word and as a value. -/
def Obligations.ShiftDownWordMovesWords : Prop :=
  ∀ (s : State) (len x : Nat) (c : Word) (z : Nat), Accepts s len → Fits s x len → Fits s z len →
    ApartOrSame x z len →
    CompletesOver (.shiftDownWord len x c z) s z len (fun t =>
      t.mem.read (z + (len - 1)) = c ∧
      (∀ i, i + 1 < len → t.mem.read (z + i) = s.mem.read (x + (i + 1))) ∧
      t.ret = s.mem.read x ∧
      t.mem.val z len = (s.mem.val x len + c.toNat * 2 ^ (32 * len)) / 2 ^ 32 ∧
      t.ret.toNat = s.mem.val x len % 2 ^ 32)

/-- Rule R134: `shiftUpBit`. -/
def Obligations.ShiftUpBitDoubles : Prop :=
  ∀ (s : State) (len x : Nat) (c : Word) (z : Nat), Accepts s len → Fits s x len → Fits s z len →
    ApartOrSame x z len →
    CompletesOver (.shiftUpBit len x c z) s z len (fun t =>
      t.ret.toNat = (s.mem.read (x + (len - 1))).toNat / 2 ^ 31 ∧
      t.mem.val z len + t.ret.toNat * 2 ^ (32 * len) = 2 * s.mem.val x len + c.toNat / 2 ^ 31)

/-- Rule R136, the round-trip law the spec derives from rule R131 and rule R134, both ways: the buffer (all of memory) is back and the bit shifted in comes out where it came
from. -/
def Obligations.ShiftsRoundTrip : Prop :=
  ∀ (s : State) (len z : Nat) (c : Word), Accepts s len → Fits s z len →
    (∃ s1 s2, exec (.shiftUpBit len z c z) s = .next s1 ∧ exec (.shiftDownBit len z s1.ret z) s1 = .next s2 ∧
      s2.mem = s.mem ∧ s2.ret = c &&& 0x80000000#32) ∧
    (∃ s1 s2, exec (.shiftDownBit len z c z) s = .next s1 ∧ exec (.shiftUpBit len z s1.ret z) s1 = .next s2 ∧
      s2.mem = s.mem ∧ s2.ret = c &&& 1#32)

/-! ### Comparison, increment, decrement -/

/-- Rule R140 and rule R141: the comparisons. -/
def Obligations.ComparisonsOrderTheValues : Prop :=
  ∀ (s : State) (len x y : Nat), Accepts s len →
    (Fits s x len → Fits s y len →
      CompletesReading (.gte len x y) s (if s.mem.val y len ≤ s.mem.val x len then 1#32 else 0#32)) ∧
    (Fits s x (2 * len) → Fits s y (2 * len) →
      CompletesReading (.gteExt len x y) s
        (if s.mem.val y (2 * len) ≤ s.mem.val x (2 * len) then 1#32 else 0#32))

/-- Rule R142: `getBit`, for every 32-bit index. -/
def Obligations.GetBitReadsTheValue : Prop :=
  ∀ (s : State) (len x : Nat) (bit : Word), Accepts s len → Fits s x len →
    CompletesReading (.getBit len x bit) s
      (if bit.toNat < 32 * len then BitVec.ofNat 32 (s.mem.val x len / 2 ^ bit.toNat % 2) else 0#32)

/-- Rule R144: `inc`; words below `zOff` are untouched. -/
def Obligations.IncIsExact : Prop :=
  ∀ (s : State) (len z zOff : Nat), Accepts s len → zOff < len → Fits s z len →
    CompletesOver (.inc len z zOff) s (z + zOff) (len - zOff) (fun t =>
      (t.ret = 0#32 ∨ t.ret = 1#32) ∧
      t.mem.val z len + t.ret.toNat * 2 ^ (32 * len) = s.mem.val z len + 2 ^ (32 * zOff))

/-- Rule R145: `incExt`, the top at `2·len`. -/
def Obligations.IncExtIsExact : Prop :=
  ∀ (s : State) (len zz zzOff : Nat), Accepts s len → zzOff < 2 * len → Fits s zz (2 * len) →
    CompletesOver (.incExt len zz zzOff) s (zz + zzOff) (2 * len - zzOff) (fun t =>
      (t.ret = 0#32 ∨ t.ret = 1#32) ∧
      t.mem.val zz (2 * len) + t.ret.toNat * 2 ^ (64 * len) = s.mem.val zz (2 * len) + 2 ^ (32 * zzOff))

/-- Rule R146: `dec`. -/
def Obligations.DecIsExact : Prop :=
  ∀ (s : State) (len z zOff : Nat), Accepts s len → zOff < len → Fits s z len →
    CompletesOver (.dec len z zOff) s (z + zOff) (len - zOff) (fun t =>
      (t.ret = 0#32 ∨ t.ret = 0xFFFFFFFF#32) ∧
      (t.mem.val z len : Int) + s32 t.ret * 2 ^ (32 * len) = (s.mem.val z len : Int) - 2 ^ (32 * zOff))

/-! ### Laws that tie commands together -/

/-- Rule R101, the inverse law the spec derives from rule R91 and rule R97: `add` then `sub` of the same `y` (not overwritten by the `add`) recovers `x`, and the borrow is minus
the carry. -/
def Obligations.SubUndoesAdd : Prop :=
  ∀ (s : State) (len x y t u : Nat), Accepts s len → Fits s x len → Fits s y len → Fits s t len → Fits s u len →
    ApartOrSame x t len → Apart y len t len → ApartOrSame t u len → ApartOrSame y u len →
    ∃ s1 s2, exec (.add len x y t) s = .next s1 ∧ exec (.sub len t y u) s1 = .next s2 ∧
      s2.mem.val u len = s.mem.val x len ∧ s32 s2.ret = -(s1.ret.toNat : Int)

/-- Rule R147, which the spec derives from rule R143, rule R140, rule R91 and rule R97: `inc` then `dec` restores memory with the negated return value; `inc` at offset 0 is `add` of the magnitude 1; `gte`
is 1 exactly when `sub` borrows nothing. -/
def Obligations.IncrementAndCompareLaws : Prop :=
  ∀ (s : State) (len : Nat), Accepts s len →
    (∀ z zOff, zOff < len → Fits s z len →
      ∃ s1 s2, exec (.inc len z zOff) s = .next s1 ∧ exec (.dec len z zOff) s1 = .next s2 ∧
        s2.mem = s.mem ∧ s2.ret = lo32 (-(s1.ret.toNat : Int))) ∧
    (∀ z y, Fits s z len → Fits s y len → ApartOrSame y z len → s.mem.val y len = 1 →
      exec (.inc len z 0) s = exec (.add len z y z) s) ∧
    (∀ x y t, Fits s x len → Fits s y len → Fits s t len → ApartOrSame x t len → ApartOrSame y t len →
      ∃ s1 s2, exec (.gte len x y) s = .next s1 ∧ exec (.sub len x y t) s = .next s2 ∧
        (s1.ret = 1#32 ↔ s2.ret = 0#32))

/-- Rule R193, its last paragraph: the in-place results when the destination is both sources. -/
def Obligations.InPlaceForms : Prop :=
  ∀ (s : State) (len x : Nat), Accepts s len → Fits s x len →
    CompletesOver (.add len x x x) s x len (fun t =>
      t.mem.val x len + t.ret.toNat * 2 ^ (32 * len) = 2 * s.mem.val x len) ∧
    CompletesOver (.sub len x x x) s x len (fun t => t.mem.val x len = 0 ∧ t.ret = 0#32) ∧
    CompletesOver (.addBothTo len x x x) s x len (fun t =>
      t.mem.val x len + t.ret.toNat * 2 ^ (32 * len) = 3 * s.mem.val x len)

/-- Rule R135 over two buffers that do not overlap, `b0` the lower and `b1` the higher, wherever they lie. Down by `bits` or by one bit:
`b1` first and then `b0`, its carry-in the realigned `RET` or, equivalently, the old word `b1[0]`. Down by a word: the same
order, the carry passed on unchanged. Up by one bit: `b0` first and then `b1`, the returned bit moved to bit 31. Each pair of
commands is the shift of the wide value. -/
def Obligations.ChainedShiftsShiftTheWideValue : Prop :=
  ∀ (s : State) (len b0 b1 : Nat) (c : Word), Accepts s len → Fits s b0 len → Fits s b1 len → Apart b0 len b1 len →
    (∀ bits, 0 < bits → bits < 32 →
      ∃ s1 s2, exec (.shiftDownBits len b1 bits c b1) s = .next s1 ∧
        exec (.shiftDownBits len b0 bits (shr s1.ret (32 - bits)) b0) s1 = .next s2 ∧
        exec (.shiftDownBits len b0 bits (s.mem.read b1) b0) s1 = .next s2 ∧
        wideValue s2.mem b0 b1 len =
          (wideValue s.mem b0 b1 len + c.toNat % 2 ^ bits * 2 ^ (64 * len)) / 2 ^ bits ∧
        s2.ret.toNat = wideValue s.mem b0 b1 len % 2 ^ bits * 2 ^ (32 - bits)) ∧
    (∃ s1 s2, exec (.shiftDownBit len b1 c b1) s = .next s1 ∧
      exec (.shiftDownBit len b0 (shr s1.ret 31) b0) s1 = .next s2 ∧
      exec (.shiftDownBit len b0 (s.mem.read b1) b0) s1 = .next s2 ∧
      wideValue s2.mem b0 b1 len = (wideValue s.mem b0 b1 len + c.toNat % 2 * 2 ^ (64 * len)) / 2 ∧
      s2.ret.toNat = wideValue s.mem b0 b1 len % 2 * 2 ^ 31) ∧
    (∃ s1 s2, exec (.shiftDownWord len b1 c b1) s = .next s1 ∧
      exec (.shiftDownWord len b0 s1.ret b0) s1 = .next s2 ∧
      wideValue s2.mem b0 b1 len = (wideValue s.mem b0 b1 len + c.toNat * 2 ^ (64 * len)) / 2 ^ 32 ∧
      s2.ret.toNat = wideValue s.mem b0 b1 len % 2 ^ 32) ∧
    (∃ s1 s2, exec (.shiftUpBit len b0 c b0) s = .next s1 ∧
      exec (.shiftUpBit len b1 (shl s1.ret 31) b1) s1 = .next s2 ∧
      wideValue s2.mem b0 b1 len + s2.ret.toNat * 2 ^ (64 * len) =
        2 * wideValue s.mem b0 b1 len + c.toNat / 2 ^ 31)

/-! ### Isolation -/

/-- Rule R45: "An operation touches no address outside its regions": a command that answers a next state has changed no word
outside its W region, nor the configuration, the program or the index. -/
def Obligations.CommandsWriteOnlyTheirRegion : Prop :=
  ∀ (i : Instr) (s t : State), s.mem.wf → exec i s = .next t →
    (∀ q, ¬ Writes i q → t.mem.read q = s.mem.read q) ∧ t.cfg = s.cfg ∧ t.program = s.program ∧ t.k = s.k

/-- Rule R45 and rule R192: what a command computes depends on no word outside its regions, so not on the arbitrary reset content of
the rest of `M`. -/
def Obligations.ResultsDependOnlyOnTheRegions : Prop :=
  ∀ (i : Instr) (s s' : State), s.mem.wf → s'.mem.wf → s.fault = 0#4 → s'.fault = 0#4 → s'.cfg = s.cfg →
    Legal s.cfg i → AllInside s.cfg i → (∀ q, Reads i q ∨ Writes i q → s'.mem.read q = s.mem.read q) →
    ∃ t t', exec i s = .next t ∧ exec i s' = .next t' ∧ t'.ret = t.ret ∧
      ∀ q, Writes i q → t'.mem.read q = t.mem.read q

/-! ### The host's side -/

/-- Rule R46 and rule R52 at the host's memory port: a word that exists reads back as it was written, every other word is
unchanged, and the response registers are not touched. That the port answers `noSuchWord` at an address that does not exist
(rule R47) is the model's choice, log entry 9. -/
def Obligations.HostMemoryPortReadsBack : Prop :=
  ∀ (s : State) (a : Nat) (v : Word), s.mem.wf →
    (a < s.cfg.memWords → ∃ t, hostWrite a v s = .ok t ∧ hostRead a t = .ok v ∧
      (∀ q, q ≠ a → hostRead q t = hostRead q s) ∧ hostResponse t = hostResponse s) ∧
    (s.cfg.memWords ≤ a → hostWrite a v s = .error .noSuchWord ∧ hostRead a s = .error .noSuchWord)

/-- Rule R41 leaves a host's byte view of `M` to the platform, whose choice is the parameter `HOST_BYTE_ORDER`: the four bytes of each
word lie in that order. The model's choices are that bytes `4·a .. 4·a+3` are those of word `a`, log entry 17, and that a word
that does not exist answers `noSuchWord`, log entry 9. -/
def Obligations.HostByteViewFollowsItsOrder : Prop :=
  ∀ (s : State) (a i : Nat), i < 4 →
    (a < s.cfg.memWords → s.cfg.hostByteOrder = .little →
      hostByte (4 * a + i) s = .ok ((s.mem.read a).extractLsb' (8 * i) 8)) ∧
    (a < s.cfg.memWords → s.cfg.hostByteOrder = .big →
      hostByte (4 * a + i) s = .ok ((s.mem.read a).extractLsb' (24 - 8 * i) 8)) ∧
    (s.cfg.memWords ≤ a → hostByte (4 * a + i) s = .error .noSuchWord)

/-- Rule R161: `fromBigInteger` fails exactly on a negative value or one of more than `32·len` bits, and otherwise leaves the value
in the region the host chose (an argument of the model's function, log entry 9); the response registers are not touched. -/
def Obligations.FromBigIntegerWritesTheValue : Prop :=
  ∀ (s : State) (len a : Nat) (value : Int), s.mem.wf → Fits s a len →
    ((value < 0 ∨ 2 ^ (32 * len) ≤ value) → fromBigInteger len value a s = .error .invalidArgument) ∧
    (0 ≤ value → value < 2 ^ (32 * len) →
      ∃ t, fromBigInteger len value a s = .ok t ∧ KeepsAllBut a len s t ∧ t.ret = s.ret ∧
        (t.mem.val a len : Int) = value)

/-- Rule R162 and rule R163: `toBigInteger` reads the buffer's value; converted back, into any region `b` inside memory, the words of
the buffer are reproduced exactly (and into the buffer itself, nothing changes); a value that fits comes back from
`fromBigInteger` then `toBigInteger`; and `fromBigInteger` fails on a negative value and on one of more than `32·len` bits. -/
def Obligations.ConversionsRoundTrip : Prop :=
  ∀ (s : State) (len a : Nat), s.mem.wf → Fits s a len →
    toBigInteger len a s = s.mem.val a len ∧
    (∀ b, Fits s b len →
      ∃ t, fromBigInteger len (toBigInteger len a s) b s = .ok t ∧ KeepsAllBut b len s t ∧ t.ret = s.ret ∧
        ∀ i, i < len → t.mem.read (b + i) = s.mem.read (a + i)) ∧
    fromBigInteger len (toBigInteger len a s) a s = .ok s ∧
    (∀ value : Int, 0 ≤ value → value < 2 ^ (32 * len) →
      ∃ t, fromBigInteger len value a s = .ok t ∧ (toBigInteger len a t : Int) = value) ∧
    (∀ value : Int, value < 0 ∨ 2 ^ (32 * len) ≤ value →
      fromBigInteger len value a s = .error .invalidArgument)
end

