-- ==== Sys2Proof/Laws/Memory.lean ====
section
/-! SUPPORT. The laws of the buffer memory: read after write, the canonical form, and the value of a buffer. -/

namespace Sys2Proof.Machine

/-! ### The canonical form -/

theorem wf_nil : Memory.wf [] := ⟨List.Pairwise.nil, by simp⟩

theorem write_nil (a : Nat) (v : Word) : Memory.write [] a v = Memory.cell a v ++ [] := (List.append_nil _).symm

theorem wf_cons {b : Nat} {w : Word} {cells : Memory} :
    Memory.wf ((b, w) :: cells) ↔ (∀ c ∈ cells, b < c.1) ∧ w ≠ unlisted ∧ Memory.wf cells := by
  simp only [Memory.wf, List.pairwise_cons, List.forall_mem_cons]
  tauto

/-- An address below every listed one reads as unlisted. -/
theorem read_of_lt {m : Memory} {a : Nat} (h : ∀ c ∈ m, a < c.1) : m.read a = unlisted := by
  induction m with
  | nil => rfl
  | cons c cells ih =>
    obtain ⟨b, w⟩ := c
    have hb : a < b := h (b, w) (by simp)
    simp only [Memory.read, if_neg (Nat.ne_of_lt hb)]
    exact ih fun c hc => h c (by simp [hc])

/-- Reading the cell put before a list whose addresses are all above it. -/
theorem read_cell_append {m : Memory} {a : Nat} (v : Word) (h : ∀ c ∈ m, a < c.1) :
    (Memory.cell a v ++ m).read a = v := by
  unfold Memory.cell
  split
  · rename_i hv; simpa [hv] using read_of_lt h
  · simp [Memory.read]

theorem read_cell_append_other {m : Memory} {a q : Nat} (v : Word) (h : q ≠ a) :
    (Memory.cell a v ++ m).read q = m.read q := by
  unfold Memory.cell
  split
  · rfl
  · simp [Memory.read, h]

/-- "writing a value and reading it back returns it" (rule R46). -/
theorem read_write_same {m : Memory} (a : Nat) (v : Word) (h : m.wf) : (m.write a v).read a = v := by
  induction m with
  | nil => rw [write_nil]; exact read_cell_append v (by simp)
  | cons c cells ih =>
    obtain ⟨b, w⟩ := c
    obtain ⟨hb, -, hcells⟩ := wf_cons.1 h
    simp only [Memory.write]
    split
    · rename_i hab
      refine read_cell_append v fun c hc => ?_
      rcases List.mem_cons.1 hc with rfl | hc
      · exact hab
      · exact hab.trans (hb c hc)
    · split
      · rename_i hab; subst hab; exact read_cell_append v hb
      · rename_i h1 h2
        simp only [Memory.read, if_neg h2]
        exact ih hcells

/-- A write leaves every other word alone. -/
theorem read_write_other {m : Memory} {a q : Nat} (v : Word) (h : q ≠ a) : (m.write a v).read q = m.read q := by
  induction m with
  | nil => rw [write_nil]; exact read_cell_append_other v h
  | cons c cells ih =>
    obtain ⟨b, w⟩ := c
    simp only [Memory.write]
    split
    · exact read_cell_append_other v h
    · split
      · rename_i hab; subst hab
        rw [read_cell_append_other v h]
        simp [Memory.read, h]
      · simp only [Memory.read]
        split
        · rfl
        · exact ih

theorem read_write {m : Memory} (a q : Nat) (v : Word) (h : m.wf) :
    (m.write a v).read q = if q = a then v else m.read q := by
  split
  · rename_i hq; subst hq; exact read_write_same q v h
  · rename_i hq; exact read_write_other v hq

theorem mem_cell {a : Nat} {v : Word} {c : Nat × Word} (h : c ∈ Memory.cell a v) : c = (a, v) ∧ v ≠ unlisted := by
  unfold Memory.cell at h
  split at h
  · simp at h
  · rename_i hv; exact ⟨by simpa using h, hv⟩

/-- Every cell of a written memory is the one written or was there before. -/
theorem mem_write {m : Memory} {a : Nat} {v : Word} {c : Nat × Word} (h : c ∈ m.write a v) :
    c = (a, v) ∨ c ∈ m := by
  induction m with
  | nil => exact .inl (mem_cell h).1
  | cons d cells ih =>
    obtain ⟨b, w⟩ := d
    simp only [Memory.write] at h
    split at h
    · rcases List.mem_append.1 h with h | h
      · exact .inl (mem_cell h).1
      · exact .inr h
    · split at h
      · rcases List.mem_append.1 h with h | h
        · exact .inl (mem_cell h).1
        · exact .inr (by simp [h])
      · rcases List.mem_cons.1 h with h | h
        · exact .inr (by simp [h])
        · rcases ih h with h | h
          · exact .inl h
          · exact .inr (by simp [h])

theorem wf_cell_append {m : Memory} {a : Nat} {v : Word} (hm : m.wf) (h : ∀ c ∈ m, a < c.1) :
    (Memory.cell a v ++ m : Memory).wf := by
  unfold Memory.cell
  split
  · exact hm
  · rename_i hv; exact wf_cons.2 ⟨h, hv, hm⟩

/-- Every write keeps the canonical form. -/
theorem write_wf {m : Memory} (a : Nat) (v : Word) (h : m.wf) : (m.write a v).wf := by
  induction m with
  | nil => rw [write_nil]; exact wf_cell_append h (by simp)
  | cons c cells ih =>
    obtain ⟨b, w⟩ := c
    obtain ⟨hb, hw, hcells⟩ := wf_cons.1 h
    simp only [Memory.write]
    split
    · rename_i hab
      refine wf_cell_append h fun c hc => ?_
      rcases List.mem_cons.1 hc with rfl | hc
      · exact hab
      · exact hab.trans (hb c hc)
    · split
      · rename_i hab; subst hab; exact wf_cell_append hcells hb
      · rename_i h1 h2
        refine wf_cons.2 ⟨fun c hc => ?_, hw, ih hcells⟩
        rcases mem_write hc with rfl | hc
        · simp only; omega
        · exact hb c hc

/-- A listed cell is what its address reads as. -/
theorem read_of_mem {m : Memory} {a : Nat} {v : Word} (h : m.wf) (hc : (a, v) ∈ m) : m.read a = v := by
  induction m with
  | nil => simp at hc
  | cons c cells ih =>
    obtain ⟨b, w⟩ := c
    obtain ⟨hb, -, hcells⟩ := wf_cons.1 h
    rcases List.mem_cons.1 hc with hc | hc
    · cases hc; simp [Memory.read]
    · have := hb _ hc
      simp only at this
      simp only [Memory.read, if_neg (by omega : ¬ a = b)]
      exact ih hcells hc

/-- An address that does not read as unlisted is listed. -/
theorem mem_of_read {m : Memory} {a : Nat} (h : m.read a ≠ unlisted) : (a, m.read a) ∈ m := by
  induction m with
  | nil => exact absurd rfl h
  | cons c cells ih =>
    obtain ⟨b, w⟩ := c
    simp only [Memory.read] at h ⊢
    split
    · rename_i hab; subst hab; simp
    · rename_i hab; rw [if_neg hab] at h; exact List.mem_cons_of_mem _ (ih h)

/-- Canonical memories that read alike are the same data. -/
theorem memory_ext {m m' : Memory} (h : m.wf) (h' : m'.wf) (hr : ∀ q, m.read q = m'.read q) : m = m' := by
  have hsub : ∀ {l l' : Memory}, l.wf → (∀ q, l.read q = l'.read q) → ∀ c ∈ l, c ∈ l' := by
    intro l l' hl hr c hc
    have hv := read_of_mem hl hc
    have := mem_of_read (m := l') (a := c.1) (by rw [← hr, hv]; exact hl.2 c hc)
    rwa [← hr, hv] at this
  have hnd : ∀ {l : Memory}, l.wf → l.Nodup := fun hl =>
    List.Pairwise.imp (fun {a b} h => by rintro rfl; exact Nat.lt_irrefl _ h) hl.1
  have hp : m.Perm m' := (List.perm_ext_iff_of_nodup (hnd h) (hnd h')).2 fun c =>
    ⟨hsub h hr c, hsub h' (fun q => (hr q).symm) c⟩
  exact hp.eq_of_pairwise (le := fun c d => c.1 < d.1) (fun a b _ _ h1 h2 => absurd h1 (Nat.lt_asymm h2)) h.1 h'.1

/-! ### The value of a buffer -/

@[simp] theorem val_zero (m : Memory) (a : Nat) : m.val a 0 = 0 := rfl

theorem val_succ (m : Memory) (a n : Nat) : m.val a (n + 1) = m.val a n + (m.read (a + n)).toNat * 2 ^ (32 * n) := rfl

@[simp] theorem val_one (m : Memory) (a : Nat) : m.val a 1 = (m.read a).toNat := by simp [val_succ]

/-- The value depends only on the words of the buffer. -/
theorem val_congr {m m' : Memory} {a b n : Nat} (h : ∀ i < n, m.read (a + i) = m'.read (b + i)) :
    m.val a n = m'.val b n := by
  induction n with
  | zero => rfl
  | succ n ih => rw [val_succ, val_succ, ih fun i hi => h i (by omega), h n (by omega)]

/-- "A `len`-word buffer never holds a value exceeding `2^(32·len) − 1`" (rule R17). -/
theorem val_lt (m : Memory) (a n : Nat) : m.val a n < 2 ^ (32 * n) := by
  induction n with
  | zero => simp
  | succ n ih =>
    have hw := (m.read (a + n)).isLt
    rw [val_succ, Nat.mul_succ, Nat.pow_add]
    nlinarith [Nat.two_pow_pos (32 * n)]

/-- A buffer is its low part and its high part. -/
theorem val_append (m : Memory) (a n k : Nat) :
    m.val a (n + k) = m.val a n + 2 ^ (32 * n) * m.val (a + n) k := by
  induction k with
  | zero => simp
  | succ k ih =>
    rw [← Nat.add_assoc, val_succ, ih, val_succ, Nat.mul_add 32, Nat.pow_add, Nat.add_assoc a n k]
    ring

theorem val_eq_zero_iff (m : Memory) (a n : Nat) : m.val a n = 0 ↔ ∀ i < n, m.read (a + i) = 0#32 := by
  induction n with
  | zero => simp
  | succ n ih =>
    rw [val_succ, Nat.add_eq_zero_iff, ih, Nat.mul_eq_zero, Nat.forall_lt_succ_right]
    refine and_congr Iff.rfl ?_
    constructor
    · rintro (h | h)
      · exact BitVec.eq_of_toNat_eq (by simpa using h)
      · exact absurd h (Nat.two_pow_pos _).ne'
    · intro h; left; simp [h]

/-- Equal values of equal length are equal words. -/
theorem read_eq_of_val_eq {m m' : Memory} {a b n : Nat} (h : m.val a n = m'.val b n) :
    ∀ i < n, m.read (a + i) = m'.read (b + i) := by
  induction n with
  | zero => intro i hi; omega
  | succ n ih =>
    rw [val_succ, val_succ] at h
    have h1 := val_lt m a n
    have h2 := val_lt m' b n
    have hlow : m.val a n = m'.val b n := by
      have := congrArg (· % 2 ^ (32 * n)) h
      simpa [Nat.mod_eq_of_lt h1, Nat.mod_eq_of_lt h2] using this
    have hhigh : m.read (a + n) = m'.read (b + n) := by
      have hp := Nat.two_pow_pos (32 * n)
      refine BitVec.eq_of_toNat_eq (Nat.eq_of_mul_eq_mul_right hp ?_)
      omega
    intro i hi
    rcases Nat.lt_succ_iff_lt_or_eq.1 hi with hi | rfl
    · exact ih hlow i hi
    · exact hhigh

end Sys2Proof.Machine
end

