-- ==== Sys2Proof/Laws/Words.lean ====
section
/-! SUPPORT. The number conventions of Machine/Flags.lean as arithmetic: narrowing, carries, word shifts. -/

namespace Sys2Proof.Machine

theorem uint_nonneg (w : Word) : 0 ≤ uint w := by simp [uint]

theorem uint_lt (w : Word) : uint w < 2 ^ 32 := by
  have := w.isLt
  simp only [uint]
  omega

/-- `lo32(v) = v mod 2^32` (rule R10). -/
theorem uint_lo32 (v : Int) : uint (lo32 v) = v % 2 ^ 32 := by
  simp [uint, lo32, BitVec.toNat_ofInt]
  omega

/-- What is written and what is carried make up the accumulator (rule R90). -/
theorem uint_lo32_add_carry (v : Int) : uint (lo32 v) + carryOf v * 2 ^ 32 = v := by
  rw [uint_lo32, carryOf]
  omega

theorem toNat_lo32 {v : Int} (h0 : 0 ≤ v) (h1 : v < 2 ^ 32) : ((lo32 v).toNat : Int) = v := by
  have := uint_lo32 v
  rw [Int.emod_eq_of_lt h0 h1] at this
  exact this

/-- A signed value that fits 32 bits survives `lo32` and `s32` (rule R10, rule R17). -/
theorem s32_lo32 {v : Int} (h0 : -2 ^ 31 ≤ v) (h1 : v < 2 ^ 31) : s32 (lo32 v) = v := by
  have h := uint_lo32 v
  simp only [uint] at h
  unfold s32
  split <;> omega

theorem lo32_zero : lo32 0 = 0#32 := by decide

/-- The carry stays between `lo` and `hi` when every step's term lets it (rule R90, rule R96). -/
theorem carryOf_bounds {lo hi c t : Int} (hc : lo ≤ c ∧ c ≤ hi) (hlo : lo * 2 ^ 32 ≤ lo + t)
    (hhi : hi + t < (hi + 1) * 2 ^ 32) : lo ≤ carryOf (c + t) ∧ carryOf (c + t) ≤ hi := by
  unfold carryOf
  omega

theorem toNat_shl (a : Word) (n : Nat) : (shl a n).toNat = a.toNat * 2 ^ n % 2 ^ 32 := by
  simp [shl]

theorem toNat_shr (a : Word) (n : Nat) : (shr a n).toNat = a.toNat / 2 ^ n := by
  have h : a.toNat / 2 ^ n < 2 ^ 32 := lt_of_le_of_lt (Nat.div_le_self _ _) a.isLt
  simp only [shr, BitVec.toNat_ofNat]
  exact Nat.mod_eq_of_lt h

/-- OR of two words whose bits do not meet is their sum: `hi` is a multiple of `2^n` and `lo` is below it. -/
theorem toNat_or_of_split {a b : Word} {n : Nat} (hb : b.toNat < 2 ^ n) (ha : 2 ^ n ∣ a.toNat) :
    (a ||| b).toNat = a.toNat + b.toNat := by
  obtain ⟨k, hk⟩ := ha
  rw [BitVec.toNat_or, hk, Nat.two_pow_add_eq_or_of_lt hb]

end Sys2Proof.Machine
end

