-- ==== Sys2Proof/Laws/WordLoop.lean ====
section
/-! SUPPORT. What the word-at-a-time mechanism does (rule R90, rule R96, rule R110), said once: the exact identity it establishes,
the range of its carry, and that it touches only its destination. -/

namespace Sys2Proof.Machine

/-- The words outside `[d, d+n)` read the same in both memories. -/
def SameOutside (d n : Nat) (m m' : Memory) : Prop := ∀ q, ¬ (d ≤ q ∧ q < d + n) → m'.read q = m.read q

theorem SameOutside.refl (d n : Nat) (m : Memory) : SameOutside d n m m := fun _ _ => rfl

theorem SameOutside.trans {d n : Nat} {m m' m'' : Memory} (h : SameOutside d n m m') (h' : SameOutside d n m' m'') :
    SameOutside d n m m'' := fun q hq => (h' q hq).trans (h q hq)

theorem SameOutside.mono {d n e k : Nat} {m m' : Memory} (h : SameOutside d n m m') (h1 : e ≤ d)
    (h2 : d + n ≤ e + k) : SameOutside e k m m' := fun q hq => h q (by omega)

theorem SameOutside.write {d n a : Nat} {m : Memory} (v : Word) (h1 : d ≤ a) (h2 : a < d + n) :
    SameOutside d n m (m.write a v) := fun q hq => read_write_other v (by omega)

/-- A buffer apart from the words written keeps its value. -/
theorem SameOutside.val {d n a k : Nat} {m m' : Memory} (h : SameOutside d n m m') (ha : a + k ≤ d ∨ d + n ≤ a) :
    m'.val a k = m.val a k := val_congr fun i hi => h _ (by omega)

/-- The value of a buffer as a sum of exact words (rule R13). -/
theorem val_eq_sum (m : Memory) (a n : Nat) :
    (m.val a n : Int) = ∑ i ∈ Finset.range n, uint (m.read (a + i)) * 2 ^ (32 * i) := by
  induction n with
  | zero => simp
  | succ n ih => rw [Finset.sum_range_succ, ← ih, val_succ]; simp [uint]

/-- The state of the mechanism after `n` steps: what it wrote plus what it still carries is the exact sum of the terms. A term
may read any word but those already written. -/
theorem wordStep_spec {n dst : Nat} {term : Memory → Nat → Int} {m : Memory} {lo hi : Int} (hm : m.wf)
    (hterm : ∀ i < n, ∀ m', SameOutside dst i m m' → term m' i = term m i)
    (hlo : ∀ i < n, lo * 2 ^ 32 ≤ lo + term m i) (hhi : ∀ i < n, hi + term m i < (hi + 1) * 2 ^ 32)
    (hlo0 : lo ≤ 0) (hhi0 : 0 ≤ hi) :
    (ascending n (wordStep dst term) (m, 0)).1.wf ∧
    SameOutside dst n m (ascending n (wordStep dst term) (m, 0)).1 ∧
    lo ≤ (ascending n (wordStep dst term) (m, 0)).2 ∧ (ascending n (wordStep dst term) (m, 0)).2 ≤ hi ∧
    ((ascending n (wordStep dst term) (m, 0)).1.val dst n : Int) +
        (ascending n (wordStep dst term) (m, 0)).2 * 2 ^ (32 * n) =
      ∑ i ∈ Finset.range n, term m i * 2 ^ (32 * i) := by
  induction n with
  | zero => exact ⟨hm, SameOutside.refl _ _ _, hlo0, hhi0, by simp [ascending]⟩
  | succ n ih =>
    obtain ⟨hwf, hsame, hl, hh, hval⟩ := ih (fun i hi => hterm i (by omega)) (fun i hi => hlo i (by omega))
      (fun i hi => hhi i (by omega))
    generalize hst : ascending n (wordStep dst term) (m, 0) = st at *
    have ht : term st.1 n = term m n := hterm n (by omega) st.1 hsame
    obtain ⟨hc1, hc2⟩ := carryOf_bounds ⟨hl, hh⟩ (hlo n (by omega)) (hhi n (by omega))
    simp only [ascending, hst, wordStep, ht]
    refine ⟨write_wf _ _ hwf, ?_, hc1, hc2, ?_⟩
    · exact (hsame.mono (le_refl _) (by omega)).trans (SameOutside.write _ (by omega) (by omega))
    · have hkeep : (st.1.write (dst + n) (lo32 (st.2 + term m n))).val dst n = st.1.val dst n :=
        val_congr fun i hi => read_write_other _ (by omega)
      have hacc := uint_lo32_add_carry (st.2 + term m n)
      rw [val_succ, hkeep, read_write_same _ _ hwf, Finset.sum_range_succ, ← hval, Nat.mul_succ, pow_add]
      push_cast
      simp only [uint] at hacc
      linear_combination (2 : Int) ^ (32 * n) * hacc

/-- The whole mechanism: `RET` receives the narrowed last carry `c`. -/
theorem wordLoop_spec {n dst : Nat} {term : Memory → Nat → Int} {m : Memory} {lo hi : Int} (hm : m.wf)
    (hterm : ∀ i < n, ∀ m', SameOutside dst i m m' → term m' i = term m i)
    (hlo : ∀ i < n, lo * 2 ^ 32 ≤ lo + term m i) (hhi : ∀ i < n, hi + term m i < (hi + 1) * 2 ^ 32)
    (hlo0 : lo ≤ 0) (hhi0 : 0 ≤ hi) :
    ∃ m' c, wordLoop n dst term m = (m', lo32 c) ∧ m'.wf ∧ SameOutside dst n m m' ∧ lo ≤ c ∧ c ≤ hi ∧
      (m'.val dst n : Int) + c * 2 ^ (32 * n) = ∑ i ∈ Finset.range n, term m i * 2 ^ (32 * i) := by
  obtain ⟨h1, h2, h3, h4, h5⟩ := wordStep_spec hm hterm hlo hhi hlo0 hhi0
  exact ⟨_, _, rfl, h1, h2, h3, h4, h5⟩

/-- A word of a source that is the destination itself, or apart from it, is read before it is written (rule R49, rule R56). -/
theorem read_source {x dst n i : Nat} {m m' : Memory} (hx : (x + n ≤ dst ∨ dst + n ≤ x) ∨ x = dst) (hi : i < n)
    (h : SameOutside dst i m m') : m'.read (x + i) = m.read (x + i) := h _ (by omega)

end Sys2Proof.Machine
end

