-- ==== Sys2Proof/Laws/Ripple.lean ====
section
/-! SUPPORT. What the ripples of rule R143 do: the value law, the range of the answer, the words they leave alone. -/

namespace Sys2Proof.Machine

/-- A buffer of `n + 1` words is its first word and the rest. -/
theorem val_succ_left (m : Memory) (a n : Nat) :
    m.val a (n + 1) = (m.read a).toNat + 2 ^ 32 * m.val (a + 1) n := by
  rw [Nat.add_comm n 1, val_append]
  simp

/-- The value law of `ripple_inc` over the words it may reach (rule R143). -/
theorem rippleIncWords_spec (n a : Nat) (m : Memory) (hm : m.wf) :
    ∃ m' r, rippleIncWords n a m = (m', r) ∧ m'.wf ∧ SameOutside a n m m' ∧ (r = 0#32 ∨ r = 1#32) ∧
      m'.val a n + r.toNat * 2 ^ (32 * n) = m.val a n + 1 := by
  induction n generalizing a m with
  | zero => exact ⟨m, 1#32, rfl, hm, SameOutside.refl _ _ _, .inr rfl, by simp⟩
  | succ n ih =>
    have hv : (m.read a + 1#32).toNat = ((m.read a).toNat + 1) % 2 ^ 32 := by simp [BitVec.toNat_add]
    have hlt := (m.read a).isLt
    have hwf := write_wf a (m.read a + 1#32) hm
    by_cases h : m.read a + 1#32 = 0#32
    · obtain ⟨m', r, he, hwf', hsame, hr, hval⟩ := ih (a + 1) (m.write a (m.read a + 1#32)) hwf
      have h0 : (m.read a).toNat + 1 = 2 ^ 32 := by
        rw [h] at hv
        simp only [BitVec.toNat_ofNat, Nat.zero_mod] at hv
        omega
      have hrest : (m.write a (m.read a + 1#32)).val (a + 1) n = m.val (a + 1) n :=
        val_congr fun i _ => read_write_other _ (by omega)
      have hfirst : m'.read a = 0#32 := by
        rw [hsame a (by omega), read_write_same _ _ hm, h]
      refine ⟨m', r, by simp [rippleIncWords, h, ← he], hwf', ?_, hr, ?_⟩
      · exact (SameOutside.write (d := a) (n := n + 1) _ (by omega) (by omega)).trans
          (hsame.mono (by omega) (by omega))
      · rw [val_succ_left, val_succ_left, hfirst, Nat.mul_succ, pow_add]
        rw [hrest] at hval
        simp only [BitVec.toNat_ofNat, Nat.zero_mod]
        nlinarith
    · refine ⟨m.write a (m.read a + 1#32), 0#32, by simp [rippleIncWords, h], hwf,
        SameOutside.write _ (by omega) (by omega), .inl rfl, ?_⟩
      have h0 : (m.read a).toNat + 1 < 2 ^ 32 := by
        by_contra hge
        refine h (BitVec.eq_of_toNat_eq ?_)
        have : (m.read a).toNat + 1 = 2 ^ 32 := by omega
        rw [hv, this]
        simp
      have hrest : (m.write a (m.read a + 1#32)).val (a + 1) n = m.val (a + 1) n :=
        val_congr fun i _ => read_write_other _ (by omega)
      rw [val_succ_left, val_succ_left, read_write_same _ _ hm, hrest, hv, Nat.mod_eq_of_lt h0]
      simp
      omega

/-- The value law of `ripple_dec` over the words it may reach (rule R143); `b` is the borrow out, the negated answer. -/
theorem rippleDecWords_spec (n a : Nat) (m : Memory) (hm : m.wf) :
    ∃ m' r, rippleDecWords n a m = (m', r) ∧ m'.wf ∧ SameOutside a n m m' ∧ (r = 0#32 ∨ r = 0xFFFFFFFF#32) ∧
      (m'.val a n : Int) + s32 r * 2 ^ (32 * n) = (m.val a n : Int) - 1 := by
  induction n generalizing a m with
  | zero =>
    have : s32 0xFFFFFFFF#32 = -1 := by decide
    exact ⟨m, 0xFFFFFFFF#32, rfl, hm, SameOutside.refl _ _ _, .inr rfl, by simp [this]⟩
  | succ n ih =>
    have hv : (m.read a - 1#32).toNat = ((m.read a).toNat + (2 ^ 32 - 1)) % 2 ^ 32 := by
      simp [BitVec.toNat_sub]; omega
    have hlt := (m.read a).isLt
    have hwf := write_wf a (m.read a - 1#32) hm
    have hrest : (m.write a (m.read a - 1#32)).val (a + 1) n = m.val (a + 1) n :=
      val_congr fun i _ => read_write_other _ (by omega)
    by_cases h : m.read a - 1#32 = 0xFFFFFFFF#32
    · obtain ⟨m', r, he, hwf', hsame, hr, hval⟩ := ih (a + 1) (m.write a (m.read a - 1#32)) hwf
      have h0 : (m.read a).toNat = 0 := by
        rw [h] at hv
        simp only [BitVec.toNat_ofNat] at hv
        omega
      have hfirst : m'.read a = 0xFFFFFFFF#32 := by
        rw [hsame a (by omega), read_write_same _ _ hm, h]
      refine ⟨m', r, by simp [rippleDecWords, h, ← he], hwf', ?_, hr, ?_⟩
      · exact (SameOutside.write (d := a) (n := n + 1) _ (by omega) (by omega)).trans
          (hsame.mono (by omega) (by omega))
      · rw [val_succ_left, val_succ_left, hfirst, h0, Nat.mul_succ, pow_add]
        rw [hrest] at hval
        simp only [BitVec.toNat_ofNat]
        push_cast
        linear_combination (2 : Int) ^ 32 * hval
    · refine ⟨m.write a (m.read a - 1#32), 0#32, by simp [rippleDecWords, h], hwf,
        SameOutside.write _ (by omega) (by omega), .inl rfl, ?_⟩
      have h0 : (m.read a).toNat ≠ 0 := by
        intro hz
        refine h (BitVec.eq_of_toNat_eq ?_)
        rw [hv, hz]
        simp
      have hv' : (m.read a - 1#32).toNat = (m.read a).toNat - 1 := by omega
      have hz : s32 0#32 = 0 := by decide
      rw [val_succ_left, val_succ_left, read_write_same _ _ hm, hrest, hv', hz]
      push_cast
      omega

/-- `val(base, top)` around a window `[from, top)` that changed value, the words below it kept. -/
theorem val_window {base start top : Nat} {m m' : Memory} (h : start ≤ top)
    (hsame : SameOutside (base + start) (top - start) m m') :
    m'.val base top = m.val base start + 2 ^ (32 * start) * m'.val (base + start) (top - start) := by
  have := val_append m' base start (top - start)
  rw [Nat.add_sub_cancel' h] at this
  rw [this, hsame.val (a := base) (k := start) (by omega)]

/-- The value law of `ripple_inc` (rule R143). -/
theorem rippleInc_spec {base start top : Nat} {m : Memory} (hm : m.wf) (h : start ≤ top) :
    ∃ m' r, rippleInc base start top m = (m', r) ∧ m'.wf ∧ SameOutside (base + start) (top - start) m m' ∧
      (r = 0#32 ∨ r = 1#32) ∧
      m'.val base top + r.toNat * 2 ^ (32 * top) = m.val base top + 2 ^ (32 * start) := by
  obtain ⟨m', r, he, hwf, hsame, hr, hval⟩ := rippleIncWords_spec (top - start) (base + start) m hm
  refine ⟨m', r, he, hwf, hsame, hr, ?_⟩
  have hsplit : 2 ^ (32 * top) = 2 ^ (32 * start) * 2 ^ (32 * (top - start)) := by
    rw [← pow_add, ← Nat.mul_add, Nat.add_sub_cancel' h]
  rw [val_window h hsame, val_window h (SameOutside.refl _ _ m), hsplit]
  calc _ = m.val base start + 2 ^ (32 * start) *
        (m'.val (base + start) (top - start) + r.toNat * 2 ^ (32 * (top - start))) := by ring
    _ = _ := by rw [hval]; ring

/-- The value law of `ripple_dec` (rule R143). -/
theorem rippleDec_spec {base start top : Nat} {m : Memory} (hm : m.wf) (h : start ≤ top) :
    ∃ m' r, rippleDec base start top m = (m', r) ∧ m'.wf ∧ SameOutside (base + start) (top - start) m m' ∧
      (r = 0#32 ∨ r = 0xFFFFFFFF#32) ∧
      (m'.val base top : Int) + s32 r * 2 ^ (32 * top) = (m.val base top : Int) - 2 ^ (32 * start) := by
  obtain ⟨m', r, he, hwf, hsame, hr, hval⟩ := rippleDecWords_spec (top - start) (base + start) m hm
  refine ⟨m', r, he, hwf, hsame, hr, ?_⟩
  have hsplit : (2 : Int) ^ (32 * top) = 2 ^ (32 * start) * 2 ^ (32 * (top - start)) := by
    rw [← pow_add, ← Nat.mul_add, Nat.add_sub_cancel' h]
  rw [val_window h hsame, val_window h (SameOutside.refl _ _ m), hsplit]
  push_cast
  linear_combination (2 : Int) ^ (32 * start) * hval

end Sys2Proof.Machine
end

