-- ==== Sys2Proof/Laws/AddSub.lean ====
section
/-! SUPPORT. What the add and subtract families do to memory and return, as exact integer identities (rule R18, rule R90 to rule
R100). -/

namespace Sys2Proof.Machine

/-- The narrowed carry of a mechanism whose carry is a natural number below `2^32`. -/
theorem lo32_natCast {c : Int} (h0 : 0 ≤ c) (h1 : c < 2 ^ 32) :
    lo32 c = BitVec.ofNat 32 c.toNat ∧ ((lo32 c).toNat : Int) = c := by
  refine ⟨BitVec.eq_of_toNat_eq ?_, toNat_lo32 h0 h1⟩
  have := toNat_lo32 h0 h1
  rw [BitVec.toNat_ofNat, Nat.mod_eq_of_lt (by omega)]
  omega

/-- Two addends per word (rule R91, rule R93, rule R94). -/
theorem addLoop_spec {n x y z : Nat} {m : Memory} (hm : m.wf) (hx : (x + n ≤ z ∨ z + n ≤ x) ∨ x = z)
    (hy : (y + n ≤ z ∨ z + n ≤ y) ∨ y = z) :
    ∃ m' r, wordLoop n z (fun m i => uint (m.read (x + i)) + uint (m.read (y + i))) m = (m', r) ∧ m'.wf ∧
      SameOutside z n m m' ∧ r.toNat ≤ 1 ∧ m'.val z n + r.toNat * 2 ^ (32 * n) = m.val x n + m.val y n := by
  obtain ⟨m', c, he, hwf, hsame, h0, h1, hval⟩ := wordLoop_spec (n := n) (dst := z) (m := m) (lo := 0) (hi := 1)
    (term := fun m i => uint (m.read (x + i)) + uint (m.read (y + i))) hm
    (fun i hi m' h => by simp only [read_source hx hi h, read_source hy hi h])
    (fun i _ => by have := uint_nonneg (m.read (x + i)); have := uint_nonneg (m.read (y + i)); omega)
    (fun i _ => by have := uint_lt (m.read (x + i)); have := uint_lt (m.read (y + i)); omega)
    (by norm_num) (by norm_num)
  have hr := (lo32_natCast h0 (by omega)).2
  refine ⟨m', lo32 c, he, hwf, hsame, by omega, ?_⟩
  simp only [add_mul, Finset.sum_add_distrib, ← val_eq_sum] at hval
  rw [← hr] at hval
  exact_mod_cast hval

/-- Three addends per word, one of them the destination (rule R92). -/
theorem addBothLoop_spec {n x y z : Nat} {m : Memory} (hm : m.wf) (hx : (x + n ≤ z ∨ z + n ≤ x) ∨ x = z)
    (hy : (y + n ≤ z ∨ z + n ≤ y) ∨ y = z) :
    ∃ m' r, wordLoop n z
        (fun m i => uint (m.read (x + i)) + uint (m.read (y + i)) + uint (m.read (z + i))) m = (m', r) ∧ m'.wf ∧
      SameOutside z n m m' ∧ r.toNat ≤ 2 ∧
      m'.val z n + r.toNat * 2 ^ (32 * n) = m.val x n + m.val y n + m.val z n := by
  obtain ⟨m', c, he, hwf, hsame, h0, h1, hval⟩ := wordLoop_spec (n := n) (dst := z) (m := m) (lo := 0) (hi := 2)
    (term := fun m i => uint (m.read (x + i)) + uint (m.read (y + i)) + uint (m.read (z + i))) hm
    (fun i hi m' h => by
      simp only [read_source hx hi h, read_source hy hi h, read_source (x := z) (.inr rfl) hi h])
    (fun i _ => by
      have := uint_nonneg (m.read (x + i)); have := uint_nonneg (m.read (y + i))
      have := uint_nonneg (m.read (z + i)); omega)
    (fun i _ => by
      have := uint_lt (m.read (x + i)); have := uint_lt (m.read (y + i)); have := uint_lt (m.read (z + i)); omega)
    (by norm_num) (by norm_num)
  have hr := (lo32_natCast h0 (by omega)).2
  refine ⟨m', lo32 c, he, hwf, hsame, by omega, ?_⟩
  simp only [add_mul, Finset.sum_add_distrib, ← val_eq_sum] at hval
  rw [← hr] at hval
  exact_mod_cast hval

/-- A borrow in `-1 .. 0` as the word delivered in `RET` (rule R17, rule R96). -/
theorem lo32_borrow {c : Int} (h0 : -1 ≤ c) (h1 : c ≤ 0) : lo32 c = 0#32 ∨ lo32 c = 0xFFFFFFFF#32 := by
  rcases (by omega : c = 0 ∨ c = -1) with rfl | rfl
  · exact .inl (by decide)
  · exact .inr (by decide)

/-- A borrow in `-2 .. 0` as the word delivered in `RET` (rule R98). -/
theorem lo32_borrow2 {c : Int} (h0 : -2 ≤ c) (h1 : c ≤ 0) :
    lo32 c = 0#32 ∨ lo32 c = 0xFFFFFFFF#32 ∨ lo32 c = 0xFFFFFFFE#32 := by
  rcases (by omega : c = 0 ∨ c = -1 ∨ c = -2) with rfl | rfl | rfl
  · exact .inl (by decide)
  · exact .inr (.inl (by decide))
  · exact .inr (.inr (by decide))

/-- One subtrahend per word (rule R97, rule R99, rule R100). -/
theorem subLoop_spec {n x y z : Nat} {m : Memory} (hm : m.wf) (hx : (x + n ≤ z ∨ z + n ≤ x) ∨ x = z)
    (hy : (y + n ≤ z ∨ z + n ≤ y) ∨ y = z) :
    ∃ m' r, wordLoop n z (fun m i => uint (m.read (x + i)) - uint (m.read (y + i))) m = (m', r) ∧ m'.wf ∧
      SameOutside z n m m' ∧ (r = 0#32 ∨ r = 0xFFFFFFFF#32) ∧
      (m'.val z n : Int) + s32 r * 2 ^ (32 * n) = (m.val x n : Int) - m.val y n := by
  obtain ⟨m', c, he, hwf, hsame, h0, h1, hval⟩ := wordLoop_spec (n := n) (dst := z) (m := m) (lo := -1) (hi := 0)
    (term := fun m i => uint (m.read (x + i)) - uint (m.read (y + i))) hm
    (fun i hi m' h => by simp only [read_source hx hi h, read_source hy hi h])
    (fun i _ => by have := uint_nonneg (m.read (x + i)); have := uint_lt (m.read (y + i)); omega)
    (fun i _ => by have := uint_lt (m.read (x + i)); have := uint_nonneg (m.read (y + i)); omega)
    (by norm_num) (by norm_num)
  refine ⟨m', lo32 c, he, hwf, hsame, lo32_borrow h0 h1, ?_⟩
  simp only [sub_mul, Finset.sum_sub_distrib, ← val_eq_sum] at hval
  rw [s32_lo32 (by omega) (by omega)]
  exact hval

/-- Two subtrahends per word, the destination the minuend (rule R98). -/
theorem subBothLoop_spec {n x y z : Nat} {m : Memory} (hm : m.wf) (hx : (x + n ≤ z ∨ z + n ≤ x) ∨ x = z)
    (hy : (y + n ≤ z ∨ z + n ≤ y) ∨ y = z) :
    ∃ m' r, wordLoop n z
        (fun m i => uint (m.read (z + i)) - uint (m.read (x + i)) - uint (m.read (y + i))) m = (m', r) ∧ m'.wf ∧
      SameOutside z n m m' ∧ (r = 0#32 ∨ r = 0xFFFFFFFF#32 ∨ r = 0xFFFFFFFE#32) ∧
      (m'.val z n : Int) + s32 r * 2 ^ (32 * n) = (m.val z n : Int) - m.val x n - m.val y n := by
  obtain ⟨m', c, he, hwf, hsame, h0, h1, hval⟩ := wordLoop_spec (n := n) (dst := z) (m := m) (lo := -2) (hi := 0)
    (term := fun m i => uint (m.read (z + i)) - uint (m.read (x + i)) - uint (m.read (y + i))) hm
    (fun i hi m' h => by
      simp only [read_source hx hi h, read_source hy hi h, read_source (x := z) (.inr rfl) hi h])
    (fun i _ => by
      have := uint_nonneg (m.read (z + i)); have := uint_lt (m.read (x + i)); have := uint_lt (m.read (y + i)); omega)
    (fun i _ => by
      have := uint_lt (m.read (z + i)); have := uint_nonneg (m.read (x + i))
      have := uint_nonneg (m.read (y + i)); omega)
    (by norm_num) (by norm_num)
  refine ⟨m', lo32 c, he, hwf, hsame, lo32_borrow2 h0 h1, ?_⟩
  simp only [sub_mul, Finset.sum_sub_distrib, ← val_eq_sum] at hval
  rw [s32_lo32 (by omega) (by omega)]
  exact hval

/-- The value of a buffer after one of its words changed. -/
theorem val_write_inside {m : Memory} {a n k : Nat} (v : Word) (hm : m.wf) (hk : k < n) :
    ((m.write (a + k) v).val a n : Int) = m.val a n + (uint v - uint (m.read (a + k))) * 2 ^ (32 * k) := by
  have hn : n = k + (1 + (n - k - 1)) := by omega
  have hlow : (m.write (a + k) v).val a k = m.val a k := val_congr fun i hi => read_write_other _ (by omega)
  have hhigh : (m.write (a + k) v).val (a + k + 1) (n - k - 1) = m.val (a + k + 1) (n - k - 1) :=
    val_congr fun i _ => read_write_other _ (by omega)
  rw [hn, val_append, val_append _ (a + k), val_append m a, val_append m (a + k), hlow, hhigh, val_one, val_one,
    read_write_same _ _ hm]
  simp only [uint]
  push_cast
  ring

theorem addWordAt_eq (len : Nat) (x : Word) (zz zzOff : Nat) (m : Memory) :
    addWordAt len x zz zzOff m =
      if carryOf (uint x + uint (m.read (zz + zzOff))) = 0 then
        (m.write (zz + zzOff) (lo32 (uint x + uint (m.read (zz + zzOff)))), 0#32)
      else
        rippleInc zz (zzOff + 1) (2 * len) (m.write (zz + zzOff) (lo32 (uint x + uint (m.read (zz + zzOff))))) :=
  rfl

/-- The pseudocode of rule R95: a word added at `zzOff`, the carry rippling to the top of the extended buffer. -/
theorem addWordAt_spec {len zz zzOff : Nat} {x : Word} {m : Memory} (hm : m.wf) (h : zzOff < 2 * len) :
    ∃ m' r, addWordAt len x zz zzOff m = (m', r) ∧ m'.wf ∧ SameOutside (zz + zzOff) (2 * len - zzOff) m m' ∧
      r.toNat ≤ 1 ∧
      m'.val zz (2 * len) + r.toNat * 2 ^ (32 * (2 * len)) = m.val zz (2 * len) + x.toNat * 2 ^ (32 * zzOff) := by
  have hx0 := uint_nonneg x
  have hx1 := uint_lt x
  have hz0 := uint_nonneg (m.read (zz + zzOff))
  have hz1 := uint_lt (m.read (zz + zzOff))
  have hwf := write_wf (zz + zzOff) (lo32 (uint x + uint (m.read (zz + zzOff)))) hm
  have hsame : SameOutside (zz + zzOff) (2 * len - zzOff) m
      (m.write (zz + zzOff) (lo32 (uint x + uint (m.read (zz + zzOff))))) :=
    SameOutside.write _ (by omega) (by omega)
  have hval := val_write_inside (a := zz) (n := 2 * len) (k := zzOff)
    (lo32 (uint x + uint (m.read (zz + zzOff)))) hm h
  have hacc := uint_lo32_add_carry (uint x + uint (m.read (zz + zzOff)))
  rw [addWordAt_eq]
  by_cases hc : carryOf (uint x + uint (m.read (zz + zzOff))) = 0
  · refine ⟨_, _, by rw [if_pos hc], hwf, hsame, by simp, ?_⟩
    rw [hc] at hacc
    have hu : uint (lo32 (uint x + uint (m.read (zz + zzOff)))) = uint x + uint (m.read (zz + zzOff)) := by omega
    rw [hu] at hval
    rw [show (0#32 : Word).toNat = 0 from rfl]
    zify
    rw [hval]
    simp only [uint]
    ring
  · obtain ⟨m', r, he, hwf', hsame', hr, hval'⟩ := rippleInc_spec (base := zz) (start := zzOff + 1) (top := 2 * len)
      hwf (by omega)
    have hc1 : carryOf (uint x + uint (m.read (zz + zzOff))) = 1 := by
      unfold carryOf at hc ⊢; omega
    refine ⟨m', r, by rw [if_neg hc, he], hwf', hsame.trans (hsame'.mono (by omega) (by omega)), ?_, ?_⟩
    · rcases hr with rfl | rfl <;> decide
    · rw [hc1] at hacc
      have hu : uint (lo32 (uint x + uint (m.read (zz + zzOff)))) =
          uint x + uint (m.read (zz + zzOff)) - 2 ^ 32 := by omega
      rw [hu] at hval
      zify at hval' ⊢
      rw [hval', hval, Nat.mul_succ, pow_add]
      simp only [uint]
      ring

end Sys2Proof.Machine
end

