-- ==== Sys2Proof/Laws/Compare.lean ====
section
/-! SUPPORT. What the zero fill, the zero test, the comparison and the bit test compute. -/

namespace Sys2Proof.Machine

/-- A zero fill writes zero to its words and nothing else (rule R81 to rule R83). -/
theorem zeroFill_spec (n a : Nat) (m : Memory) (hm : m.wf) :
    (zeroFill n a m).wf ∧ SameOutside a n m (zeroFill n a m) ∧ ∀ i < n, (zeroFill n a m).read (a + i) = 0#32 := by
  induction n with
  | zero => exact ⟨hm, SameOutside.refl _ _ _, by omega⟩
  | succ n ih =>
    obtain ⟨hwf, hsame, hzero⟩ := ih
    have hstep : zeroFill (n + 1) a m = (zeroFill n a m).write (a + n) 0#32 := rfl
    rw [hstep]
    refine ⟨write_wf _ _ hwf, ?_, fun i hi => ?_⟩
    · exact (hsame.mono (le_refl _) (by omega)).trans (SameOutside.write _ (by omega) (by omega))
    · rw [read_write _ _ _ hwf]
      split
      · rfl
      · exact hzero i (by omega)

/-- The zero test (rule R84). -/
theorem allZero_iff (m : Memory) (a n : Nat) : allZero m a n = true ↔ m.val a n = 0 := by
  rw [val_eq_zero_iff]
  unfold allZero
  induction n with
  | zero => simp [ascending]
  | succ n ih => simp only [ascending, Bool.and_eq_true, ih, beq_iff_eq, Nat.forall_lt_succ_right]

theorem truth_eq (b : Bool) (p : Prop) [Decidable p] (h : b = true ↔ p) : truth b = if p then 1#32 else 0#32 := by
  unfold truth
  by_cases hp : p
  · rw [if_pos (h.2 hp), if_pos hp]
  · rw [if_neg fun hb => hp (h.1 hb), if_neg hp]

/-- The comparison is that of the values (rule R140). -/
theorem notBelow_iff (m : Memory) (x y n : Nat) : notBelow m x y n = true ↔ m.val y n ≤ m.val x n := by
  induction n with
  | zero => simp [notBelow]
  | succ n ih =>
    have hx := val_lt m x n
    have hy := val_lt m y n
    simp only [notBelow, val_succ]
    split
    · rename_i h
      simp only [Bool.false_eq_true, false_iff, not_le]
      nlinarith [Nat.two_pow_pos (32 * n)]
    · split
      · rename_i h
        simp only [true_iff]
        nlinarith [Nat.two_pow_pos (32 * n)]
      · have h : (m.read (x + n)).toNat = (m.read (y + n)).toNat := by omega
        rw [ih, h]
        omega

/-- Word `k` of a buffer as a field of its value. -/
theorem read_eq_val_div (m : Memory) (x : Nat) {n k : Nat} (hk : k < n) :
    (m.read (x + k)).toNat = m.val x n / 2 ^ (32 * k) % 2 ^ 32 := by
  have hn : n = k + (1 + (n - k - 1)) := by omega
  rw [hn, val_append, val_append, val_one]
  have h1 := val_lt m x k
  have h2 := (m.read (x + k)).isLt
  rw [Nat.add_mul_div_left _ _ (Nat.two_pow_pos _), Nat.div_eq_of_lt h1, Nat.zero_add, Nat.add_mul_mod_self_left,
    Nat.mod_eq_of_lt h2]

/-- The bit test is bit `bit` of the value, 0 from the buffer's end on (rule R142). -/
theorem bitAt_spec (len x : Nat) (bit : Word) (m : Memory) :
    (bitAt len x bit m).toNat = m.val x len / 2 ^ bit.toNat % 2 := by
  unfold bitAt
  simp only [toNat_shr]
  have hbit : bit.toNat = 32 * (bit.toNat / 2 ^ 5) + bit.toNat % 32 := by omega
  have hand : (bit &&& 31#32).toNat = bit.toNat % 32 := by
    rw [BitVec.toNat_and]
    exact Nat.and_two_pow_sub_one_eq_mod bit.toNat 5
  split
  · rename_i h
    have hlt : m.val x len < 2 ^ bit.toNat :=
      (val_lt m x len).trans_le (Nat.pow_le_pow_right (by norm_num) (by omega))
    rw [Nat.div_eq_of_lt hlt]
    rfl
  · rename_i h
    have h1 : ∀ w : Word, (w &&& 1#32).toNat = w.toNat % 2 := fun w => by
      rw [BitVec.toNat_and]
      exact Nat.and_two_pow_sub_one_eq_mod w.toNat 1
    rw [h1, toNat_shr, hand, read_eq_val_div m x (by omega : bit.toNat / 2 ^ 5 < len)]
    have hr : bit.toNat % 32 < 32 := Nat.mod_lt _ (by norm_num)
    generalize bit.toNat / 2 ^ 5 = w at *
    generalize bit.toNat % 32 = r at *
    rw [hbit, pow_add, ← Nat.div_div_eq_div_mul]
    generalize m.val x len / 2 ^ (32 * w) = v
    have hs : 2 ^ 32 = 2 ^ r * (2 * 2 ^ (31 - r)) := by
      rw [← pow_succ', ← pow_add]; congr 1; omega
    rw [hs, Nat.mod_mul_right_div_self, Nat.mod_mul_right_mod]

end Sys2Proof.Machine
end

