-- ==== Sys2Proof/Laws/State.lean ====
section
/-! SUPPORT. One lemma per field per update of the state, so that no later proof unfolds a record update; and what `advance` does to
each outcome. -/

namespace Sys2Proof.Machine

@[simp] theorem raiseFault_cfg (code : BitVec 4) (s : State) : (raiseFault code s).cfg = s.cfg := rfl
@[simp] theorem raiseFault_mem (code : BitVec 4) (s : State) : (raiseFault code s).mem = s.mem := rfl
@[simp] theorem raiseFault_ret (code : BitVec 4) (s : State) : (raiseFault code s).ret = s.ret := rfl
@[simp] theorem raiseFault_fault (code : BitVec 4) (s : State) : (raiseFault code s).fault = code := rfl
@[simp] theorem raiseFault_program (code : BitVec 4) (s : State) : (raiseFault code s).program = s.program := rfl
@[simp] theorem raiseFault_k (code : BitVec 4) (s : State) : (raiseFault code s).k = s.k := rfl

@[simp] theorem hostReset_cfg (m : Memory) (s : State) : (hostReset m s).cfg = s.cfg := rfl
@[simp] theorem hostReset_mem (m : Memory) (s : State) : (hostReset m s).mem = m := rfl
@[simp] theorem hostReset_ret (m : Memory) (s : State) : (hostReset m s).ret = 0#32 := rfl
@[simp] theorem hostReset_fault (m : Memory) (s : State) : (hostReset m s).fault = 0#4 := rfl
@[simp] theorem hostReset_program (m : Memory) (s : State) : (hostReset m s).program = s.program := rfl
@[simp] theorem hostReset_k (m : Memory) (s : State) : (hostReset m s).k = 0 := rfl

@[simp] theorem complete_cfg (r : Memory × Word) (s : State) : (complete r s).cfg = s.cfg := rfl
@[simp] theorem complete_mem (r : Memory × Word) (s : State) : (complete r s).mem = r.1 := rfl
@[simp] theorem complete_ret (r : Memory × Word) (s : State) : (complete r s).ret = r.2 := rfl
@[simp] theorem complete_fault (r : Memory × Word) (s : State) : (complete r s).fault = s.fault := rfl
@[simp] theorem complete_program (r : Memory × Word) (s : State) : (complete r s).program = s.program := rfl
@[simp] theorem complete_k (r : Memory × Word) (s : State) : (complete r s).k = s.k := rfl

@[simp] theorem presentOnly_cfg (p : Packet) (s : State) : (presentOnly p s).cfg = s.cfg := rfl
@[simp] theorem presentOnly_mem (p : Packet) (s : State) : (presentOnly p s).mem = s.mem := rfl
@[simp] theorem presentOnly_ret (p : Packet) (s : State) : (presentOnly p s).ret = s.ret := rfl
@[simp] theorem presentOnly_fault (p : Packet) (s : State) : (presentOnly p s).fault = s.fault := rfl
@[simp] theorem presentOnly_program (p : Packet) (s : State) : (presentOnly p s).program = [p] := rfl
@[simp] theorem presentOnly_k (p : Packet) (s : State) : (presentOnly p s).k = 0 := rfl

@[simp] theorem hostSend_cfg (p : Packet) (s : State) : (hostSend p s).cfg = s.cfg := rfl
@[simp] theorem hostSend_mem (p : Packet) (s : State) : (hostSend p s).mem = s.mem := rfl
@[simp] theorem hostSend_ret (p : Packet) (s : State) : (hostSend p s).ret = s.ret := rfl
@[simp] theorem hostSend_fault (p : Packet) (s : State) : (hostSend p s).fault = s.fault := rfl
@[simp] theorem hostSend_program (p : Packet) (s : State) : (hostSend p s).program = s.program ++ [p] := rfl
@[simp] theorem hostSend_k (p : Packet) (s : State) : (hostSend p s).k = s.k := rfl

@[simp] theorem resetOf_cfg (c : Config) (m : Memory) : (State.resetOf c m).cfg = c := rfl
@[simp] theorem resetOf_mem (c : Config) (m : Memory) : (State.resetOf c m).mem = m := rfl
@[simp] theorem resetOf_ret (c : Config) (m : Memory) : (State.resetOf c m).ret = 0#32 := rfl
@[simp] theorem resetOf_fault (c : Config) (m : Memory) : (State.resetOf c m).fault = 0#4 := rfl
@[simp] theorem resetOf_program (c : Config) (m : Memory) : (State.resetOf c m).program = [] := rfl
@[simp] theorem resetOf_k (c : Config) (m : Memory) : (State.resetOf c m).k = 0 := rfl

@[simp] theorem advance_next (s : State) : advance (.next s) = .next { s with k := s.k + 1 } := rfl
@[simp] theorem advance_fault (r : Fault) : advance (.fault r) = .fault r := rfl
@[simp] theorem advance_refused (r : Refusal) : advance (.refused r) = .refused r := rfl

@[simp] theorem withFetchWord_eq (s : State) (nbits w : Nat) :
    s.withFetchWord nbits w = presentOnly (packetOfTableWord nbits w) s := rfl

@[simp] theorem presented_presentOnly (p : Packet) (s : State) : presented (presentOnly p s) = some p := rfl

/-- The unit is halted exactly when `FAULT` is not 0 (rule R177). -/
theorem halted_eq_false_iff (s : State) : halted s = false ↔ s.fault = 0#4 := by
  simp [halted]

theorem halted_eq_true_iff (s : State) : halted s = true ↔ s.fault ≠ 0#4 := by
  simp [halted]

end Sys2Proof.Machine
end

