-- ==== Sys2Proof/Laws/Issue.lean ====
section
/-! SUPPORT. What the shared order of checks does (rule R171), said once, and that the checks of Machine/Operands.lean are the
spec's tables as Safety.lean writes them. -/

namespace Sys2Proof.Machine

/-! ### `issue`, case by case -/

theorem issue_halted {i : Instr} {run : Memory → Memory × Word} {s : State} (h : s.fault ≠ 0#4) :
    issue i run s = .next s := by
  simp [issue, (halted_eq_true_iff s).2 h]

theorem issue_violated {i : Instr} {run : Memory → Memory × Word} {s : State} (h : s.fault = 0#4)
    (hp : preconditionHolds s.cfg i = false) :
    issue i run s =
      if s.cfg.checked then .next (raiseFault preconditionViolated s) else .refused .trustedPreconditionViolated := by
  simp [issue, (halted_eq_false_iff s).2 h, hp]

theorem issue_outside {i : Instr} {run : Memory → Memory × Word} {s : State} (h : s.fault = 0#4)
    (hp : preconditionHolds s.cfg i = true) (hb : regionsInside s.cfg i = false) :
    issue i run s = .next (raiseFault outOfBounds s) := by
  simp [issue, (halted_eq_false_iff s).2 h, hp, hb]

theorem issue_completes {i : Instr} {run : Memory → Memory × Word} {s : State} (h : s.fault = 0#4)
    (hp : preconditionHolds s.cfg i = true) (hb : regionsInside s.cfg i = true) :
    issue i run s = .next (complete (run s.mem) s) := by
  simp [issue, (halted_eq_false_iff s).2 h, hp, hb]

/-- Everything `issue` can answer. -/
theorem issue_cases (i : Instr) (run : Memory → Memory × Word) (s : State) :
    (s.fault ≠ 0#4 ∧ issue i run s = .next s) ∨
    (s.fault = 0#4 ∧ preconditionHolds s.cfg i = false ∧ s.cfg.checked = true ∧
      issue i run s = .next (raiseFault preconditionViolated s)) ∨
    (s.fault = 0#4 ∧ preconditionHolds s.cfg i = false ∧ s.cfg.checked = false ∧
      issue i run s = .refused .trustedPreconditionViolated) ∨
    (s.fault = 0#4 ∧ preconditionHolds s.cfg i = true ∧ regionsInside s.cfg i = false ∧
      issue i run s = .next (raiseFault outOfBounds s)) ∨
    (s.fault = 0#4 ∧ preconditionHolds s.cfg i = true ∧ regionsInside s.cfg i = true ∧
      issue i run s = .next (complete (run s.mem) s)) := by
  by_cases h : s.fault = 0#4
  · cases hp : preconditionHolds s.cfg i
    · have := issue_violated (run := run) h hp
      cases hc : s.cfg.checked <;> simp [hc] at this <;> tauto
    · cases hb : regionsInside s.cfg i
      · exact .inr (.inr (.inr (.inl ⟨h, rfl, rfl, issue_outside h hp hb⟩)))
      · exact .inr (.inr (.inr (.inr ⟨h, rfl, rfl, issue_completes h hp hb⟩)))
  · exact .inl ⟨h, issue_halted h⟩

/-- The pseudocode of each command, as its meaning gives it to the shared order of checks. -/
def body : Instr → Memory → Memory × Word
  | .create len z => fun m => (zeroFill len z m, noValue)
  | .createExt len zz => fun m => (zeroFill (2 * len) zz m, noValue)
  | .zero len z => fun m => (zeroFill len z m, noValue)
  | .isZero len x => fun m => (m, truth (allZero m x len))
  | .isZeroExt len xx => fun m => (m, truth (allZero m xx (2 * len)))
  | .isOne len x => fun m => (m, truth (m.read x == 1#32 && allZero m (x + 1) (len - 1)))
  | .add len x y z => wordLoop len z (fun m i => uint (m.read (x + i)) + uint (m.read (y + i)))
  | .addBothTo len x y z =>
      wordLoop len z (fun m i => uint (m.read (x + i)) + uint (m.read (y + i)) + uint (m.read (z + i)))
  | .addExt len xx yy zz => wordLoop (2 * len) zz (fun m i => uint (m.read (xx + i)) + uint (m.read (yy + i)))
  | .addToExt len x xOff zz zzOff =>
      wordLoop len (effective zz zzOff 0)
        (fun m i => uint (m.read (effective x xOff i)) + uint (m.read (effective zz zzOff i)))
  | .addWordExt len x zz zzOff => addWordAt len x zz zzOff
  | .sub len x y z => wordLoop len z (fun m i => uint (m.read (x + i)) - uint (m.read (y + i)))
  | .subBothFrom len x y z =>
      wordLoop len z (fun m i => uint (m.read (z + i)) - uint (m.read (x + i)) - uint (m.read (y + i)))
  | .subExt len xx yy zz => wordLoop (2 * len) zz (fun m i => uint (m.read (xx + i)) - uint (m.read (yy + i)))
  | .subFromExt len x xOff zz zzOff =>
      wordLoop len (effective zz zzOff 0)
        (fun m i => uint (m.read (effective zz zzOff i)) - uint (m.read (effective x xOff i)))
  | .mulWordExt len x y zz zzOff => mulRow len x y (effective zz zzOff 0)
  | .mulWordAddExt len x y yyOff zz zzOff => mulAddRow len x (effective y yyOff 0) (effective zz zzOff 0)
  | .mulWordDwordAdd len x y64 z zOff => fun m =>
      let w := mulDwordWindow x y64 (effective z zOff 0) m
      if w.2 = 0 then (w.1, 0#32) else rippleInc z (zOff + 3) len w.1
  | .mul len x y zz => fun m => (mulAll len x y zz m, noValue)
  | .squareWordAddExt _ x xPos zz => crossTerms x xPos zz
  | .square len x zz => fun m => (squareAll len x zz m, noValue)
  | .shiftDownBit len x c z => fun m => let r := shiftDown len x z (downWord 1) c m; (r.1, shl r.2 31)
  | .shiftDownBits len x bits c z => fun m =>
      let r := shiftDown len x z (downWord bits) c m; (r.1, shl r.2 (32 - bits))
  | .shiftDownWord len x c z => shiftDown len x z (fun _ carry => carry) c
  | .shiftUpBit len x c z => shiftUpOne len x c z
  | .gte len x y => fun m => (m, truth (notBelow m x y len))
  | .gteExt len xx yy => fun m => (m, truth (notBelow m xx yy (2 * len)))
  | .getBit len x bit => fun m => (m, bitAt len x bit m)
  | .inc len z zOff => rippleInc z zOff len
  | .incExt len zz zzOff => rippleInc zz zzOff (2 * len)
  | .dec len z zOff => rippleDec z zOff len

/-- Every meaning is the shared order of checks around its pseudocode. -/
theorem exec_eq_issue (i : Instr) (s : State) : exec i s = issue i (body i) s := by
  cases i <;> rfl

/-! ### The checks and the spec's tables -/

theorem disjoint_iff (a n b m : Nat) : Region.disjoint ⟨a, n⟩ ⟨b, m⟩ = true ↔ Apart a n b m := by
  simp [Region.disjoint]

theorem lengthLegal_iff (cfg : Config) (i : Instr) : lengthLegal cfg i = true ↔ LegalLength cfg (lenOf i) := by
  simp [lengthLegal]

/-- P1 to P9 as the meanings check them are P1 to P9 as rule R173 lists them. -/
theorem preconditionHolds_iff (cfg : Config) (i : Instr) : preconditionHolds cfg i = true ↔ Legal cfg i := by
  cases i <;>
    simp only [preconditionHolds, lengthLegal_iff, operandsInRange, aliasingAllowed, destination, sources,
      overlapAllowed, mayAlias, Legal, Region.disjoint, Region.exactAlias, List.all_cons, List.all_nil,
      Bool.and_eq_true, Bool.or_eq_true, decide_eq_true_eq, beq_iff_eq, Bool.false_and, Bool.true_and, Bool.and_true,
      Bool.or_false, effective, Nat.add_zero, and_true, Nat.add_one_le_iff] <;>
    simp only [lenOf] <;>
    tauto

theorem within_all {a n w : Nat} (hn : 1 ≤ n) : (∀ q, Within a n q → q < w) ↔ a + n ≤ w := by
  constructor
  · intro h
    have := h (a + n - 1) ⟨by omega, by omega⟩
    omega
  · intro h q hq
    omega

/-- A command of legal length is inside memory exactly when every word of its regions exists (rule R44, rule R45). -/
theorem regionsInside_iff (cfg : Config) (i : Instr) (h : Legal cfg i) :
    regionsInside cfg i = true ↔ AllInside cfg i := by
  have hlen : 1 ≤ lenOf i := by
    have := (preconditionHolds_iff cfg i).2 h
    simp only [preconditionHolds, lengthLegal_iff, Bool.and_eq_true] at this
    exact this.1.1.1
  have hlen2 : 1 ≤ 2 * lenOf i := by omega
  cases i <;> simp only [lenOf] at hlen hlen2 <;>
    simp only [regionsInside, sources, destination, AllInside, Reads, Writes, Region.inside, or_imp, forall_and,
      within_all hlen, within_all hlen2, List.all_nil, List.all_cons, Option.all_none, Option.all_some, Bool.and_true,
      Bool.true_and, Bool.and_eq_true, decide_eq_true_eq, false_imp_iff, true_and, and_true, effective, Nat.add_zero]

/-! ### Completion -/

/-- A legal command inside memory, in a unit that is not halted, completes with what its pseudocode leaves. -/
theorem exec_completes {i : Instr} {s : State} (h : s.fault = 0#4) (hl : Legal s.cfg i)
    (hin : regionsInside s.cfg i = true) : exec i s = .next (complete (body i s.mem) s) := by
  rw [exec_eq_issue, issue_completes h ((preconditionHolds_iff _ _).2 hl) hin]

/-- The frame of a command that stores, from what its pseudocode does to memory. -/
theorem completesOver_of_body {i : Instr} {s : State} {d n : Nat} {post : State → Prop} (m' : Memory) (r : Word)
    (h : s.fault = 0#4) (hl : Legal s.cfg i) (hin : regionsInside s.cfg i = true) (hb : body i s.mem = (m', r))
    (hsame : ∀ q, ¬ Within d n q → m'.read q = s.mem.read q) (hpost : post (complete (m', r) s)) :
    CompletesOver i s d n post :=
  ⟨complete (m', r) s, by rw [exec_completes h hl hin, hb], ⟨rfl, rfl, rfl, rfl, hsame⟩, hpost⟩

/-- The frame of a command that stores nothing. -/
theorem completesReading_of_body {i : Instr} {s : State} {v : Word} (h : s.fault = 0#4) (hl : Legal s.cfg i)
    (hin : regionsInside s.cfg i = true) (hb : body i s.mem = (s.mem, v)) : CompletesReading i s v := by
  rw [CompletesReading, exec_completes h hl hin, hb]
  rfl

end Sys2Proof.Machine
end

