-- ==== Sys2Proof/Laws/Multiply.lean ====
section
/-! SUPPORT. What the multiply engine does (rule R110 to rule R115): rows, the double-word window, the full product. -/

namespace Sys2Proof.Machine

/-- The exact product of two words is below `(2^32 - 1)^2 + 1` (rule R110). -/
theorem uint_mul_le (a b : Word) : 0 ≤ uint a * uint b ∧ uint a * uint b ≤ (2 ^ 32 - 1) * (2 ^ 32 - 1) := by
  have ha0 := uint_nonneg a; have hb0 := uint_nonneg b
  have ha := uint_lt a; have hb := uint_lt b
  exact ⟨mul_nonneg ha0 hb0, mul_le_mul (by omega) (by omega) hb0 (by norm_num)⟩

/-- A row that overwrites its window (rule R111). -/
theorem mulRow_spec {n y dst : Nat} {w : Word} {m : Memory} (hm : m.wf) (hy : y + n ≤ dst ∨ dst + n ≤ y) :
    ∃ m' r, mulRow n w y dst m = (m', r) ∧ m'.wf ∧ SameOutside dst n m m' ∧ r.toNat ≤ 2 ^ 32 - 2 ∧
      m'.val dst n + r.toNat * 2 ^ (32 * n) = w.toNat * m.val y n := by
  obtain ⟨m', c, he, hwf, hsame, h0, h1, hval⟩ := wordLoop_spec (n := n) (dst := dst) (m := m) (lo := 0)
    (hi := 2 ^ 32 - 2) (term := fun m i => uint w * uint (m.read (y + i))) hm
    (fun i hi m' h => by simp only [read_source (.inl hy) hi h])
    (fun i _ => by have := (uint_mul_le w (m.read (y + i))).1; omega)
    (fun i _ => by have := (uint_mul_le w (m.read (y + i))).2; omega)
    (by norm_num) (by norm_num)
  have hr := (lo32_natCast h0 (by omega)).2
  refine ⟨m', lo32 c, he, hwf, hsame, by omega, ?_⟩
  simp only [mul_assoc, ← Finset.mul_sum, ← val_eq_sum] at hval
  rw [← hr] at hval
  simp only [uint] at hval
  exact_mod_cast hval

/-- A row added into its window (rule R112, rule R115). -/
theorem mulAddRow_spec {n y dst : Nat} {w : Word} {m : Memory} (hm : m.wf) (hy : y + n ≤ dst ∨ dst + n ≤ y) :
    ∃ m' r, mulAddRow n w y dst m = (m', r) ∧ m'.wf ∧ SameOutside dst n m m' ∧
      m'.val dst n + r.toNat * 2 ^ (32 * n) = m.val dst n + w.toNat * m.val y n := by
  obtain ⟨m', c, he, hwf, hsame, h0, h1, hval⟩ := wordLoop_spec (n := n) (dst := dst) (m := m) (lo := 0)
    (hi := 2 ^ 32 - 1) (term := fun m i => uint w * uint (m.read (y + i)) + uint (m.read (dst + i))) hm
    (fun i hi m' h => by simp only [read_source (.inl hy) hi h, read_source (x := dst) (.inr rfl) hi h])
    (fun i _ => by
      have := (uint_mul_le w (m.read (y + i))).1; have := uint_nonneg (m.read (dst + i)); omega)
    (fun i _ => by
      have := (uint_mul_le w (m.read (y + i))).2; have := uint_lt (m.read (dst + i)); omega)
    (by norm_num) (by norm_num)
  have hr := (lo32_natCast h0 (by omega)).2
  refine ⟨m', lo32 c, he, hwf, hsame, ?_⟩
  simp only [add_mul, Finset.sum_add_distrib, mul_assoc, ← Finset.mul_sum, ← val_eq_sum] at hval
  rw [← hr] at hval
  simp only [uint] at hval
  have : (m'.val dst n : Int) + (lo32 c).toNat * 2 ^ (32 * n) = m.val dst n + w.toNat * m.val y n := by
    rw [hval]; ring
  exact_mod_cast this

/-- A double word is its two halves (rule R67). -/
theorem toNat_dword (v : BitVec 64) :
    (v.extractLsb' 0 32).toNat + (v.extractLsb' 32 32).toNat * 2 ^ 32 = v.toNat := by
  have := v.isLt
  simp only [BitVec.extractLsb'_toNat, Nat.shiftRight_eq_div_pow]
  omega

/-- The three-word window of rule R113: the whole 96-bit product is added, and the carry out is 0 or 1. -/
theorem mulDwordWindow_spec {x : Word} {y64 : BitVec 64} {a : Nat} {m : Memory} (hm : m.wf) :
    ∃ m' c, mulDwordWindow x y64 a m = (m', c) ∧ m'.wf ∧ SameOutside a 3 m m' ∧ (c = 0 ∨ c = 1) ∧
      (m'.val a 3 : Int) + c * 2 ^ 96 = m.val a 3 + x.toNat * y64.toNat := by
  have hp0 := uint_mul_le x (y64.extractLsb' 0 32)
  have hp1 := uint_mul_le x (y64.extractLsb' 32 32)
  have hz0 := uint_nonneg (m.read a); have hz0' := uint_lt (m.read a)
  have hz1 := uint_nonneg (m.read (a + 1)); have hz1' := uint_lt (m.read (a + 1))
  have hz2 := uint_nonneg (m.read (a + 2)); have hz2' := uint_lt (m.read (a + 2))
  have hr1 : ∀ v : Word, (m.write a v).read (a + 1) = m.read (a + 1) := fun v => read_write_other v (by omega)
  have hr2 : ∀ u v : Word, ((m.write a u).write (a + 1) v).read (a + 2) = m.read (a + 2) := fun u v => by
    rw [read_write_other v (by omega), read_write_other u (by omega)]
  simp only [mulDwordWindow, hr1, hr2]
  generalize hA0 : uint x * uint (y64.extractLsb' 0 32) + uint (m.read a) = acc0
  generalize hA1 : carryOf acc0 + uint x * uint (y64.extractLsb' 32 32) + uint (m.read (a + 1)) = acc1
  generalize hA2 : carryOf acc1 + uint (m.read (a + 2)) = acc2
  have hacc0 := uint_lo32_add_carry acc0
  have hacc1 := uint_lo32_add_carry acc1
  have hacc2 := uint_lo32_add_carry acc2
  have hc0 : 0 ≤ carryOf acc0 ∧ carryOf acc0 ≤ 2 ^ 32 - 1 := by unfold carryOf; omega
  have hc1 : 0 ≤ carryOf acc1 ∧ carryOf acc1 ≤ 2 ^ 32 - 1 := by unfold carryOf; omega
  have hwf0 := write_wf a (lo32 acc0) hm
  have hwf1 := write_wf (a + 1) (lo32 acc1) hwf0
  refine ⟨_, _, rfl, write_wf _ _ hwf1, ?_, ?_, ?_⟩
  · exact ((SameOutside.write _ (by omega) (by omega)).trans (SameOutside.write _ (by omega) (by omega))).trans
      (SameOutside.write _ (by omega) (by omega))
  · unfold carryOf at *; omega
  · have hd := toNat_dword y64
    have hd' : uint (y64.extractLsb' 0 32) + uint (y64.extractLsb' 32 32) * 2 ^ 32 = (y64.toNat : Int) := by
      simp only [uint]; exact_mod_cast hd
    have hxu : uint x = (x.toNat : Int) := rfl
    have e2 := read_write_same (a + 2) (lo32 acc2) hwf1
    have e1 : ((m.write a (lo32 acc0)).write (a + 1) (lo32 acc1) |>.write (a + 2) (lo32 acc2)).read (a + 1) =
        lo32 acc1 := by
      rw [read_write_other _ (by omega), read_write_same _ _ hwf0]
    have e0 : ((m.write a (lo32 acc0)).write (a + 1) (lo32 acc1) |>.write (a + 2) (lo32 acc2)).read a =
        lo32 acc0 := by
      rw [read_write_other _ (by omega), read_write_other _ (by omega), read_write_same _ _ hm]
    have hval3 : ∀ m : Memory, (m.val a 3 : Int) =
        uint (m.read a) + uint (m.read (a + 1)) * 2 ^ 32 + uint (m.read (a + 2)) * 2 ^ 64 := fun m => by
      simp [val_succ, uint]
    rw [hval3, hval3, e0, e1, e2, ← hd', ← hxu]
    linear_combination hacc0 + (2 : Int) ^ 32 * hacc1 + (2 : Int) ^ 64 * hacc2 - hA0 - (2 : Int) ^ 32 * hA1 -
      (2 : Int) ^ 64 * hA2

/-- Row 0 of the full product (rule R114). -/
theorem mulFirstRow_spec {len x y zz : Nat} {m : Memory} (hm : m.wf) (hlen : 1 ≤ len)
    (hy : y + len ≤ zz ∨ zz + 2 * len ≤ y) :
    (mulFirstRow len x y zz m).wf ∧ SameOutside zz (2 * len) m (mulFirstRow len x y zz m) ∧
      (mulFirstRow len x y zz m).val zz (1 + len) = m.val x 1 * m.val y len := by
  obtain ⟨m', r, he, hwf, hsame, -, hval⟩ := mulRow_spec (n := len) (y := y) (dst := zz) (w := m.read x) hm (by omega)
  simp only [mulFirstRow, he]
  refine ⟨write_wf _ _ hwf, ?_, ?_⟩
  · exact (hsame.mono (le_refl _) (by omega)).trans (SameOutside.write _ (by omega) (by omega))
  · have hkeep : (m'.write (zz + len) r).val zz len = m'.val zz len :=
      val_congr fun i hi => read_write_other _ (by omega)
    rw [Nat.add_comm 1 len, val_succ, hkeep, read_write_same _ _ hwf, val_one]
    exact hval

/-- The rows up to `i` of the full product (rule R114): "After row `i` the words `zz[0 .. i+len]` hold `val(x[0..i]) · Y`". -/
theorem mulRows_spec {len x y zz i : Nat} {m : Memory} (hm : m.wf) (hlen : 1 ≤ len) (hi : i < len)
    (hx : x + len ≤ zz ∨ zz + 2 * len ≤ x) (hy : y + len ≤ zz ∨ zz + 2 * len ≤ y) :
    (ascending i (fun j m => mulNextRow len x y zz (j + 1) m) (mulFirstRow len x y zz m)).wf ∧
      SameOutside zz (2 * len) m
        (ascending i (fun j m => mulNextRow len x y zz (j + 1) m) (mulFirstRow len x y zz m)) ∧
      (ascending i (fun j m => mulNextRow len x y zz (j + 1) m) (mulFirstRow len x y zz m)).val zz (i + 1 + len) =
        m.val x (i + 1) * m.val y len := by
  induction i with
  | zero =>
    have := mulFirstRow_spec (x := x) hm hlen hy
    simpa [ascending] using this
  | succ i ih =>
    obtain ⟨hwf, hsame, hval⟩ := ih (by omega)
    simp only [ascending]
    generalize ascending i (fun j m => mulNextRow len x y zz (j + 1) m) (mulFirstRow len x y zz m) = m1 at *
    obtain ⟨m2, r, he, hwf2, hsame2, hval2⟩ := mulAddRow_spec (n := len) (y := y) (dst := zz + (i + 1))
      (w := m1.read (x + (i + 1))) hwf (by omega)
    simp only [mulNextRow, he]
    have hxi : m1.read (x + (i + 1)) = m.read (x + (i + 1)) := hsame _ (by omega)
    have hyv : m1.val y len = m.val y len := hsame.val (by omega)
    refine ⟨write_wf _ _ hwf2, ?_, ?_⟩
    · exact (hsame.trans (hsame2.mono (by omega) (by omega))).trans (SameOutside.write _ (by omega) (by omega))
    · have hkeep : (m2.write (zz + (i + 1) + len) r).val (zz + (i + 1)) len = m2.val (zz + (i + 1)) len :=
        val_congr fun j hj => read_write_other _ (by omega)
      have hlow : (m2.write (zz + (i + 1) + len) r).val zz (i + 1) = m1.val zz (i + 1) :=
        val_congr fun j hj => by rw [read_write_other _ (by omega), hsame2 _ (by omega)]
      rw [Nat.add_right_comm (i + 1) 1 len, Nat.add_assoc (i + 1) len 1, val_append, val_succ _ (zz + (i + 1)) len,
        hkeep, hlow, read_write_same _ _ hwf2, hval2, hxi, hyv, val_succ m x (i + 1), Nat.add_mul, ← hval,
        val_append m1 zz (i + 1) len]
      ring

/-- The full product (rule R114). -/
theorem mulAll_spec {len x y zz : Nat} {m : Memory} (hm : m.wf) (hlen : 1 ≤ len)
    (hx : x + len ≤ zz ∨ zz + 2 * len ≤ x) (hy : y + len ≤ zz ∨ zz + 2 * len ≤ y) :
    (mulAll len x y zz m).wf ∧ SameOutside zz (2 * len) m (mulAll len x y zz m) ∧
      (mulAll len x y zz m).val zz (2 * len) = m.val x len * m.val y len := by
  have h := mulRows_spec (i := len - 1) hm hlen (by omega) hx hy
  rw [Nat.sub_add_cancel hlen, ← Nat.two_mul] at h
  exact h

end Sys2Proof.Machine
end

