-- ==== Sys2Proof/Laws/Shift.lean ====
section
/-! SUPPORT. What the shifts do (rule R130 to rule R134): one word, then the loops. -/

namespace Sys2Proof.Machine

/-! ### One word -/

/-- The top-aligned form of the low `b` bits of a word (rule R130). -/
theorem toNat_shl_top (c : Word) {b : Nat} (hb : b ≤ 32) : (shl c (32 - b)).toNat = c.toNat % 2 ^ b * 2 ^ (32 - b) := by
  rw [toNat_shl]
  have : 2 ^ 32 = 2 ^ b * 2 ^ (32 - b) := by rw [← pow_add, Nat.add_sub_cancel' hb]
  rw [this, Nat.mul_mod_mul_right]

/-- The top-aligned carry-in depends on the low bits of the word passed alone (rule R130, rule R135). -/
theorem shl_top_congr {c d : Word} {b : Nat} (hb : b ≤ 32) (h : c.toNat % 2 ^ b = d.toNat % 2 ^ b) :
    shl c (32 - b) = shl d (32 - b) :=
  BitVec.eq_of_toNat_eq (by rw [toNat_shl_top _ hb, toNat_shl_top _ hb, h])

/-- A word of a down shift: no bit is lost between the word, its carry-in and the bits shifted out (rule R131, rule R132). -/
theorem downWord_identity (next c : Word) {b : Nat} (hb : b ≤ 32) :
    (downWord b next c).toNat * 2 ^ b + next.toNat % 2 ^ b = next.toNat + c.toNat % 2 ^ b * 2 ^ 32 := by
  have hsplit : 2 ^ 32 = 2 ^ (32 - b) * 2 ^ b := by rw [← pow_add, Nat.sub_add_cancel hb]
  have hlow : (shr next b).toNat < 2 ^ (32 - b) := by
    rw [toNat_shr, Nat.div_lt_iff_lt_mul (Nat.two_pow_pos b), ← hsplit]
    exact next.isLt
  have hor : (downWord b next c).toNat = (shl c (32 - b)).toNat + (shr next b).toNat := by
    rw [downWord, BitVec.or_comm]
    exact toNat_or_of_split hlow ⟨c.toNat % 2 ^ b, by rw [toNat_shl_top c hb, Nat.mul_comm]⟩
  rw [hor, toNat_shl_top c hb, toNat_shr, hsplit]
  have := Nat.div_add_mod next.toNat (2 ^ b)
  nlinarith

/-- A word of the up shift (rule R134). -/
theorem upWord_identity (next c : Word) :
    (upWord next c).toNat + next.toNat / 2 ^ 31 * 2 ^ 32 = 2 * next.toNat + c.toNat / 2 ^ 31 := by
  have hc := c.isLt
  have hlow : (shr c 31).toNat < 2 ^ 1 := by rw [toNat_shr]; omega
  have hor : (upWord next c).toNat = (shl next 1).toNat + (shr c 31).toNat :=
    toNat_or_of_split hlow ⟨next.toNat % 2 ^ 31, by rw [toNat_shl]; omega⟩
  rw [hor, toNat_shl, toNat_shr]
  omega

/-! ### The loops -/

/-- A down shift word by word: word `i` of `z` is made from word `i` and word `i + 1` of the old `x`, the carry-in standing above
the top word; the carry-out is the old `x[0]` (rule R131 to rule R133). -/
theorem shiftDown_words {n x z : Nat} {combine : Word → Word → Word} {c : Word} {m : Memory} (hm : m.wf)
    (hx : (x + n ≤ z ∨ z + n ≤ x) ∨ x = z) :
    ∃ m' c', shiftDown n x z combine c m = (m', c') ∧ m'.wf ∧ SameOutside z n m m' ∧
      (c' = if n = 0 then c else m.read x) ∧
      ∀ i < n, m'.read (z + i) = combine (m.read (x + i)) (if i + 1 = n then c else m.read (x + (i + 1))) := by
  induction n generalizing c m with
  | zero => exact ⟨m, c, rfl, hm, SameOutside.refl _ _ _, rfl, by omega⟩
  | succ n ih =>
    have hwf := write_wf (z + n) (combine (m.read (x + n)) c) hm
    obtain ⟨m', c', he, hwf', hsame, hc, hwords⟩ := ih (c := m.read (x + n)) hwf (by omega)
    have hread : ∀ i, i ≠ n → i < n + 1 →
        (m.write (z + n) (combine (m.read (x + n)) c)).read (x + i) = m.read (x + i) :=
      fun i _ _ => read_write_other _ (by omega)
    refine ⟨m', c', ?_, hwf', ?_, ?_, ?_⟩
    · simpa [shiftDown, descending, shiftStep] using he
    · exact (SameOutside.write (d := z) (n := n + 1) _ (by omega) (by omega)).trans
        (hsame.mono (le_refl _) (by omega))
    · rw [hc, if_neg (Nat.succ_ne_zero n)]
      split
      · rename_i h0; rw [h0]; rfl
      · simpa using hread 0 (by omega) (by omega)
    · intro i hi
      rcases Nat.lt_succ_iff_lt_or_eq.1 hi with hi | rfl
      · rw [hwords i hi, hread i (by omega) (by omega), if_neg (by omega : ¬ i + 1 = n + 1)]
        split
        · rename_i h; rw [h]
        · rw [hread (i + 1) (by omega) (by omega)]
      · rw [hsame _ (by omega), read_write_same _ _ hm, if_pos rfl]

/-- The value law of the down shifts by `b` bits (rule R131, rule R132). -/
theorem shiftDown_val {n x z b : Nat} {c : Word} {m : Memory} (hm : m.wf) (hb : b ≤ 32)
    (hx : (x + n ≤ z ∨ z + n ≤ x) ∨ x = z) :
    ∃ m' c', shiftDown n x z (downWord b) c m = (m', c') ∧ m'.wf ∧ SameOutside z n m m' ∧
      (c' = if n = 0 then c else m.read x) ∧
      m'.val z n * 2 ^ b + c'.toNat % 2 ^ b = m.val x n + c.toNat % 2 ^ b * 2 ^ (32 * n) := by
  induction n generalizing c m with
  | zero => exact ⟨m, c, rfl, hm, SameOutside.refl _ _ _, rfl, by simp⟩
  | succ n ih =>
    have hwf := write_wf (z + n) (downWord b (m.read (x + n)) c) hm
    obtain ⟨m', c', he, hwf', hsame, hc, hval⟩ := ih (c := m.read (x + n)) hwf (by omega)
    have hread : ∀ i < n, (m.write (z + n) (downWord b (m.read (x + n)) c)).read (x + i) = m.read (x + i) :=
      fun i _ => read_write_other _ (by omega)
    refine ⟨m', c', ?_, hwf', ?_, ?_, ?_⟩
    · simpa [shiftDown, descending, shiftStep] using he
    · exact (SameOutside.write (d := z) (n := n + 1) _ (by omega) (by omega)).trans
        (hsame.mono (le_refl _) (by omega))
    · rw [hc, if_neg (Nat.succ_ne_zero n)]
      split
      · rename_i h0; rw [h0]; rfl
      · simpa using hread 0 (by omega)
    · rw [val_congr (m' := m) (b := x) hread] at hval
      rw [val_succ, val_succ, hsame (z + n) (by omega), read_write_same _ _ hm, Nat.mul_succ, pow_add]
      have hid := downWord_identity (m.read (x + n)) c hb
      calc _ = (m'.val z n * 2 ^ b + c'.toNat % 2 ^ b) +
            (downWord b (m.read (x + n)) c).toNat * 2 ^ b * 2 ^ (32 * n) := by ring
        _ = m.val x n + ((downWord b (m.read (x + n)) c).toNat * 2 ^ b +
            (m.read (x + n)).toNat % 2 ^ b) * 2 ^ (32 * n) := by rw [hval]; ring
        _ = _ := by rw [hid]; ring

/-- The value law of the up shift (rule R134). -/
theorem shiftUp_val {n x z : Nat} {c : Word} {m : Memory} (hm : m.wf)
    (hx : (x + n ≤ z ∨ z + n ≤ x) ∨ x = z) :
    ∃ m' c', shiftUp n x z upWord c m = (m', c') ∧ m'.wf ∧ SameOutside z n m m' ∧
      (c' = if n = 0 then c else m.read (x + (n - 1))) ∧
      m'.val z n + c'.toNat / 2 ^ 31 * 2 ^ (32 * n) = 2 * m.val x n + c.toNat / 2 ^ 31 := by
  suffices h : ∀ k ≤ n, ∃ m' c', ascending k (shiftStep x z upWord) (m, c) = (m', c') ∧ m'.wf ∧
      SameOutside z k m m' ∧ (c' = if k = 0 then c else m.read (x + (k - 1))) ∧
      m'.val z k + c'.toNat / 2 ^ 31 * 2 ^ (32 * k) = 2 * m.val x k + c.toNat / 2 ^ 31 from h n (le_refl _)
  intro k hk
  induction k with
  | zero => exact ⟨m, c, rfl, hm, SameOutside.refl _ _ _, rfl, by simp⟩
  | succ k ih =>
    obtain ⟨m', c', he, hwf, hsame, hc, hval⟩ := ih (by omega)
    have hread : m'.read (x + k) = m.read (x + k) := read_source hx (by omega) hsame
    refine ⟨m'.write (z + k) (upWord (m.read (x + k)) c'), m.read (x + k), ?_, write_wf _ _ hwf, ?_, ?_, ?_⟩
    · simp only [ascending, he, shiftStep, hread]
    · exact (hsame.mono (le_refl _) (by omega)).trans (SameOutside.write _ (by omega) (by omega))
    · simp
    · have hkeep : (m'.write (z + k) (upWord (m.read (x + k)) c')).val z k = m'.val z k :=
        val_congr fun i hi => read_write_other _ (by omega)
      rw [val_succ, val_succ, hkeep, read_write_same _ _ hwf, Nat.mul_succ, pow_add]
      have hid := upWord_identity (m.read (x + k)) c'
      calc _ = m'.val z k + ((upWord (m.read (x + k)) c').toNat +
            (m.read (x + k)).toNat / 2 ^ 31 * 2 ^ 32) * 2 ^ (32 * k) := by ring
        _ = (m'.val z k + c'.toNat / 2 ^ 31 * 2 ^ (32 * k)) + 2 * (m.read (x + k)).toNat * 2 ^ (32 * k) := by
            rw [hid]; ring
        _ = _ := by rw [hval]; ring

/-- A down shift by `b` bits of at least one word depends on the low `b` bits of the carry-in alone (rule R135). -/
theorem shiftDown_carry_congr {n x z b : Nat} {c d : Word} {m : Memory} (hn : 0 < n) (hb : b ≤ 32)
    (h : c.toNat % 2 ^ b = d.toNat % 2 ^ b) :
    shiftDown n x z (downWord b) c m = shiftDown n x z (downWord b) d m := by
  obtain ⟨n, rfl⟩ := Nat.exists_eq_succ_of_ne_zero hn.ne'
  simp [shiftDown, descending, shiftStep, downWord, shl_top_congr hb h]

end Sys2Proof.Machine
end

