-- ==== Sys2Proof/Laws/Square.lean ====
section
/-! SUPPORT. Why the three passes of rule R116 leave `X²` (rule R117). -/

namespace Sys2Proof.Machine

/-- The diagonal `D = Σ x_j² · 2^(64·j)` over the low `n` words (rule R117). -/
def diagonal (m : Memory) (x : Nat) : Nat → Nat
  | 0 => 0
  | n + 1 => diagonal m x n + (m.read (x + n)).toNat * (m.read (x + n)).toNat * 2 ^ (64 * n)

/-- The cross terms `C = Σ x_i · val(x, i) · 2^(32·i)` over the low `n` words (rule R117). -/
def crossSum (m : Memory) (x : Nat) : Nat → Nat
  | 0 => 0
  | n + 1 => crossSum m x n + (m.read (x + n)).toNat * m.val x n * 2 ^ (32 * n)

/-- `X² = D + 2·C` (rule R117). -/
theorem square_eq (m : Memory) (x n : Nat) : m.val x n * m.val x n = diagonal m x n + 2 * crossSum m x n := by
  induction n with
  | zero => rfl
  | succ n ih =>
    have h64 : 2 ^ (64 * n) = 2 ^ (32 * n) * 2 ^ (32 * n) := by rw [← pow_add]; congr 1; omega
    rw [val_succ, diagonal, crossSum, h64]
    calc _ = m.val x n * m.val x n + 2 * ((m.read (x + n)).toNat * m.val x n * 2 ^ (32 * n)) +
          (m.read (x + n)).toNat * (m.read (x + n)).toNat * (2 ^ (32 * n) * 2 ^ (32 * n)) := by ring
      _ = _ := by rw [ih]; ring

theorem diagonal_congr {m m' : Memory} {x n : Nat} (h : ∀ i < n, m'.read (x + i) = m.read (x + i)) :
    diagonal m' x n = diagonal m x n := by
  induction n with
  | zero => rfl
  | succ n ih => simp only [diagonal, ih fun i hi => h i (by omega), h n (by omega)]

/-- Bit 0 of `D` is bit 0 of `x[0]` (rule R117). -/
theorem diagonal_mod_two (m : Memory) (x : Nat) {n : Nat} (hn : 1 ≤ n) :
    diagonal m x n % 2 = (m.read x).toNat % 2 := by
  induction n, hn using Nat.le_induction with
  | base =>
    simp only [diagonal, Nat.zero_add, Nat.mul_zero, pow_zero, Nat.mul_one, Nat.add_zero]
    rcases Nat.mod_two_eq_zero_or_one (m.read x).toNat with h | h <;> simp [Nat.mul_mod, h]
  | succ n hn ih =>
    have : 2 ^ (64 * n) = 2 * 2 ^ (64 * n - 1) := by rw [← pow_succ']; congr 1; omega
    rw [diagonal, this, ← ih]
    generalize (m.read (x + n)).toNat * (m.read (x + n)).toNat = p
    have : p * (2 * 2 ^ (64 * n - 1)) = 2 * (p * 2 ^ (64 * n - 1)) := by ring
    omega

/-- A slot of the halved diagonal: the square `p` shifted right by one with the carry bit `c` on top (rule R116). -/
theorem diagonal_slot {c : Word} {p : Nat} (hc : c.toNat ≤ 1) (hp : p < 2 ^ 64) :
    (BitVec.ofNat 32 (bitField p 32 1)).toNat * 2 +
        (shl c 31 ||| BitVec.ofNat 32 (bitField p 63 33)).toNat * 2 ^ 33 +
        (BitVec.ofNat 32 (bitField p 0 0)).toNat =
      p + c.toNat * 2 ^ 64 := by
  have hlow : (BitVec.ofNat 32 (bitField p 63 33)).toNat < 2 ^ 31 := by
    simp only [BitVec.toNat_ofNat, bitField]; omega
  have hor := toNat_or_of_split (a := shl c 31) hlow ⟨c.toNat, by rw [toNat_shl]; omega⟩
  rw [hor, toNat_shl]
  simp only [BitVec.toNat_ofNat, bitField]
  omega

/-- Pass 1 of rule R116: twice what it leaves in `zz`, and the bit it drops, are the diagonal. -/
theorem squareDiagonal_spec {n x zz : Nat} {c : Word} {m : Memory} (hm : m.wf) (hc : c.toNat ≤ 1)
    (hx : x + n ≤ zz ∨ zz + 2 * n ≤ x) :
    ∃ m' c', descending n (diagonalStep x zz) (m, c) = (m', c') ∧ m'.wf ∧ SameOutside zz (2 * n) m m' ∧
      c'.toNat ≤ 1 ∧ m'.val zz (2 * n) * 2 + c'.toNat = diagonal m x n + c.toNat * 2 ^ (64 * n) := by
  induction n generalizing c m with
  | zero => exact ⟨m, c, rfl, hm, SameOutside.refl _ _ _, hc, by simp [diagonal]⟩
  | succ n ih =>
    generalize hw : (m.read (x + n)).toNat = w at *
    have hwlt : w < 2 ^ 32 := by rw [← hw]; exact (m.read (x + n)).isLt
    have hp : w * w < 2 ^ 64 := by nlinarith
    generalize hhi : shl c 31 ||| BitVec.ofNat 32 (bitField (w * w) 63 33) = vhi
    generalize hlo : BitVec.ofNat 32 (bitField (w * w) 32 1) = vlo
    generalize hbit : BitVec.ofNat 32 (bitField (w * w) 0 0) = b
    have hb : b.toNat ≤ 1 := by rw [← hbit]; simp only [BitVec.toNat_ofNat, bitField]; omega
    have hslot := diagonal_slot hc hp
    rw [hhi, hlo, hbit] at hslot
    have hwf1 := write_wf (zz + 2 * n + 1) vhi hm
    have hwf2 := write_wf (zz + 2 * n) vlo hwf1
    obtain ⟨m', c', he, hwf', hsame, hc', hval⟩ := ih hwf2 hb (by omega)
    refine ⟨m', c', ?_, hwf', ?_, hc', ?_⟩
    · simpa only [descending, diagonalStep, hw, hhi, hlo, hbit] using he
    · exact ((SameOutside.write (d := zz) (n := 2 * (n + 1)) _ (by omega) (by omega)).trans
        (SameOutside.write _ (by omega) (by omega))).trans (hsame.mono (le_refl _) (by omega))
    · have hd : diagonal ((m.write (zz + 2 * n + 1) vhi).write (zz + 2 * n) vlo) x n = diagonal m x n :=
        diagonal_congr fun i hi => by rw [read_write_other _ (by omega), read_write_other _ (by omega)]
      have e0 : m'.read (zz + 2 * n) = vlo := by rw [hsame _ (by omega), read_write_same _ _ hwf1]
      have e1 : m'.read (zz + (2 * n + 1)) = vhi := by
        rw [hsame _ (by omega), read_write_other _ (by omega), ← Nat.add_assoc, read_write_same _ _ hm]
      have h32 : 2 ^ (32 * (2 * n)) = 2 ^ (64 * n) := by congr 1; omega
      have h33 : 2 ^ (32 * (2 * n + 1)) = 2 ^ (64 * n) * 2 ^ 32 := by rw [← pow_add]; congr 1; omega
      have h64 : 2 ^ (64 * (n + 1)) = 2 ^ (64 * n) * 2 ^ 64 := by rw [← pow_add, Nat.mul_succ]
      rw [hd] at hval
      rw [show 2 * (n + 1) = 2 * n + 1 + 1 by omega, val_succ, val_succ, e0, e1, h32, h33, h64, diagonal, hw]
      calc _ = (m'.val zz (2 * n) * 2 + c'.toNat) + (vlo.toNat * 2 + vhi.toNat * 2 ^ 33) * 2 ^ (64 * n) := by ring
        _ = diagonal m x n + (vlo.toNat * 2 + vhi.toNat * 2 ^ 33 + b.toNat) * 2 ^ (64 * n) := by rw [hval]; ring
        _ = _ := by rw [hslot]; ring

/-- One step of pass 2 of rule R116 adds the cross terms of `i` and their carry, modulo the extended buffer. -/
theorem crossStep_spec {len x zz i : Nat} {m : Memory} (hm : m.wf) (hi : i < len)
    (hx : x + len ≤ zz ∨ zz + 2 * len ≤ x) :
    (crossStep len x zz i m).wf ∧ SameOutside zz (2 * len) m (crossStep len x zz i m) ∧
      ∃ r, (crossStep len x zz i m).val zz (2 * len) + r * 2 ^ (32 * (2 * len)) =
        m.val zz (2 * len) + (m.read (x + i)).toNat * m.val x i * 2 ^ (32 * i) := by
  obtain ⟨m1, r1, he1, hwf1, hsame1, hval1⟩ := mulAddRow_spec (n := i) (y := x) (dst := zz + i)
    (w := m.read (x + i)) hm (by omega)
  obtain ⟨m2, r2, he2, hwf2, hsame2, -, hval2⟩ := addWordAt_spec (len := len) (zz := zz) (zzOff := 2 * i)
    (x := r1) hwf1 (by omega)
  have hs : crossStep len x zz i m = m2 := by simp only [crossStep, crossTerms, he1, he2]
  rw [hs]
  refine ⟨hwf2, (hsame1.mono (by omega) (by omega)).trans (hsame2.mono (by omega) (by omega)), r2.toNat, ?_⟩
  rw [hval2]
  have hn : 2 * len = i + (i + (2 * len - 2 * i)) := by omega
  have hlow : m1.val zz i = m.val zz i := hsame1.val (by omega)
  have hhigh : m1.val (zz + i + i) (2 * len - 2 * i) = m.val (zz + i + i) (2 * len - 2 * i) :=
    hsame1.val (by omega)
  have h2 : 2 ^ (32 * (2 * i)) = 2 ^ (32 * i) * 2 ^ (32 * i) := by rw [← pow_add]; congr 1; omega
  rw [hn, val_append, val_append m1 (zz + i), val_append m zz, val_append m (zz + i), hlow, hhigh, h2]
  calc _ = m.val zz i + 2 ^ (32 * i) * (m1.val (zz + i) i + r1.toNat * 2 ^ (32 * i)) +
        2 ^ (32 * i) * (2 ^ (32 * i) * m.val (zz + i + i) (2 * len - 2 * i)) := by ring
    _ = _ := by rw [hval1]; ring

/-- Pass 2 of rule R116 up to `i` adds the cross terms of the words up to `i`, modulo the extended buffer. -/
theorem crossSteps_spec {len x zz i : Nat} {m : Memory} (hm : m.wf) (hi : i < len)
    (hx : x + len ≤ zz ∨ zz + 2 * len ≤ x) :
    (ascending i (fun j m => crossStep len x zz (j + 1) m) m).wf ∧
      SameOutside zz (2 * len) m (ascending i (fun j m => crossStep len x zz (j + 1) m) m) ∧
      ∃ r, (ascending i (fun j m => crossStep len x zz (j + 1) m) m).val zz (2 * len) + r * 2 ^ (32 * (2 * len)) =
        m.val zz (2 * len) + crossSum m x (i + 1) := by
  induction i with
  | zero => exact ⟨hm, SameOutside.refl _ _ _, 0, by simp [ascending, crossSum]⟩
  | succ i ih =>
    obtain ⟨hwf, hsame, r, hval⟩ := ih (by omega)
    simp only [ascending]
    generalize ascending i (fun j m => crossStep len x zz (j + 1) m) m = m1 at *
    obtain ⟨hwf', hsame', r', hval'⟩ := crossStep_spec (i := i + 1) hwf hi hx
    have hread : m1.read (x + (i + 1)) = m.read (x + (i + 1)) := hsame _ (by omega)
    have hxv : m1.val x (i + 1) = m.val x (i + 1) := hsame.val (by omega)
    refine ⟨hwf', hsame.trans hsame', r + r', ?_⟩
    rw [hread, hxv] at hval'
    rw [crossSum]
    calc _ = ((crossStep len x zz (i + 1) m1).val zz (2 * len) + r' * 2 ^ (32 * (2 * len))) +
          r * 2 ^ (32 * (2 * len)) := by ring
      _ = (m1.val zz (2 * len) + r * 2 ^ (32 * (2 * len))) +
          (m.read (x + (i + 1))).toNat * m.val x (i + 1) * 2 ^ (32 * (i + 1)) := by rw [hval']; ring
      _ = _ := by rw [hval]; ring

/-- The three passes leave the square of `X` (rule R116, rule R117). -/
theorem squareAll_spec {len x zz : Nat} {m : Memory} (hm : m.wf) (hlen : 1 ≤ len)
    (hx : x + len ≤ zz ∨ zz + 2 * len ≤ x) :
    (squareAll len x zz m).wf ∧ SameOutside zz (2 * len) m (squareAll len x zz m) ∧
      (squareAll len x zz m).val zz (2 * len) = m.val x len * m.val x len := by
  obtain ⟨m1, b, he1, hwf1, hsame1, hb, hval1⟩ := squareDiagonal_spec (n := len) (c := 0#32) hm (by simp) hx
  have hd : squareDiagonal len x zz m = m1 := by simp only [squareDiagonal, he1]
  obtain ⟨hwf2, hsame2, r2, hval2⟩ := crossSteps_spec (i := len - 1) hwf1 (by omega) hx
  rw [Nat.sub_add_cancel hlen] at hval2
  have hcr : ascending (len - 1) (fun j m => crossStep len x zz (j + 1) m) m1 = squareCross len x zz m1 := rfl
  rw [hcr] at hwf2 hsame2 hval2
  generalize hm2 : squareCross len x zz m1 = m2 at *
  obtain ⟨m3, c3, he3, hwf3, hsame3, -, hval3⟩ := shiftUp_val (n := 2 * len) (x := zz) (z := zz)
    (c := shl (m2.read x) 31) hwf2 (.inr rfl)
  have hs : squareAll len x zz m = m3 := by
    simp only [squareAll, hd, hm2, squareDouble, shiftUpOne, he3]
  rw [hs]
  have hsame : SameOutside zz (2 * len) m m3 := (hsame1.trans hsame2).trans hsame3
  refine ⟨hwf3, hsame, ?_⟩
  have hx2 : m2.read x = m.read x := (hsame1.trans hsame2) x (by omega)
  have hread1 : ∀ i < len, m1.read (x + i) = m.read (x + i) := fun i hi => hsame1 _ (by omega)
  have hcross : crossSum m1 x len = crossSum m x len := by
    have : ∀ k ≤ len, crossSum m1 x k = crossSum m x k := by
      intro k hk
      induction k with
      | zero => rfl
      | succ k ih =>
        rw [crossSum, crossSum, ih (by omega), hread1 k (by omega),
          val_congr (m' := m) (b := x) fun i hi => hread1 i (by omega)]
    exact this len (le_refl _)
  have hbit : (shl (m2.read x) 31).toNat / 2 ^ 31 = (m.read x).toNat % 2 := by
    rw [hx2, toNat_shl]; omega
  have hb2 : b.toNat = (m.read x).toNat % 2 := by
    have := diagonal_mod_two m x hlen
    simp only [BitVec.toNat_ofNat, Nat.zero_mod, Nat.zero_mul, Nat.add_zero] at hval1
    omega
  have hsq := square_eq m x len
  rw [hbit, ← hb2] at hval3
  rw [hcross] at hval2
  simp only [BitVec.toNat_ofNat, Nat.zero_mod, Nat.zero_mul, Nat.add_zero] at hval1
  have htotal : m3.val zz (2 * len) + (c3.toNat / 2 ^ 31 + 2 * r2) * 2 ^ (32 * (2 * len)) =
      m.val x len * m.val x len := by
    calc _ = (m3.val zz (2 * len) + c3.toNat / 2 ^ 31 * 2 ^ (32 * (2 * len))) +
          2 * (r2 * 2 ^ (32 * (2 * len))) := by ring
      _ = 2 * (m2.val zz (2 * len) + r2 * 2 ^ (32 * (2 * len))) + b.toNat := by rw [hval3]; ring
      _ = _ := by rw [hval2, hsq]; omega
  have hlt := val_lt m x len
  have hsqlt : m.val x len * m.val x len < 2 ^ (32 * (2 * len)) := by
    have : 2 ^ (32 * (2 * len)) = 2 ^ (32 * len) * 2 ^ (32 * len) := by rw [← pow_add]; congr 1; omega
    rw [this]
    exact Nat.mul_lt_mul'' hlt hlt
  have hzero : c3.toNat / 2 ^ 31 + 2 * r2 = 0 := by
    by_contra hne
    have : 1 * 2 ^ (32 * (2 * len)) ≤ (c3.toNat / 2 ^ 31 + 2 * r2) * 2 ^ (32 * (2 * len)) :=
      Nat.mul_le_mul_right _ (by omega)
    omega
  rw [hzero] at htotal
  simpa using htotal

end Sys2Proof.Machine
end

