-- ==== Sys2Proof/Laws/Agree.lean ====
section
/-! SUPPORT. What a pseudocode computes depends only on the words it reads (rule R45): run on two memories that agree on a set of
words, each shared operation that reads only words of the set leaves memories that agree on it and delivers the same word. -/

namespace Sys2Proof.Machine

/-- Two canonical memories that read the same at every word of `P`. -/
def Agree (P : Nat → Prop) (m m' : Memory) : Prop := m.wf ∧ m'.wf ∧ ∀ q, P q → m'.read q = m.read q

/-- Agreeing memories and the same delivered value. -/
def AgreeWith {α : Type} (P : Nat → Prop) (r r' : Memory × α) : Prop := Agree P r.1 r'.1 ∧ r'.2 = r.2

theorem Agree.read {P : Nat → Prop} {m m' : Memory} {q : Nat} (h : Agree P m m') (hq : P q) :
    m'.read q = m.read q := h.2.2 q hq

theorem Agree.write {P : Nat → Prop} {m m' : Memory} (h : Agree P m m') (a : Nat) (v : Word) :
    Agree P (m.write a v) (m'.write a v) := by
  refine ⟨write_wf a v h.1, write_wf a v h.2.1, fun q hq => ?_⟩
  rw [read_write _ _ _ h.1, read_write _ _ _ h.2.1, h.read hq]

theorem Agree.val {P : Nat → Prop} {m m' : Memory} {a n : Nat} (h : Agree P m m') (hp : ∀ i < n, P (a + i)) :
    m'.val a n = m.val a n := val_congr fun i hi => h.read (hp i hi)

/-- A relation that every turn of a loop keeps holds after the loop. -/
theorem ascending_rel {σ : Type} {R : σ → σ → Prop} {n : Nat} {b b' : Nat → σ → σ} {s s' : σ}
    (hb : ∀ i < n, ∀ t t', R t t' → R (b i t) (b' i t')) (h : R s s') : R (ascending n b s) (ascending n b' s') := by
  induction n with
  | zero => exact h
  | succ n ih => exact hb n (by omega) _ _ (ih fun i hi => hb i (by omega))

theorem descending_rel {σ : Type} {R : σ → σ → Prop} {n : Nat} {b b' : Nat → σ → σ} {s s' : σ}
    (hb : ∀ i < n, ∀ t t', R t t' → R (b i t) (b' i t')) (h : R s s') : R (descending n b s) (descending n b' s') := by
  induction n generalizing s s' with
  | zero => exact h
  | succ n ih => exact ih (fun i hi => hb i (by omega)) (hb n (by omega) _ _ h)

theorem zeroFill_agree {P : Nat → Prop} {m m' : Memory} (h : Agree P m m') (n a : Nat) :
    Agree P (zeroFill n a m) (zeroFill n a m') := ascending_rel (fun _ _ _ _ h => h.write _ _) h

theorem wordLoop_agree {P : Nat → Prop} {n dst : Nat} {term : Memory → Nat → Int} {m m' : Memory}
    (hterm : ∀ i < n, ∀ t t', Agree P t t' → term t' i = term t i) (h : Agree P m m') :
    AgreeWith P (wordLoop n dst term m) (wordLoop n dst term m') := by
  have hr : AgreeWith P (ascending n (wordStep dst term) (m, 0)) (ascending n (wordStep dst term) (m', 0)) := by
    refine ascending_rel (fun i hi t t' ht => ?_) ⟨h, rfl⟩
    simp only [AgreeWith, wordStep, ht.2, hterm i hi _ _ ht.1]
    exact ⟨ht.1.write _ _, trivial⟩
  exact ⟨hr.1, congrArg lo32 hr.2⟩

theorem shiftStep_agree {P : Nat → Prop} {x z i : Nat} {f : Word → Word → Word} {t t' : Memory × Word}
    (hx : P (x + i)) (h : AgreeWith P t t') : AgreeWith P (shiftStep x z f i t) (shiftStep x z f i t') := by
  simp only [AgreeWith, shiftStep, h.2, h.1.read hx]
  exact ⟨h.1.write _ _, trivial⟩

theorem shiftDown_agree {P : Nat → Prop} {n x z : Nat} {f : Word → Word → Word} {c c' : Word} {m m' : Memory}
    (hx : ∀ i < n, P (x + i)) (h : Agree P m m') (hc : c' = c) :
    AgreeWith P (shiftDown n x z f c m) (shiftDown n x z f c' m') :=
  descending_rel (fun i hi _ _ ht => shiftStep_agree (hx i hi) ht) ⟨h, hc⟩

theorem shiftUp_agree {P : Nat → Prop} {n x z : Nat} {f : Word → Word → Word} {c c' : Word} {m m' : Memory}
    (hx : ∀ i < n, P (x + i)) (h : Agree P m m') (hc : c' = c) :
    AgreeWith P (shiftUp n x z f c m) (shiftUp n x z f c' m') :=
  ascending_rel (fun i hi _ _ ht => shiftStep_agree (hx i hi) ht) ⟨h, hc⟩

theorem shiftUpOne_agree {P : Nat → Prop} {n x z : Nat} {c c' : Word} {m m' : Memory}
    (hx : ∀ i < n, P (x + i)) (h : Agree P m m') (hc : c' = c) :
    AgreeWith P (shiftUpOne n x c z m) (shiftUpOne n x c' z m') := by
  have hr := shiftUp_agree (z := z) (f := upWord) hx h hc
  exact ⟨hr.1, congrArg (shr · 31) hr.2⟩

theorem rippleIncWords_agree {P : Nat → Prop} {n a : Nat} {m m' : Memory} (hp : ∀ i < n, P (a + i))
    (h : Agree P m m') : AgreeWith P (rippleIncWords n a m) (rippleIncWords n a m') := by
  induction n generalizing a m m' with
  | zero => exact ⟨h, rfl⟩
  | succ n ih =>
    have hr := h.read (hp 0 (by omega))
    rw [Nat.add_zero] at hr
    simp only [rippleIncWords, hr]
    split
    · exact ⟨h.write _ _, rfl⟩
    · exact ih (fun i hi => by rw [Nat.add_assoc, Nat.add_comm 1]; exact hp (i + 1) (by omega)) (h.write _ _)

theorem rippleDecWords_agree {P : Nat → Prop} {n a : Nat} {m m' : Memory} (hp : ∀ i < n, P (a + i))
    (h : Agree P m m') : AgreeWith P (rippleDecWords n a m) (rippleDecWords n a m') := by
  induction n generalizing a m m' with
  | zero => exact ⟨h, rfl⟩
  | succ n ih =>
    have hr := h.read (hp 0 (by omega))
    rw [Nat.add_zero] at hr
    simp only [rippleDecWords, hr]
    split
    · exact ⟨h.write _ _, rfl⟩
    · exact ih (fun i hi => by rw [Nat.add_assoc, Nat.add_comm 1]; exact hp (i + 1) (by omega)) (h.write _ _)

theorem rippleInc_agree {P : Nat → Prop} {base start top : Nat} {m m' : Memory}
    (hp : ∀ i < top, P (base + i)) (h : Agree P m m') :
    AgreeWith P (rippleInc base start top m) (rippleInc base start top m') :=
  rippleIncWords_agree (fun i hi => by
    have := hp (start + i) (by omega)
    rwa [← Nat.add_assoc] at this) h

theorem rippleDec_agree {P : Nat → Prop} {base start top : Nat} {m m' : Memory}
    (hp : ∀ i < top, P (base + i)) (h : Agree P m m') :
    AgreeWith P (rippleDec base start top m) (rippleDec base start top m') :=
  rippleDecWords_agree (fun i hi => by
    have := hp (start + i) (by omega)
    rwa [← Nat.add_assoc] at this) h

theorem addWordAt_agree {P : Nat → Prop} {len zz zzOff : Nat} {x x' : Word} {m m' : Memory}
    (hp : ∀ i < 2 * len, P (zz + i)) (ho : zzOff < 2 * len) (h : Agree P m m') (hx : x' = x) :
    AgreeWith P (addWordAt len x zz zzOff m) (addWordAt len x' zz zzOff m') := by
  subst hx
  rw [addWordAt_eq, addWordAt_eq, h.read (hp zzOff ho)]
  split
  · exact ⟨h.write _ _, rfl⟩
  · exact rippleInc_agree hp (h.write _ _)

theorem mulRow_agree {P : Nat → Prop} {n y dst : Nat} {w w' : Word} {m m' : Memory} (hy : ∀ i < n, P (y + i))
    (h : Agree P m m') (hw : w' = w) : AgreeWith P (mulRow n w y dst m) (mulRow n w' y dst m') := by
  subst hw
  exact wordLoop_agree (fun i hi t t' ht => by simp only [ht.read (hy i hi)]) h

theorem mulAddRow_agree {P : Nat → Prop} {n y dst : Nat} {w w' : Word} {m m' : Memory} (hy : ∀ i < n, P (y + i))
    (hd : ∀ i < n, P (dst + i)) (h : Agree P m m') (hw : w' = w) :
    AgreeWith P (mulAddRow n w y dst m) (mulAddRow n w' y dst m') := by
  subst hw
  exact wordLoop_agree (fun i hi t t' ht => by simp only [ht.read (hy i hi), ht.read (hd i hi)]) h

theorem mulDwordWindow_agree {P : Nat → Prop} {x : Word} {y64 : BitVec 64} {a : Nat} {m m' : Memory}
    (hp : ∀ i < 3, P (a + i)) (h : Agree P m m') :
    AgreeWith P (mulDwordWindow x y64 a m) (mulDwordWindow x y64 a m') := by
  have h0 := h.read (hp 0 (by omega))
  rw [Nat.add_zero] at h0
  simp only [mulDwordWindow, h0]
  have h1 := h.write a (lo32 (uint x * uint (y64.extractLsb' 0 32) + uint (m.read a)))
  rw [h1.read (hp 1 (by omega))]
  generalize lo32 (carryOf _ + _ + _) = v
  have h2 := h1.write (a + 1) v
  rw [h2.read (hp 2 (by omega))]
  exact ⟨h2.write _ _, rfl⟩

theorem mulAll_agree {P : Nat → Prop} {len x y zz : Nat} {m m' : Memory} (hlen : 1 ≤ len)
    (hx : ∀ i < len, P (x + i)) (hy : ∀ i < len, P (y + i)) (hz : ∀ i < 2 * len, P (zz + i)) (h : Agree P m m') :
    Agree P (mulAll len x y zz m) (mulAll len x y zz m') := by
  have h0 := h.read (hx 0 (by omega))
  rw [Nat.add_zero] at h0
  refine ascending_rel (R := Agree P) (fun i hi t t' ht => ?_) ?_
  · have hr := mulAddRow_agree (n := len) (y := y) (dst := zz + (i + 1)) hy
      (fun j hj => by rw [Nat.add_assoc]; exact hz _ (by omega)) ht (ht.read (hx (i + 1) (by omega)))
    simp only [mulNextRow, hr.2]
    exact hr.1.write _ _
  · have hr := mulRow_agree (n := len) (y := y) (dst := zz) hy h h0
    simp only [mulFirstRow, hr.2]
    exact hr.1.write _ _

theorem crossTerms_agree {P : Nat → Prop} {x xPos zz : Nat} {m m' : Memory} (hx : ∀ i < xPos + 1, P (x + i))
    (hz : ∀ i < 2 * xPos, P (zz + i)) (h : Agree P m m') :
    AgreeWith P (crossTerms x xPos zz m) (crossTerms x xPos zz m') :=
  mulAddRow_agree (fun i hi => hx i (by omega)) (fun i hi => by rw [Nat.add_assoc]; exact hz _ (by omega)) h
    (h.read (hx xPos (by omega)))

theorem squareAll_agree {P : Nat → Prop} {len x zz : Nat} {m m' : Memory} (hlen : 1 ≤ len)
    (hx : ∀ i < len, P (x + i)) (hz : ∀ i < 2 * len, P (zz + i)) (h : Agree P m m') :
    Agree P (squareAll len x zz m) (squareAll len x zz m') := by
  have h1 : Agree P (squareDiagonal len x zz m) (squareDiagonal len x zz m') := by
    have hr : AgreeWith P (descending len (diagonalStep x zz) (m, 0#32))
        (descending len (diagonalStep x zz) (m', 0#32)) := by
      refine descending_rel (fun i hi t t' ht => ?_) ⟨h, rfl⟩
      simp only [AgreeWith, diagonalStep, ht.2, ht.1.read (hx i hi)]
      exact ⟨(ht.1.write _ _).write _ _, trivial⟩
    exact hr.1
  have h2 : Agree P (squareCross len x zz (squareDiagonal len x zz m))
      (squareCross len x zz (squareDiagonal len x zz m')) := by
    refine ascending_rel (R := Agree P) (fun i hi t t' ht => ?_) h1
    have hr := crossTerms_agree (x := x) (xPos := i + 1) (zz := zz) (fun j hj => hx j (by omega))
      (fun j hj => hz j (by omega)) ht
    exact (addWordAt_agree hz (by omega) hr.1 hr.2).1
  have h0 := h2.read (hx 0 (by omega))
  rw [Nat.add_zero] at h0
  exact (shiftUpOne_agree hz h2 (by rw [h0])).1

theorem allZero_agree {P : Nat → Prop} {m m' : Memory} {a n : Nat} (h : Agree P m m') (hp : ∀ i < n, P (a + i)) :
    allZero m' a n = allZero m a n := by
  rw [Bool.eq_iff_iff, allZero_iff, allZero_iff, h.val hp]

theorem notBelow_agree {P : Nat → Prop} {m m' : Memory} {x y n : Nat} (h : Agree P m m')
    (hx : ∀ i < n, P (x + i)) (hy : ∀ i < n, P (y + i)) : notBelow m' x y n = notBelow m x y n := by
  rw [Bool.eq_iff_iff, notBelow_iff, notBelow_iff, h.val hx, h.val hy]

theorem bitAt_agree {P : Nat → Prop} {m m' : Memory} {len x : Nat} {bit : Word} (h : Agree P m m')
    (hx : ∀ i < len, P (x + i)) : bitAt len x bit m' = bitAt len x bit m := by
  apply BitVec.eq_of_toNat_eq
  rw [bitAt_spec, bitAt_spec, h.val hx]

theorem body_shiftDownBit (len x : Nat) (c : Word) (z : Nat) (m : Memory) :
    body (.shiftDownBit len x c z) m =
      ((shiftDown len x z (downWord 1) c m).1, shl (shiftDown len x z (downWord 1) c m).2 31) := rfl

/-- The pseudocode of a legal command depends on no word outside its regions (rule R45). -/
theorem body_agree {cfg : Config} {i : Instr} {P : Nat → Prop} {m m' : Memory} (hl : Legal cfg i) (h : Agree P m m')
    (hR : ∀ q, Reads i q → P q) (hW : ∀ q, Writes i q → P q) : AgreeWith P (body i m) (body i m') := by
  cases i with
  | create len z => exact ⟨zeroFill_agree h _ _, rfl⟩
  | createExt len zz => exact ⟨zeroFill_agree h _ _, rfl⟩
  | zero len z => exact ⟨zeroFill_agree h _ _, rfl⟩
  | isZero len x => exact ⟨h, congrArg truth (allZero_agree h fun i hi => hR _ ⟨by omega, by omega⟩)⟩
  | isZeroExt len xx => exact ⟨h, congrArg truth (allZero_agree h fun i hi => hR _ ⟨by omega, by omega⟩)⟩
  | isOne len x =>
    have := hl.1
    refine ⟨h, ?_⟩
    simp only [body]
    rw [h.read (q := x) (hR x ⟨by omega, by omega⟩), allZero_agree h fun i hi => hR _ ⟨by omega, by omega⟩]
  | add len x y z =>
    exact wordLoop_agree (fun i hi t t' ht => by
      rw [ht.read (hR (x + i) (.inl ⟨by omega, by omega⟩)), ht.read (hR (y + i) (.inr ⟨by omega, by omega⟩))]) h
  | addExt len x y z =>
    exact wordLoop_agree (fun i hi t t' ht => by
      rw [ht.read (hR (x + i) (.inl ⟨by omega, by omega⟩)), ht.read (hR (y + i) (.inr ⟨by omega, by omega⟩))]) h
  | sub len x y z =>
    exact wordLoop_agree (fun i hi t t' ht => by
      rw [ht.read (hR (x + i) (.inl ⟨by omega, by omega⟩)), ht.read (hR (y + i) (.inr ⟨by omega, by omega⟩))]) h
  | subExt len x y z =>
    exact wordLoop_agree (fun i hi t t' ht => by
      rw [ht.read (hR (x + i) (.inl ⟨by omega, by omega⟩)), ht.read (hR (y + i) (.inr ⟨by omega, by omega⟩))]) h
  | addBothTo len x y z =>
    exact wordLoop_agree (fun i hi t t' ht => by
      rw [ht.read (hR (x + i) (.inl ⟨by omega, by omega⟩)), ht.read (hR (y + i) (.inr ⟨by omega, by omega⟩)),
        ht.read (hW (z + i) ⟨by omega, by omega⟩)]) h
  | subBothFrom len x y z =>
    exact wordLoop_agree (fun i hi t t' ht => by
      rw [ht.read (hR (x + i) (.inl ⟨by omega, by omega⟩)), ht.read (hR (y + i) (.inr ⟨by omega, by omega⟩)),
        ht.read (hW (z + i) ⟨by omega, by omega⟩)]) h
  | addToExt len x xOff zz zzOff =>
    exact wordLoop_agree (fun i hi t t' ht => by
      rw [ht.read (hR (x + xOff + i) ⟨by omega, by omega⟩), ht.read (hW (zz + zzOff + i) ⟨by omega, by omega⟩)]) h
  | subFromExt len x xOff zz zzOff =>
    exact wordLoop_agree (fun i hi t t' ht => by
      rw [ht.read (hR (x + xOff + i) ⟨by omega, by omega⟩), ht.read (hW (zz + zzOff + i) ⟨by omega, by omega⟩)]) h
  | addWordExt len x zz zzOff => exact addWordAt_agree (fun i hi => hW _ ⟨by omega, by omega⟩) hl.2 h rfl
  | mulWordExt len x y zz zzOff => exact mulRow_agree (fun i hi => hR _ ⟨by omega, by omega⟩) h rfl
  | mulWordAddExt len x y yyOff zz zzOff =>
    exact mulAddRow_agree (y := y + yyOff) (dst := zz + zzOff) (fun i hi => hR _ ⟨by omega, by omega⟩)
      (fun i hi => hW _ ⟨by omega, by omega⟩) h rfl
  | mulWordDwordAdd len x y64 z zOff =>
    have := hl.2
    have hr := mulDwordWindow_agree (x := x) (y64 := y64) (a := z + zOff)
      (fun i hi => hW _ ⟨by omega, by omega⟩) h
    simp only [body, effective, Nat.add_zero, hr.2]
    split
    · exact ⟨hr.1, rfl⟩
    · exact rippleInc_agree (fun i hi => hW _ ⟨by omega, by omega⟩) hr.1
  | mul len x y zz =>
    exact ⟨mulAll_agree hl.1.1 (fun i hi => hR _ (.inl ⟨by omega, by omega⟩))
      (fun i hi => hR _ (.inr ⟨by omega, by omega⟩)) (fun i hi => hW _ ⟨by omega, by omega⟩) h, rfl⟩
  | squareWordAddExt len x xPos zz =>
    have := hl.2.2.1
    exact crossTerms_agree (fun i hi => hR _ ⟨by omega, by omega⟩) (fun i hi => hW _ ⟨by omega, by omega⟩) h
  | square len x zz =>
    exact ⟨squareAll_agree hl.1.1 (fun i hi => hR _ ⟨by omega, by omega⟩)
      (fun i hi => hW _ ⟨by omega, by omega⟩) h, rfl⟩
  | shiftDownBit len x c z =>
    have hr := shiftDown_agree (n := len) (z := z) (f := downWord 1) (c := c)
      (fun i hi => hR (x + i) ⟨by omega, by omega⟩) h rfl
    rw [body_shiftDownBit, body_shiftDownBit, hr.2]
    exact ⟨hr.1, rfl⟩
  | shiftDownBits len x bits c z =>
    have hr := shiftDown_agree (n := len) (z := z) (f := downWord bits) (c := c)
      (fun i hi => hR (x + i) ⟨by omega, by omega⟩) h rfl
    simp only [body, AgreeWith, hr.2]
    exact ⟨hr.1, trivial⟩
  | shiftDownWord len x c z => exact shiftDown_agree (fun i hi => hR (x + i) ⟨by omega, by omega⟩) h rfl
  | shiftUpBit len x c z => exact shiftUpOne_agree (fun i hi => hR (x + i) ⟨by omega, by omega⟩) h rfl
  | gte len x y =>
    exact ⟨h, congrArg truth (notBelow_agree h (fun i hi => hR _ (.inl ⟨by omega, by omega⟩))
      (fun i hi => hR _ (.inr ⟨by omega, by omega⟩)))⟩
  | gteExt len xx yy =>
    exact ⟨h, congrArg truth (notBelow_agree h (fun i hi => hR _ (.inl ⟨by omega, by omega⟩))
      (fun i hi => hR _ (.inr ⟨by omega, by omega⟩)))⟩
  | getBit len x bit => exact ⟨h, bitAt_agree h (fun i hi => hR _ ⟨by omega, by omega⟩)⟩
  | inc len z zOff => exact rippleInc_agree (fun i hi => hW _ ⟨by omega, by omega⟩) h
  | incExt len zz zzOff => exact rippleInc_agree (fun i hi => hW _ ⟨by omega, by omega⟩) h
  | dec len z zOff => exact rippleDec_agree (fun i hi => hW _ ⟨by omega, by omega⟩) h

end Sys2Proof.Machine
end

