-- ==== Sys2Proof/Laws/Conversion.lean ====
section
/-! SUPPORT. What the conversion boundary does to memory and reads from it (rule R161, rule R162), in terms of buffer values, and what
the host's moves that can fail answer. -/

namespace Sys2Proof.Machine

/-- The words put are the value, modulo `2^(32·n)`. -/
theorem putWords_spec (a v n : Nat) (m : Memory) (hm : m.wf) :
    (putWords a v n m).wf ∧ SameOutside a n m (putWords a v n m) ∧
      (putWords a v n m).val a n = v % 2 ^ (32 * n) := by
  induction n with
  | zero => exact ⟨hm, SameOutside.refl _ _ _, by simp [Memory.val, Nat.mod_one]⟩
  | succ n ih =>
    obtain ⟨h1, h2, h3⟩ := ih
    refine ⟨write_wf _ _ h1, (h2.mono le_rfl (by omega)).trans (SameOutside.write _ (by omega) (by omega)), ?_⟩
    have e : putWords a v (n + 1) m = (putWords a v n m).write (a + n) (BitVec.ofNat 32 (v / 2 ^ (32 * n))) := rfl
    have hkeep : ((putWords a v n m).write (a + n) (BitVec.ofNat 32 (v / 2 ^ (32 * n)))).val a n =
        (putWords a v n m).val a n := val_congr fun i hi => read_write_other _ (by omega)
    rw [e, val_succ, read_write_same _ _ h1, hkeep, h3, Nat.mul_succ, pow_add, Nat.mod_mul, BitVec.toNat_ofNat,
      Nat.mul_comm (2 ^ (32 * n))]

theorem integerOfBytes_foldl (l : List Byte) (v : Nat) :
    l.foldl (fun v b => v * 256 + b.toNat) v = v * 256 ^ l.length + integerOfBytes l := by
  induction l generalizing v with
  | nil => simp [integerOfBytes]
  | cons b l ih =>
    simp only [integerOfBytes, List.foldl_cons, List.length_cons, pow_succ]
    rw [ih, ih (0 * 256 + b.toNat)]
    ring

theorem length_bigEndianBytes (m : Memory) (x n : Nat) : (bigEndianBytes m x n).length = 4 * n := by
  induction n with
  | zero => rfl
  | succ n ih => simp only [bigEndianBytes, List.length_append, ih, littleBytes, List.length_reverse]; simp; omega

/-- The four bytes of a word, most significant first, are the word. -/
theorem integerOfBytes_word (w : Word) : integerOfBytes (littleBytes w).reverse = w.toNat := by
  have := w.isLt
  simp only [integerOfBytes, littleBytes, List.reverse_cons, List.reverse_nil, List.nil_append, List.cons_append,
    List.foldl_cons, List.foldl_nil, BitVec.extractLsb'_toNat, Nat.shiftRight_eq_div_pow]
  omega

/-- The big-endian byte string of a buffer is its value (rule R162). -/
theorem integerOfBytes_bigEndianBytes (m : Memory) (x n : Nat) :
    integerOfBytes (bigEndianBytes m x n) = m.val x n := by
  induction n with
  | zero => rfl
  | succ n ih =>
    have h : integerOfBytes ((littleBytes (m.read (x + n))).reverse ++ bigEndianBytes m x n) =
        integerOfBytes (littleBytes (m.read (x + n))).reverse * 256 ^ (bigEndianBytes m x n).length +
          integerOfBytes (bigEndianBytes m x n) := by
      rw [← integerOfBytes_foldl]
      simp only [integerOfBytes, List.foldl_append]
    rw [bigEndianBytes, h, ih, integerOfBytes_word, length_bigEndianBytes, val_succ, show (256 : Nat) = 2 ^ 8 by rfl,
      ← pow_mul, Nat.add_comm]
    congr 3
    omega

/-- `fromBigInteger` succeeds exactly on a value and a region that fit, and then changes memory alone (rule R161). -/
theorem fromBigInteger_eq_ok_iff {len a : Nat} {value : Int} {s t : State} :
    fromBigInteger len value a s = .ok t ↔
      0 ≤ value ∧ value < 2 ^ (32 * len) ∧ a + len ≤ s.cfg.memWords ∧
        t = { s with mem := putWords a value.toNat len s.mem } := by
  unfold fromBigInteger
  split
  · simp; omega
  · split
    · simp; omega
    · rw [Except.ok.injEq, eq_comm]
      exact ⟨fun h => ⟨by omega, by omega, by omega, h⟩, fun h => h.2.2.2⟩

/-- `hostWrite` succeeds exactly on a word that exists, and then changes that word alone (rule R52). -/
theorem hostWrite_eq_ok_iff {a : Nat} {v : Word} {s t : State} :
    hostWrite a v s = .ok t ↔ a < s.cfg.memWords ∧ t = { s with mem := s.mem.write a v } := by
  unfold hostWrite
  split <;> simp [*, eq_comm]

end Sys2Proof.Machine
end

