-- ==== Sys2Proof/Laws/Encoding.lean ====
section
/-! SUPPORT. The small laws of packet fields and of the packet as one number (rule R60). -/

namespace Sys2Proof

/-- A number that fits a packet field comes back from it. -/
theorem toNat_field {n : Nat} (h : fitsField n = true) : (field n).toNat = n := by
  simp only [fitsField, decide_eq_true_eq] at h
  simp only [field, BitVec.toNat_ofNat]
  exact Nat.mod_eq_of_lt h

theorem fitsField_toNat (w : Word) : fitsField w.toNat = true := by
  simp only [fitsField, decide_eq_true_eq]
  exact w.isLt

/-- The two halves of a double word make it up again (rule R67). -/
theorem dword_halves (v : BitVec 64) : v.extractLsb' 32 32 ++ v.extractLsb' 0 32 = v := by
  apply BitVec.eq_of_toNat_eq
  have := v.isLt
  rw [BitVec.toNat_append, ← Nat.shiftLeft_add_eq_or_of_lt (BitVec.isLt _)]
  simp only [BitVec.extractLsb'_toNat, Nat.shiftRight_eq_div_pow, Nat.shiftLeft_eq]
  omega

theorem dropFields_eq (j w : Nat) : dropFields j w = w / 2 ^ (32 * j) := by
  induction j generalizing w with
  | zero => simp [dropFields]
  | succ j ih => rw [dropFields, ih, Nat.div_div_eq_div_mul, ← pow_add, Nat.mul_succ, Nat.add_comm]

/-- Every field but those cut off by `nbits` is the 32 bits of the number at its place (rule R60). -/
theorem fieldOfBits_eq (w j : Nat) (hj : j ≤ 10) : fieldOfBits 352 w j = BitVec.ofNat 32 (w / 2 ^ (32 * j)) := by
  rw [fieldOfBits, dropFields_eq, Nat.min_eq_left (by omega)]
  apply BitVec.eq_of_toNat_eq
  rw [BitVec.toNat_ofNat, BitVec.toNat_ofNat, Nat.mod_mod]

/-- `n` consecutive fields of a number, from field `k` on, are its bits `32·k .. 32·(k+n)-1`. -/
theorem bitsOfWords_fields (w k n : Nat) :
    bitsOfWords ((List.range' k n).map fun j => BitVec.ofNat 32 (w / 2 ^ (32 * j))) =
      w / 2 ^ (32 * k) % 2 ^ (32 * n) := by
  induction n generalizing k with
  | zero => simp [bitsOfWords, Nat.mod_one]
  | succ n ih =>
    rw [List.range'_succ, List.map_cons, bitsOfWords, ih, Nat.mul_succ 32 n, Nat.add_comm (32 * n), pow_add,
      Nat.mod_mul, Nat.div_div_eq_div_mul, ← pow_add, Nat.mul_succ, BitVec.toNat_ofNat]

theorem bitsOfWords_lt (ws : List Word) : bitsOfWords ws < 2 ^ (32 * ws.length) := by
  induction ws with
  | nil => simp [bitsOfWords]
  | cons w ws ih =>
    have := w.isLt
    rw [bitsOfWords, List.length_cons, Nat.mul_succ, Nat.add_comm, pow_add]
    omega

end Sys2Proof
end

