-- ==== Sys2Proof/Laws/Frame.lean ====
section
/-! SUPPORT. The frame of every pseudocode (rule R45): under its preconditions a command keeps memory canonical and writes no word
outside its region marked W. -/

namespace Sys2Proof.Machine

/-- The pseudocode of a legal command keeps memory canonical and changes no word outside its W region. -/
theorem body_frame {cfg : Config} {i : Instr} {m : Memory} (hm : m.wf) (hl : Legal cfg i) :
    (body i m).1.wf ∧ ∀ q, ¬ Writes i q → (body i m).1.read q = m.read q := by
  cases i with
  | create len z => exact ⟨(zeroFill_spec len z m hm).1, (zeroFill_spec len z m hm).2.1⟩
  | createExt len zz => exact ⟨(zeroFill_spec (2 * len) zz m hm).1, (zeroFill_spec (2 * len) zz m hm).2.1⟩
  | zero len z => exact ⟨(zeroFill_spec len z m hm).1, (zeroFill_spec len z m hm).2.1⟩
  | isZero => exact ⟨hm, fun _ _ => rfl⟩
  | isZeroExt => exact ⟨hm, fun _ _ => rfl⟩
  | isOne => exact ⟨hm, fun _ _ => rfl⟩
  | gte => exact ⟨hm, fun _ _ => rfl⟩
  | gteExt => exact ⟨hm, fun _ _ => rfl⟩
  | getBit => exact ⟨hm, fun _ _ => rfl⟩
  | add len x y z =>
    obtain ⟨m', r, he, hwf, hs, -⟩ := addLoop_spec (n := len) hm hl.2.1 hl.2.2
    simp only [body, he]
    exact ⟨hwf, hs⟩
  | addBothTo len x y z =>
    obtain ⟨m', r, he, hwf, hs, -⟩ := addBothLoop_spec (n := len) hm hl.2.1 hl.2.2
    simp only [body, he]
    exact ⟨hwf, hs⟩
  | addExt len x y z =>
    obtain ⟨m', r, he, hwf, hs, -⟩ := addLoop_spec (n := 2 * len) hm hl.2.1 hl.2.2
    simp only [body, he]
    exact ⟨hwf, hs⟩
  | addToExt len x xOff zz zzOff =>
    obtain ⟨m', r, he, hwf, hs, -⟩ := addLoop_spec (n := len) (y := zz + zzOff) hm hl.2.2 (.inr rfl)
    simp only [body, effective, Nat.add_zero, he]
    exact ⟨hwf, hs⟩
  | addWordExt len x zz zzOff =>
    obtain ⟨m', r, he, hwf, hs, -⟩ := addWordAt_spec (len := len) (zz := zz) (x := x) hm hl.2
    simp only [body, he]
    exact ⟨hwf, hs.mono (by omega) (by have := hl.2; omega)⟩
  | sub len x y z =>
    obtain ⟨m', r, he, hwf, hs, -⟩ := subLoop_spec (n := len) hm hl.2.1 hl.2.2
    simp only [body, he]
    exact ⟨hwf, hs⟩
  | subBothFrom len x y z =>
    obtain ⟨m', r, he, hwf, hs, -⟩ := subBothLoop_spec (n := len) hm hl.2.1 hl.2.2
    simp only [body, he]
    exact ⟨hwf, hs⟩
  | subExt len x y z =>
    obtain ⟨m', r, he, hwf, hs, -⟩ := subLoop_spec (n := 2 * len) hm hl.2.1 hl.2.2
    simp only [body, he]
    exact ⟨hwf, hs⟩
  | subFromExt len x xOff zz zzOff =>
    obtain ⟨m', r, he, hwf, hs, -⟩ := subLoop_spec (n := len) (x := zz + zzOff) hm (.inr rfl) hl.2.2
    simp only [body, effective, Nat.add_zero, he]
    exact ⟨hwf, hs⟩
  | mulWordExt len x y zz zzOff =>
    obtain ⟨m', r, he, hwf, hs, -⟩ := mulRow_spec (n := len) (w := x) hm hl.2.2
    simp only [body, effective, Nat.add_zero, he]
    exact ⟨hwf, hs⟩
  | mulWordAddExt len x y yyOff zz zzOff =>
    obtain ⟨m', r, he, hwf, hs, -⟩ := mulAddRow_spec (n := len) (w := x) hm hl.2.2
    simp only [body, effective, Nat.add_zero, he]
    exact ⟨hwf, hs⟩
  | mulWordDwordAdd len x y64 z zOff =>
    have ho := hl.2
    obtain ⟨m', c, he, hwf, hs, -⟩ := mulDwordWindow_spec (x := x) (y64 := y64) (a := z + zOff) hm
    simp only [body, effective, Nat.add_zero, he]
    split
    · exact ⟨hwf, hs.mono (by omega) (by omega)⟩
    · obtain ⟨m2, r, he2, hwf2, hs2, -⟩ := rippleInc_spec (base := z) (start := zOff + 3) (top := len) hwf ho
      rw [he2]
      exact ⟨hwf2, (hs.mono (by omega) (by omega)).trans (hs2.mono (by omega) (by omega))⟩
  | mul len x y zz => exact ⟨(mulAll_spec hm hl.1.1 hl.2.1 hl.2.2).1, (mulAll_spec hm hl.1.1 hl.2.1 hl.2.2).2.1⟩
  | square len x zz => exact ⟨(squareAll_spec hm hl.1.1 hl.2).1, (squareAll_spec hm hl.1.1 hl.2).2.1⟩
  | squareWordAddExt len x xPos zz =>
    have hp := hl.2.2.1
    have ha := hl.2.2.2
    obtain ⟨m', r, he, hwf, hs, -⟩ := mulAddRow_spec (n := xPos) (y := x) (dst := zz + xPos)
      (w := m.read (x + xPos)) hm (by omega)
    simp only [body, crossTerms, he]
    exact ⟨hwf, hs.mono (by omega) (by omega)⟩
  | shiftDownBit len x c z =>
    obtain ⟨m', r, he, hwf, hs, -⟩ := shiftDown_words (n := len) (combine := downWord 1) (c := c) hm hl.2
    simp only [body, he]
    exact ⟨hwf, hs⟩
  | shiftDownBits len x bits c z =>
    obtain ⟨m', r, he, hwf, hs, -⟩ := shiftDown_words (n := len) (combine := downWord bits) (c := c) hm hl.2.2.2
    simp only [body, he]
    exact ⟨hwf, hs⟩
  | shiftDownWord len x c z =>
    obtain ⟨m', r, he, hwf, hs, -⟩ := shiftDown_words (n := len) (combine := fun _ k => k) (c := c) hm hl.2
    simp only [body, he]
    exact ⟨hwf, hs⟩
  | shiftUpBit len x c z =>
    obtain ⟨m', r, he, hwf, hs, -⟩ := shiftUp_val (n := len) (c := c) hm hl.2
    simp only [body, shiftUpOne, he]
    exact ⟨hwf, hs⟩
  | inc len z zOff =>
    have ho := hl.2
    obtain ⟨m', r, he, hwf, hs, -⟩ := rippleInc_spec (base := z) hm ho.le
    simp only [body, he]
    exact ⟨hwf, hs.mono (by omega) (by omega)⟩
  | incExt len zz zzOff =>
    have ho := hl.2
    obtain ⟨m', r, he, hwf, hs, -⟩ := rippleInc_spec (base := zz) hm ho.le
    simp only [body, he]
    exact ⟨hwf, hs.mono (by omega) (by omega)⟩
  | dec len z zOff =>
    have ho := hl.2
    obtain ⟨m', r, he, hwf, hs, -⟩ := rippleDec_spec (base := z) hm ho.le
    simp only [body, he]
    exact ⟨hwf, hs.mono (by omega) (by omega)⟩

/-- A word the pseudocode may change exists, when the command's regions are inside memory. -/
theorem cells_exist_of_frame {m m' : Memory} {w : Nat} {P : Nat → Prop} (hwf : m'.wf)
    (hs : ∀ q, ¬ P q → m'.read q = m.read q) (hd : ∀ q, P q → q < w) (h : ∀ c ∈ m, c.1 < w) :
    ∀ c ∈ m', c.1 < w := by
  intro c hc
  by_cases hq : P c.1
  · exact hd _ hq
  · have hv := read_of_mem hwf hc
    rw [hs _ hq] at hv
    have hne : m.read c.1 ≠ unlisted := by rw [hv]; exact hwf.2 c hc
    exact h (c.1, m.read c.1) (mem_of_read hne)

end Sys2Proof.Machine
end

