-- ==== Sys2Proof/Laws/PerInstr.lean ====
section
/-! SUPPORT. Per-command laws. `EncodeDecode`: a well-formed command comes back from its packet (rule R60 to rule R67). -/

namespace Sys2Proof.Laws.EncodeDecode

/-- The packet of a well-formed command decodes to the command. -/
def Statement (i : Instr) : Prop := i.wellFormed = true → decode (encode i) = .ok i

theorem create (len z : Nat) : Statement (.create len z) := by
  intro h
  simp only [Instr.wellFormed, Bool.and_eq_true] at h
  simp [encode, decode, decodeOpcode, Packet.blank, toNat_field, h]

theorem createExt (len zz : Nat) : Statement (.createExt len zz) := by
  intro h
  simp only [Instr.wellFormed, Bool.and_eq_true] at h
  simp [encode, decode, decodeOpcode, Packet.blank, toNat_field, h]

theorem zero (len z : Nat) : Statement (.zero len z) := by
  intro h
  simp only [Instr.wellFormed, Bool.and_eq_true] at h
  simp [encode, decode, decodeOpcode, Packet.blank, toNat_field, h]

theorem isZero (len x : Nat) : Statement (.isZero len x) := by
  intro h
  simp only [Instr.wellFormed, Bool.and_eq_true] at h
  simp [encode, decode, decodeOpcode, Packet.blank, toNat_field, h]

theorem isZeroExt (len xx : Nat) : Statement (.isZeroExt len xx) := by
  intro h
  simp only [Instr.wellFormed, Bool.and_eq_true] at h
  simp [encode, decode, decodeOpcode, Packet.blank, toNat_field, h]

theorem isOne (len x : Nat) : Statement (.isOne len x) := by
  intro h
  simp only [Instr.wellFormed, Bool.and_eq_true] at h
  simp [encode, decode, decodeOpcode, Packet.blank, toNat_field, h]

theorem add (len x y z : Nat) : Statement (.add len x y z) := by
  intro h
  simp only [Instr.wellFormed, Bool.and_eq_true, and_assoc] at h
  simp [encode, decode, decodeOpcode, Packet.blank, toNat_field, h]

theorem addBothTo (len x y z : Nat) : Statement (.addBothTo len x y z) := by
  intro h
  simp only [Instr.wellFormed, Bool.and_eq_true, and_assoc] at h
  simp [encode, decode, decodeOpcode, Packet.blank, toNat_field, h]

theorem addExt (len xx yy zz : Nat) : Statement (.addExt len xx yy zz) := by
  intro h
  simp only [Instr.wellFormed, Bool.and_eq_true, and_assoc] at h
  simp [encode, decode, decodeOpcode, Packet.blank, toNat_field, h]

theorem addToExt (len x xOff zz zzOff : Nat) : Statement (.addToExt len x xOff zz zzOff) := by
  intro h
  simp only [Instr.wellFormed, Bool.and_eq_true, and_assoc] at h
  simp [encode, decode, decodeOpcode, Packet.blank, toNat_field, h]

theorem addWordExt (len : Nat) (x : Word) (zz zzOff : Nat) : Statement (.addWordExt len x zz zzOff) := by
  intro h
  simp only [Instr.wellFormed, Bool.and_eq_true, and_assoc] at h
  simp [encode, decode, decodeOpcode, Packet.blank, toNat_field, h]

theorem sub (len x y z : Nat) : Statement (.sub len x y z) := by
  intro h
  simp only [Instr.wellFormed, Bool.and_eq_true, and_assoc] at h
  simp [encode, decode, decodeOpcode, Packet.blank, toNat_field, h]

theorem subBothFrom (len x y z : Nat) : Statement (.subBothFrom len x y z) := by
  intro h
  simp only [Instr.wellFormed, Bool.and_eq_true, and_assoc] at h
  simp [encode, decode, decodeOpcode, Packet.blank, toNat_field, h]

theorem subExt (len xx yy zz : Nat) : Statement (.subExt len xx yy zz) := by
  intro h
  simp only [Instr.wellFormed, Bool.and_eq_true, and_assoc] at h
  simp [encode, decode, decodeOpcode, Packet.blank, toNat_field, h]

theorem subFromExt (len x xOff zz zzOff : Nat) : Statement (.subFromExt len x xOff zz zzOff) := by
  intro h
  simp only [Instr.wellFormed, Bool.and_eq_true, and_assoc] at h
  simp [encode, decode, decodeOpcode, Packet.blank, toNat_field, h]

theorem mulWordExt (len : Nat) (x : Word) (y zz zzOff : Nat) : Statement (.mulWordExt len x y zz zzOff) := by
  intro h
  simp only [Instr.wellFormed, Bool.and_eq_true, and_assoc] at h
  simp [encode, decode, decodeOpcode, Packet.blank, toNat_field, h]

theorem mulWordAddExt (len : Nat) (x : Word) (y yyOff zz zzOff : Nat) : Statement (.mulWordAddExt len x y yyOff zz zzOff) := by
  intro h
  simp only [Instr.wellFormed, Bool.and_eq_true, and_assoc] at h
  simp [encode, decode, decodeOpcode, Packet.blank, toNat_field, h]

theorem mulWordDwordAdd (len : Nat) (x : Word) (y64 : BitVec 64) (z zOff : Nat) : Statement (.mulWordDwordAdd len x y64 z zOff) := by
  intro h
  simp only [Instr.wellFormed, Bool.and_eq_true, and_assoc] at h
  simp [encode, decode, decodeOpcode, Packet.blank, toNat_field, dword_halves, h]

theorem mul (len x y zz : Nat) : Statement (.mul len x y zz) := by
  intro h
  simp only [Instr.wellFormed, Bool.and_eq_true, and_assoc] at h
  simp [encode, decode, decodeOpcode, Packet.blank, toNat_field, h]

theorem squareWordAddExt (len x xPos zz : Nat) : Statement (.squareWordAddExt len x xPos zz) := by
  intro h
  simp only [Instr.wellFormed, Bool.and_eq_true, and_assoc] at h
  simp [encode, decode, decodeOpcode, Packet.blank, toNat_field, h]

theorem square (len x zz : Nat) : Statement (.square len x zz) := by
  intro h
  simp only [Instr.wellFormed, Bool.and_eq_true, and_assoc] at h
  simp [encode, decode, decodeOpcode, Packet.blank, toNat_field, h]

theorem shiftDownBit (len x : Nat) (c : Word) (z : Nat) : Statement (.shiftDownBit len x c z) := by
  intro h
  simp only [Instr.wellFormed, Bool.and_eq_true, and_assoc] at h
  simp [encode, decode, decodeOpcode, Packet.blank, toNat_field, h]

theorem shiftDownBits (len x bits : Nat) (c : Word) (z : Nat) : Statement (.shiftDownBits len x bits c z) := by
  intro h
  simp only [Instr.wellFormed, Bool.and_eq_true, and_assoc] at h
  simp [encode, decode, decodeOpcode, Packet.blank, toNat_field, h]

theorem shiftDownWord (len x : Nat) (c : Word) (z : Nat) : Statement (.shiftDownWord len x c z) := by
  intro h
  simp only [Instr.wellFormed, Bool.and_eq_true, and_assoc] at h
  simp [encode, decode, decodeOpcode, Packet.blank, toNat_field, h]

theorem shiftUpBit (len x : Nat) (c : Word) (z : Nat) : Statement (.shiftUpBit len x c z) := by
  intro h
  simp only [Instr.wellFormed, Bool.and_eq_true, and_assoc] at h
  simp [encode, decode, decodeOpcode, Packet.blank, toNat_field, h]

theorem gte (len x y : Nat) : Statement (.gte len x y) := by
  intro h
  simp only [Instr.wellFormed, Bool.and_eq_true, and_assoc] at h
  simp [encode, decode, decodeOpcode, Packet.blank, toNat_field, h]

theorem gteExt (len xx yy : Nat) : Statement (.gteExt len xx yy) := by
  intro h
  simp only [Instr.wellFormed, Bool.and_eq_true, and_assoc] at h
  simp [encode, decode, decodeOpcode, Packet.blank, toNat_field, h]

theorem getBit (len x : Nat) (bit : Word) : Statement (.getBit len x bit) := by
  intro h
  simp only [Instr.wellFormed, Bool.and_eq_true] at h
  simp [encode, decode, decodeOpcode, Packet.blank, toNat_field, h]

theorem inc (len z zOff : Nat) : Statement (.inc len z zOff) := by
  intro h
  simp only [Instr.wellFormed, Bool.and_eq_true, and_assoc] at h
  simp [encode, decode, decodeOpcode, Packet.blank, toNat_field, h]

theorem incExt (len zz zzOff : Nat) : Statement (.incExt len zz zzOff) := by
  intro h
  simp only [Instr.wellFormed, Bool.and_eq_true, and_assoc] at h
  simp [encode, decode, decodeOpcode, Packet.blank, toNat_field, h]

theorem dec (len z zOff : Nat) : Statement (.dec len z zOff) := by
  intro h
  simp only [Instr.wellFormed, Bool.and_eq_true, and_assoc] at h
  simp [encode, decode, decodeOpcode, Packet.blank, toNat_field, h]

end Sys2Proof.Laws.EncodeDecode
end

