-- ==== Sys2Proof/Tests/Slice0.lean ====
section
/-! SUPPORT. Tests, every expected value taken from the spec's own vectors (95_test_vectors.md, by section) or from the rule
named; the well-formedness smoke; and for every statement that has hypotheses a witness that meets them. -/

namespace Sys2Proof.Tests

open Sys2Proof Sys2Proof.Machine

/-! ### Helpers -/

/-- The packet whose eleven fields are these numbers, OP first (rule R60). -/
def packet (fields : List Nat) : Packet := Packet.ofBits (bitsOfWords (fields.map (BitVec.ofNat 32)))

/-- The words put from address `a` on. -/
def putBuffer (a : Nat) (words : List Nat) (m : Memory) : Memory :=
  match words with
  | [] => m
  | w :: ws => putBuffer (a + 1) ws (m.write a (BitVec.ofNat 32 w))

/-- A memory with the buffers written into it, in order. -/
def putBuffers (bs : List (Nat × List Nat)) (m : Memory) : Memory := bs.foldl (fun m b => putBuffer b.1 b.2 m) m

/-- A unit fresh from reset whose memory holds the buffers: the start of a vector of 95_test_vectors.md. -/
def unit (bs : List (Nat × List Nat)) : State := State.resetOf Config.testVectors (putBuffers bs [])

/-- One step from `before`, the packet presented: the whole memory is `before` with the words of `after`, and `RET` and
`FAULT` are as given. -/
def answers (fields : List Nat) (before after : List (Nat × List Nat)) (ret fault : Nat) : Bool :=
  match step (presentOnly (packet fields) (unit before)) with
  | .next t =>
    t.mem == putBuffers after (putBuffers before []) && t.ret == BitVec.ofNat 32 ret &&
      t.fault == BitVec.ofNat 4 fault && t.k == 1
  | _ => false

/-- One step with the packet leaves `FAULT = code`, and memory and `RET` as they were (rule R175). -/
def faults (code : Nat) (fields : List Nat) : Bool :=
  answers fields [(0x100, [1, 2, 3, 4, 5, 6]), (0x200, [1, 2, 3, 4, 5])] [] 0 code

/-- The same unit built with `CHECKED = false` (rule R174). -/
def trusting (s : State) : State := { s with cfg := { s.cfg with checked := false } }

/-- One step of the trusting unit refuses the packet. -/
def refuses (fields : List Nat) : Bool :=
  match step (presentOnly (packet fields) (trusting (unit [(0x100, [1, 2, 3])]))) with
  | .refused .trustedPreconditionViolated => true
  | _ => false

/-! ### Well-formedness: each check refuses an ill-formed term -/

/-- One more than a packet field can hold. -/
def big : Nat := 2 ^ 32

def noneWellFormed (is : List Instr) : Bool := is.all (fun i => !i.wellFormed)

theorem test_wf_buffer_primitives : noneWellFormed
    [.create big 1, .create 1 big, .createExt big 1, .createExt 1 big, .zero big 1, .zero 1 big, .isZero big 1,
      .isZero 1 big, .isZeroExt big 1, .isZeroExt 1 big, .isOne big 1, .isOne 1 big] = true := by decide

theorem test_wf_ripple_carry_adder : noneWellFormed
    [.add big 1 1 1, .add 1 big 1 1, .add 1 1 big 1, .add 1 1 1 big, .addBothTo big 1 1 1,
      .addBothTo 1 big 1 1, .addBothTo 1 1 big 1, .addBothTo 1 1 1 big, .addExt big 1 1 1, .addExt 1 big 1 1,
      .addExt 1 1 big 1, .addExt 1 1 1 big, .addToExt big 1 1 1 1, .addToExt 1 big 1 1 1, .addToExt 1 1 big 1 1,
      .addToExt 1 1 1 big 1, .addToExt 1 1 1 1 big, .addWordExt big 1#32 1 1, .addWordExt 1 1#32 big 1,
      .addWordExt 1 1#32 1 big] = true := by decide

theorem test_wf_ripple_carry_subtractor : noneWellFormed
    [.sub big 1 1 1, .sub 1 big 1 1, .sub 1 1 big 1, .sub 1 1 1 big, .subBothFrom big 1 1 1,
      .subBothFrom 1 big 1 1, .subBothFrom 1 1 big 1, .subBothFrom 1 1 1 big, .subExt big 1 1 1,
      .subExt 1 big 1 1, .subExt 1 1 big 1, .subExt 1 1 1 big, .subFromExt big 1 1 1 1, .subFromExt 1 big 1 1 1,
      .subFromExt 1 1 big 1 1, .subFromExt 1 1 1 big 1, .subFromExt 1 1 1 1 big] = true := by decide

theorem test_wf_schoolbook_multiplier : noneWellFormed
    [.mulWordExt big 1#32 1 1 1, .mulWordExt 1 1#32 big 1 1, .mulWordExt 1 1#32 1 big 1,
      .mulWordExt 1 1#32 1 1 big, .mulWordAddExt big 1#32 1 1 1 1, .mulWordAddExt 1 1#32 big 1 1 1,
      .mulWordAddExt 1 1#32 1 big 1 1, .mulWordAddExt 1 1#32 1 1 big 1, .mulWordAddExt 1 1#32 1 1 1 big,
      .mulWordDwordAdd big 1#32 1#64 1 1, .mulWordDwordAdd 1 1#32 1#64 big 1,
      .mulWordDwordAdd 1 1#32 1#64 1 big, .mul big 1 1 1, .mul 1 big 1 1, .mul 1 1 big 1, .mul 1 1 1 big] = true := by decide

theorem test_wf_optimized_squarer : noneWellFormed
    [.squareWordAddExt big 1 1 1, .squareWordAddExt 1 big 1 1, .squareWordAddExt 1 1 big 1,
      .squareWordAddExt 1 1 1 big, .square big 1 1, .square 1 big 1, .square 1 1 big] = true := by decide

theorem test_wf_barrel_shifter : noneWellFormed
    [.shiftDownBit big 1 1#32 1, .shiftDownBit 1 big 1#32 1, .shiftDownBit 1 1 1#32 big,
      .shiftDownBits big 1 1 1#32 1, .shiftDownBits 1 big 1 1#32 1, .shiftDownBits 1 1 big 1#32 1,
      .shiftDownBits 1 1 1 1#32 big, .shiftDownWord big 1 1#32 1, .shiftDownWord 1 big 1#32 1,
      .shiftDownWord 1 1 1#32 big, .shiftUpBit big 1 1#32 1, .shiftUpBit 1 big 1#32 1, .shiftUpBit 1 1 1#32 big] = true := by decide

theorem test_wf_magnitude_comparator : noneWellFormed
    [.gte big 1 1, .gte 1 big 1, .gte 1 1 big, .gteExt big 1 1, .gteExt 1 big 1, .gteExt 1 1 big,
      .getBit big 1 1#32, .getBit 1 big 1#32] = true := by decide

theorem test_wf_increment_decrement_ripple : noneWellFormed
    [.inc big 1 1, .inc 1 big 1, .inc 1 1 big, .incExt big 1 1, .incExt 1 big 1, .incExt 1 1 big, .dec big 1 1,
      .dec 1 big 1, .dec 1 1 big] = true := by decide

theorem test_wf_accepts_full_fields :
    (Instr.addToExt 0xFFFFFFFF 0xFFFFFFFF 0xFFFFFFFF 0xFFFFFFFF 0xFFFFFFFF).wellFormed = true := by decide

/-! ### Decoding: a packet of every command, written out by the encoding of rule R62 and rule R63 -/

theorem test_decode_create :
    decode (packet [0x1, 0x2, 0, 0, 0, 0, 0x200, 0, 0, 0, 0]) = .ok (.create 2 0x200) := by decide

theorem test_decode_createExt :
    decode (packet [0x2, 0x2, 0, 0, 0, 0, 0x200, 0, 0, 0, 0]) = .ok (.createExt 2 0x200) := by decide

theorem test_decode_zero :
    decode (packet [0x3, 0x2, 0, 0, 0, 0, 0x300, 0, 0, 0, 0]) = .ok (.zero 2 0x300) := by decide

theorem test_decode_isZero :
    decode (packet [0x4, 0x2, 0x100, 0, 0, 0, 0, 0, 0, 0, 0]) = .ok (.isZero 2 0x100) := by decide

theorem test_decode_isZeroExt :
    decode (packet [0x5, 0x1, 0x100, 0, 0, 0, 0, 0, 0, 0, 0]) = .ok (.isZeroExt 1 0x100) := by decide

theorem test_decode_isOne :
    decode (packet [0x6, 0x3, 0x100, 0, 0, 0, 0, 0, 0, 0, 0]) = .ok (.isOne 3 0x100) := by decide

theorem test_decode_add :
    decode (packet [0x10, 0x2, 0x100, 0, 0x102, 0, 0x104, 0, 0, 0, 0]) = .ok (.add 2 0x100 0x102 0x104) := by decide

theorem test_decode_addBothTo :
    decode (packet [0x11, 0x2, 0x100, 0, 0x102, 0, 0x104, 0, 0, 0, 0]) = .ok (.addBothTo 2 0x100 0x102 0x104) := by decide

theorem test_decode_addExt :
    decode (packet [0x12, 0x1, 0x100, 0, 0x102, 0, 0x104, 0, 0, 0, 0]) = .ok (.addExt 1 0x100 0x102 0x104) := by decide

theorem test_decode_addToExt :
    decode (packet [0x13, 0x2, 0x100, 0, 0, 0, 0x200, 0x1, 0, 0, 0]) = .ok (.addToExt 2 0x100 0 0x200 1) := by decide

theorem test_decode_addWordExt :
    decode (packet [0x14, 0x2, 0, 0, 0, 0, 0x200, 0, 0x1, 0, 0]) = .ok (.addWordExt 2 0x00000001#32 0x200 0) := by decide

theorem test_decode_sub :
    decode (packet [0x18, 0x1, 0x101, 0, 0x100, 0, 0x102, 0, 0, 0, 0]) = .ok (.sub 1 0x101 0x100 0x102) := by decide

theorem test_decode_subBothFrom :
    decode (packet [0x19, 0x2, 0x100, 0, 0x102, 0, 0x104, 0, 0, 0, 0]) = .ok (.subBothFrom 2 0x100 0x102 0x104) := by decide

theorem test_decode_subExt :
    decode (packet [0x1A, 0x1, 0x100, 0, 0x102, 0, 0x104, 0, 0, 0, 0]) = .ok (.subExt 1 0x100 0x102 0x104) := by decide

theorem test_decode_subFromExt :
    decode (packet [0x1B, 0x2, 0x100, 0, 0, 0, 0x200, 0x1, 0, 0, 0]) = .ok (.subFromExt 2 0x100 0 0x200 1) := by decide

theorem test_decode_mulWordExt :
    decode (packet [0x20, 0x2, 0, 0, 0x100, 0, 0x200, 0, 0xFFFFFFFF, 0, 0]) = .ok (.mulWordExt 2 0xFFFFFFFF#32 0x100 0x200 0) := by decide

theorem test_decode_mulWordAddExt :
    decode (packet [0x21, 0x2, 0, 0, 0x100, 0, 0x200, 0, 0xFFFFFFFF, 0, 0]) = .ok (.mulWordAddExt 2 0xFFFFFFFF#32 0x100 0 0x200 0) := by decide

theorem test_decode_mulWordDwordAdd :
    decode (packet [0x22, 0x4, 0, 0, 0, 0, 0x120, 0x1, 0x3, 0x2, 0x1]) = .ok (.mulWordDwordAdd 4 0x00000003#32 0x0000000100000002#64 0x120 1) := by decide

theorem test_decode_mul :
    decode (packet [0x23, 0x2, 0x100, 0, 0x102, 0, 0x200, 0, 0, 0, 0]) = .ok (.mul 2 0x100 0x102 0x200) := by decide

theorem test_decode_squareWordAddExt :
    decode (packet [0x24, 0x2, 0x100, 0x1, 0, 0, 0x200, 0, 0, 0, 0]) = .ok (.squareWordAddExt 2 0x100 1 0x200) := by decide

theorem test_decode_square :
    decode (packet [0x25, 0x2, 0x100, 0, 0, 0, 0x200, 0, 0, 0, 0]) = .ok (.square 2 0x100 0x200) := by decide

theorem test_decode_shiftDownBit :
    decode (packet [0x30, 0x2, 0x100, 0, 0, 0, 0x108, 0, 0x1, 0, 0]) = .ok (.shiftDownBit 2 0x100 0x00000001#32 0x108) := by decide

theorem test_decode_shiftDownBits :
    decode (packet [0x31, 0x2, 0x100, 0, 0, 0, 0x108, 0, 0xA, 0x4, 0]) = .ok (.shiftDownBits 2 0x100 4 0x0000000A#32 0x108) := by decide

theorem test_decode_shiftDownWord :
    decode (packet [0x32, 0x3, 0x100, 0, 0, 0, 0x100, 0, 0x9, 0, 0]) = .ok (.shiftDownWord 3 0x100 0x00000009#32 0x100) := by decide

theorem test_decode_shiftUpBit :
    decode (packet [0x33, 0x2, 0x100, 0, 0, 0, 0x108, 0, 0x80000000, 0, 0]) = .ok (.shiftUpBit 2 0x100 0x80000000#32 0x108) := by decide

theorem test_decode_gte :
    decode (packet [0x40, 0x2, 0x100, 0, 0x102, 0, 0, 0, 0, 0, 0]) = .ok (.gte 2 0x100 0x102) := by decide

theorem test_decode_gteExt :
    decode (packet [0x41, 0x1, 0x100, 0, 0x102, 0, 0, 0, 0, 0, 0]) = .ok (.gteExt 1 0x100 0x102) := by decide

theorem test_decode_getBit :
    decode (packet [0x42, 0x2, 0x100, 0, 0, 0, 0, 0, 0x3F, 0, 0]) = .ok (.getBit 2 0x100 0x0000003F#32) := by decide

theorem test_decode_inc :
    decode (packet [0x43, 0x3, 0, 0, 0, 0, 0x100, 0x1, 0, 0, 0]) = .ok (.inc 3 0x100 1) := by decide

theorem test_decode_incExt :
    decode (packet [0x44, 0x2, 0, 0, 0, 0, 0x100, 0x1, 0, 0, 0]) = .ok (.incExt 2 0x100 1) := by decide

theorem test_decode_dec :
    decode (packet [0x45, 0x2, 0, 0, 0, 0, 0x100, 0, 0, 0, 0]) = .ok (.dec 2 0x100 0) := by decide

/-! ### Decoding from the 352 bits, one of every family: field S2 is at the left, OP at the right (rule R60) -/

/-- buffer_primitives -/
theorem test_bits_isOne :
    decodeTableWord 352
        0x00000000_00000000_00000000_00000000_00000000_00000000_00000000_00000000_00000100_00000003_00000006 =
      some (.isOne 3 0x100) := by decide

/-- ripple_carry_adder -/
theorem test_bits_addWordExt :
    decodeTableWord 352
        0x00000000_00000000_00000001_00000000_00000200_00000000_00000000_00000000_00000000_00000002_00000014 =
      some (.addWordExt 2 0x00000001#32 0x200 0) := by decide

/-- ripple_carry_subtractor -/
theorem test_bits_subFromExt :
    decodeTableWord 352
        0x00000000_00000000_00000000_00000001_00000200_00000000_00000000_00000000_00000100_00000002_0000001B =
      some (.subFromExt 2 0x100 0 0x200 1) := by decide

/-- schoolbook_multiplier -/
theorem test_bits_mulWordDwordAdd :
    decodeTableWord 352
        0x00000001_00000002_00000003_00000001_00000120_00000000_00000000_00000000_00000000_00000004_00000022 =
      some (.mulWordDwordAdd 4 0x00000003#32 0x0000000100000002#64 0x120 1) := by decide

/-- optimized_squarer -/
theorem test_bits_square :
    decodeTableWord 352
        0x00000000_00000000_00000000_00000000_00000200_00000000_00000000_00000000_00000100_00000002_00000025 =
      some (.square 2 0x100 0x200) := by decide

/-- barrel_shifter -/
theorem test_bits_shiftDownBits :
    decodeTableWord 352
        0x00000000_00000004_0000000A_00000000_00000108_00000000_00000000_00000000_00000100_00000002_00000031 =
      some (.shiftDownBits 2 0x100 4 0x0000000A#32 0x108) := by decide

/-- magnitude_comparator -/
theorem test_bits_getBit :
    decodeTableWord 352
        0x00000000_00000000_0000003F_00000000_00000000_00000000_00000000_00000000_00000100_00000002_00000042 =
      some (.getBit 2 0x100 0x0000003F#32) := by decide

/-- increment_decrement_ripple -/
theorem test_bits_dec :
    decodeTableWord 352
        0x00000000_00000000_00000000_00000000_00000100_00000000_00000000_00000000_00000000_00000002_00000045 =
      some (.dec 2 0x100 0) := by decide

/-- A table word gives 32 bits: every other field is zero. -/
theorem test_bits_short : decodeTableWord 32 0x25 = some (.square 0 0 0) := by decide

/-- The bits from `nbits` up do not count. -/
theorem test_bits_cut : decodeTableWord 32 0x7_00000025 = some (.square 0 0 0) := by decide

/-! ### Decoding rejects by name (V-60b) -/

theorem test_decode_zero_packet : decode (packet [0]) = .error .reservedOpcode := by decide
theorem test_decode_reserved : decode (packet [0x46, 2, 0, 0, 0, 0, 0x100]) = .error .reservedOpcode := by decide
theorem test_decode_upper_bits :
    decode (packet [0x110, 2, 0x100, 0, 0x102, 0, 0x104]) = .error .upperOpBits := by decide

/-! ### One step of every command (V-40 to V-44; `create_2` is V-60's last fitting base) -/

theorem test_create_1 : answers [0x1, 0x2, 0, 0, 0, 0, 0x200, 0, 0, 0, 0] [(0x200, [0xDEADBEEF, 0x12345678, 0x55])]
    [(0x200, [0, 0, 0x55])] 0 0 = true := by decide
theorem test_create_2 : answers [0x1, 0x2, 0, 0, 0, 0, 0xFFE, 0, 0, 0, 0] [(0xFFE, [7, 7])] [(0xFFE, [0, 0])]
    0 0 = true := by decide
theorem test_createExt_1 : answers [0x2, 0x2, 0, 0, 0, 0, 0x200, 0, 0, 0, 0] [(0x200, [1, 2, 3, 4, 5])]
    [(0x200, [0, 0, 0, 0, 5])] 0 0 = true := by decide
theorem test_createExt_2 : answers [0x2, 0x1, 0, 0, 0, 0, 0x200, 0, 0, 0, 0] [(0x200, [1, 2, 3])]
    [(0x200, [0, 0, 3])] 0 0 = true := by decide
theorem test_zero_1 : answers [0x3, 0x2, 0, 0, 0, 0, 0x300, 0, 0, 0, 0] [(0x300, [7, 8, 9])] [(0x300, [0, 0, 9])]
    0 0 = true := by decide
theorem test_isZero_1 : answers [0x4, 0x2, 0x100, 0, 0, 0, 0, 0, 0, 0, 0] [(0x100, [0, 0x80000000])] []
    0 0 = true := by decide
theorem test_isZero_2 : answers [0x4, 0x1, 0x100, 0, 0, 0, 0, 0, 0, 0, 0] [(0x100, [0, 1])] [] 1 0 = true := by decide
theorem test_isZeroExt_1 : answers [0x5, 0x1, 0x100, 0, 0, 0, 0, 0, 0, 0, 0] [(0x100, [0, 1])] []
    0 0 = true := by decide
theorem test_isZeroExt_2 : answers [0x5, 0x2, 0x100, 0, 0, 0, 0, 0, 0, 0, 0] [(0x100, [0, 0, 0, 0])]
    [] 1 0 = true := by decide
theorem test_isOne_1 : answers [0x6, 0x3, 0x100, 0, 0, 0, 0, 0, 0, 0, 0] [(0x100, [1, 0, 0])]
    [] 1 0 = true := by decide
theorem test_isOne_2 : answers [0x6, 0x2, 0x100, 0, 0, 0, 0, 0, 0, 0, 0] [(0x100, [1, 1])] [] 0 0 = true := by decide
theorem test_add_1 : answers [0x10, 0x2, 0x100, 0, 0x102, 0, 0x104, 0, 0, 0, 0]
    [(0x100, [0xFFFFFFFF, 0xFFFFFFFF]), (0x102, [1, 0]), (0x104, [9, 9])] [(0x104, [0, 0])] 1 0 = true := by decide
theorem test_add_2 : answers [0x10, 0x2, 0x100, 0, 0x100, 0, 0x100, 0, 0, 0, 0] [(0x100, [0x80000001, 0x40000000])]
    [(0x100, [2, 0x80000001])] 0 0 = true := by decide
theorem test_addBothTo_1 : answers [0x11, 0x2, 0x100, 0, 0x102, 0, 0x104, 0, 0, 0, 0]
    [(0x100, [0xFFFFFFFF, 0xFFFFFFFF]), (0x102, [0xFFFFFFFF, 0xFFFFFFFF]), (0x104, [0xFFFFFFFF, 0xFFFFFFFF])]
    [(0x104, [0xFFFFFFFD, 0xFFFFFFFF])] 2 0 = true := by decide
theorem test_addBothTo_2 : answers [0x11, 0x1, 0x100, 0, 0x100, 0, 0x100, 0, 0, 0, 0] [(0x100, [0x60000000])]
    [(0x100, [0x20000000])] 1 0 = true := by decide
theorem test_addExt_1 : answers [0x12, 0x1, 0x100, 0, 0x102, 0, 0x104, 0, 0, 0, 0]
    [(0x100, [0xFFFFFFFF, 0xFFFFFFFF]), (0x102, [1, 0]), (0x104, [3, 3])] [(0x104, [0, 0])] 1 0 = true := by decide
theorem test_addExt_2 : answers [0x12, 0x2, 0x100, 0, 0x104, 0, 0x108, 0, 0, 0, 0]
    [(0x100, [0xFFFFFFFF, 0xFFFFFFFF, 0, 0]), (0x104, [1, 0, 0, 0]), (0x108, [3, 3, 3, 3])] [(0x108, [0, 0, 1, 0])]
    0 0 = true := by decide
theorem test_addToExt_1 : answers [0x13, 0x2, 0x100, 0, 0, 0, 0x200, 0x1, 0, 0, 0]
    [(0x100, [0xFFFFFFFF, 0xFFFFFFFF]), (0x200, [1, 1, 0, 7])] [(0x200, [1, 0, 0, 7])] 1 0 = true := by decide
theorem test_addToExt_2 : answers [0x13, 0x2, 0x100, 0x1, 0, 0, 0x200, 0x2, 0, 0, 0]
    [(0x100, [9, 1, 2]), (0x200, [1, 1, 0xFFFFFFFF, 7])] [(0x200, [1, 1, 0, 0xA])] 0 0 = true := by decide
theorem test_addWordExt_1 : answers [0x14, 0x2, 0, 0, 0, 0, 0x200, 0, 0x1, 0, 0]
    [(0x200, [0xFFFFFFFF, 0xFFFFFFFF, 0xFFFFFFFF, 0xFFFFFFFF])] [(0x200, [0, 0, 0, 0])] 1 0 = true := by decide
theorem test_addWordExt_2 : answers [0x14, 0x2, 0, 0, 0, 0, 0x200, 0x1, 0xFFFFFFFF, 0, 0]
    [(0x200, [7, 0xFFFFFFFF, 0, 0])] [(0x200, [7, 0xFFFFFFFE, 1, 0])] 0 0 = true := by decide
theorem test_sub_1 : answers [0x18, 0x1, 0x101, 0, 0x100, 0, 0x102, 0, 0, 0, 0]
    [(0x100, [5]), (0x101, [3]), (0x102, [0x77])] [(0x102, [0xFFFFFFFE])] 0xFFFFFFFF 0 = true := by decide
theorem test_sub_2 : answers [0x18, 0x2, 0x100, 0, 0x102, 0, 0x104, 0, 0, 0, 0]
    [(0x100, [0, 1]), (0x102, [1, 0]), (0x104, [0, 0])] [(0x104, [0xFFFFFFFF, 0])] 0 0 = true := by decide
theorem test_subBothFrom_1 : answers [0x19, 0x2, 0x100, 0, 0x102, 0, 0x104, 0, 0, 0, 0]
    [(0x100, [0xFFFFFFFF, 0xFFFFFFFF]), (0x102, [0xFFFFFFFF, 0xFFFFFFFF]), (0x104, [0, 0])] [(0x104, [2, 0])]
    0xFFFFFFFE 0 = true := by decide
theorem test_subBothFrom_2 : answers [0x19, 0x2, 0x100, 0, 0x102, 0, 0x104, 0, 0, 0, 0]
    [(0x100, [1, 0]), (0x102, [1, 0]), (0x104, [1, 0])] [(0x104, [0xFFFFFFFF, 0xFFFFFFFF])]
    0xFFFFFFFF 0 = true := by decide
theorem test_subExt_1 : answers [0x1A, 0x1, 0x100, 0, 0x102, 0, 0x104, 0, 0, 0, 0]
    [(0x100, [0, 0]), (0x102, [1, 0]), (0x104, [3, 3])] [(0x104, [0xFFFFFFFF, 0xFFFFFFFF])]
    0xFFFFFFFF 0 = true := by decide
theorem test_subExt_2 : answers [0x1A, 0x1, 0x100, 0, 0x102, 0, 0x104, 0, 0, 0, 0]
    [(0x100, [0, 1]), (0x102, [1, 0]), (0x104, [3, 3])] [(0x104, [0xFFFFFFFF, 0])] 0 0 = true := by decide
theorem test_subFromExt_1 : answers [0x1B, 0x2, 0x100, 0, 0, 0, 0x200, 0x1, 0, 0, 0]
    [(0x100, [1, 0]), (0x200, [9, 0, 0, 5])] [(0x200, [9, 0xFFFFFFFF, 0xFFFFFFFF, 5])]
    0xFFFFFFFF 0 = true := by decide
theorem test_subFromExt_2 : answers [0x1B, 0x2, 0x100, 0, 0, 0, 0x200, 0x2, 0, 0, 0]
    [(0x100, [1, 0]), (0x200, [9, 0, 3, 5])] [(0x200, [9, 0, 2, 5])] 0 0 = true := by decide
theorem test_mulWordExt_1 : answers [0x20, 0x2, 0, 0, 0x100, 0, 0x200, 0, 0xFFFFFFFF, 0, 0]
    [(0x100, [0xFFFFFFFF, 0xFFFFFFFF]), (0x200, [0xAAAAAAAA, 0xAAAAAAAA, 0xAAAAAAAA, 0xAAAAAAAA])]
    [(0x200, [1, 0xFFFFFFFF, 0xAAAAAAAA, 0xAAAAAAAA])] 0xFFFFFFFE 0 = true := by decide
theorem test_mulWordExt_2 : answers [0x20, 0x2, 0, 0, 0x100, 0, 0x200, 0x1, 0x80000000, 0, 0]
    [(0x100, [2, 3]), (0x200, [0xAAAAAAAA, 0xAAAAAAAA, 0xAAAAAAAA, 0xAAAAAAAA])]
    [(0x200, [0xAAAAAAAA, 0, 0x80000001, 0xAAAAAAAA])] 1 0 = true := by decide
theorem test_mulWordAddExt_1 : answers [0x21, 0x2, 0, 0, 0x100, 0, 0x200, 0, 0xFFFFFFFF, 0, 0]
    [(0x100, [0xFFFFFFFF, 0xFFFFFFFF]), (0x200, [0xFFFFFFFF, 0xFFFFFFFF, 5, 5])] [(0x200, [0, 0xFFFFFFFF, 5, 5])]
    0xFFFFFFFF 0 = true := by decide
theorem test_mulWordAddExt_2 : answers [0x21, 0x2, 0, 0, 0x100, 0x1, 0x200, 0x1, 0x5, 0, 0]
    [(0x100, [9, 2, 3]), (0x200, [1, 0x10, 0x20, 7])] [(0x200, [1, 0x1A, 0x2F, 7])] 0 0 = true := by decide
theorem test_mulWordDwordAdd_1 : answers [0x22, 0x4, 0, 0, 0, 0, 0x120, 0x1, 0x3, 0x2, 0x1]
    [(0x120, [0, 0xFFFFFFFF, 0xFFFFFFFF, 0xFFFFFFFF])] [(0x120, [0, 5, 3, 0])] 1 0 = true := by decide
theorem test_mulWordDwordAdd_2 : answers [0x22, 0x5, 0, 0, 0, 0, 0x120, 0, 0xFFFFFFFF, 0xFFFFFFFF, 0xFFFFFFFF]
    [(0x120, [0xFFFFFFFF, 0xFFFFFFFF, 0xFFFFFFFF, 0xFFFFFFFF, 9])] [(0x120, [0, 0xFFFFFFFF, 0xFFFFFFFE, 0, 0xA])]
    0 0 = true := by decide
theorem test_mul_1 : answers [0x23, 0x2, 0x100, 0, 0x102, 0, 0x200, 0, 0, 0, 0]
    [(0x100, [0x12345678, 0x9ABCDEF0]), (0x102, [0xFEDCBA9, 0x87654321]), (0x200, [0xAAAAAAAA, 0xAAAAAAAA, 0xAAAAAAAA, 0xAAAAAAAA])]
    [(0x200, [0x9A363D38, 0xD18203E8, 0xF8A326F9, 0x51D6CEA7])] 0 0 = true := by decide
theorem test_mul_2 : answers [0x23, 0x2, 0x100, 0, 0x100, 0, 0x200, 0, 0, 0, 0]
    [(0x100, [0xFFFFFFFF, 0xFFFFFFFF]), (0x200, [0xAAAAAAAA, 0xAAAAAAAA, 0xAAAAAAAA, 0xAAAAAAAA])]
    [(0x200, [1, 0, 0xFFFFFFFE, 0xFFFFFFFF])] 0 0 = true := by decide
theorem test_squareWordAddExt_1 : answers [0x24, 0x2, 0x100, 0x1, 0, 0, 0x200, 0, 0, 0, 0]
    [(0x100, [3, 5]), (0x200, [1, 2, 3, 4])] [(0x200, [1, 0x11, 3, 4])] 0 0 = true := by decide
theorem test_squareWordAddExt_2 : answers [0x24, 0x3, 0x100, 0x2, 0, 0, 0x200, 0, 0, 0, 0]
    [(0x100, [0xFFFFFFFF, 0xFFFFFFFF, 0xFFFFFFFF]), (0x200, [0, 0, 0xFFFFFFFF, 0xFFFFFFFF, 0, 0])]
    [(0x200, [0, 0, 0, 0xFFFFFFFF, 0, 0])] 0xFFFFFFFF 0 = true := by decide
theorem test_square_1 : answers [0x25, 0x2, 0x100, 0, 0, 0, 0x200, 0, 0, 0, 0]
    [(0x100, [0x12345679, 0x9ABCDEF0]), (0x200, [0xAAAAAAAA, 0xAAAAAAAA, 0xAAAAAAAA, 0xAAAAAAAA])]
    [(0x200, [0x425D8531, 0x7F1F65BC, 0x8A6F59D, 0x5D87C791])] 0 0 = true := by decide
theorem test_square_2 : answers [0x25, 0x3, 0x100, 0, 0, 0, 0x200, 0, 0, 0, 0]
    [(0x100, [0xFFFFFFFF, 0xFFFFFFFF, 0xFFFFFFFF]), (0x200, [0xAAAAAAAA, 0xAAAAAAAA, 0xAAAAAAAA, 0xAAAAAAAA, 0xAAAAAAAA, 0xAAAAAAAA])]
    [(0x200, [1, 0, 0, 0xFFFFFFFE, 0xFFFFFFFF, 0xFFFFFFFF])] 0 0 = true := by decide
theorem test_shiftDownBit_1 : answers [0x30, 0x2, 0x100, 0, 0, 0, 0x108, 0, 0x1, 0, 0]
    [(0x100, [3, 1]), (0x108, [0, 0])] [(0x100, [3, 1]), (0x108, [0x80000001, 0x80000000])]
    0x80000000 0 = true := by decide
theorem test_shiftDownBit_2 : answers [0x30, 0x2, 0x100, 0, 0, 0, 0x108, 0, 0xFFFFFFFE, 0, 0]
    [(0x100, [3, 1]), (0x108, [0, 0])] [(0x108, [0x80000001, 0])] 0x80000000 0 = true := by decide
theorem test_shiftDownBits_1 : answers [0x31, 0x2, 0x100, 0, 0, 0, 0x108, 0, 0xA, 0x4, 0]
    [(0x100, [0x12345678, 0x9ABCDEF0]), (0x108, [0, 0])] [(0x108, [0x1234567, 0xA9ABCDEF])]
    0x80000000 0 = true := by decide
theorem test_shiftDownBits_2 : answers [0x31, 0x2, 0x100, 0, 0, 0, 0x108, 0, 0xFFFFFFFF, 0x1F, 0]
    [(0x100, [0x12345678, 0x9ABCDEF0]), (0x108, [0, 0])] [(0x108, [0x3579BDE0, 0xFFFFFFFF])]
    0x2468ACF0 0 = true := by decide
theorem test_shiftDownWord_1 : answers [0x32, 0x3, 0x100, 0, 0, 0, 0x100, 0, 0x9, 0, 0] [(0x100, [1, 2, 3])]
    [(0x100, [2, 3, 9])] 1 0 = true := by decide
theorem test_shiftDownWord_2 : answers [0x32, 0x1, 0x100, 0, 0, 0, 0x108, 0, 0x9, 0, 0] [(0x100, [1]), (0x108, [0])]
    [(0x108, [9])] 1 0 = true := by decide
theorem test_shiftUpBit_1 : answers [0x33, 0x2, 0x100, 0, 0, 0, 0x108, 0, 0x80000000, 0, 0]
    [(0x100, [0x80000001, 0x80000000]), (0x108, [0, 0])] [(0x108, [3, 1])] 1 0 = true := by decide
theorem test_shiftUpBit_2 : answers [0x33, 0x2, 0x100, 0, 0, 0, 0x100, 0, 0x7FFFFFFF, 0, 0]
    [(0x100, [0x80000001, 0x80000000])] [(0x100, [2, 1])] 1 0 = true := by decide
theorem test_gte_1 : answers [0x40, 0x2, 0x100, 0, 0x102, 0, 0, 0, 0, 0, 0]
    [(0x100, [0, 1]), (0x102, [0xFFFFFFFF, 0])] [] 1 0 = true := by decide
theorem test_gte_2 : answers [0x40, 0x2, 0x100, 0, 0x102, 0, 0, 0, 0, 0, 0] [(0x100, [5, 7]), (0x102, [6, 7])] []
    0 0 = true := by decide
theorem test_gteExt_1 : answers [0x41, 0x1, 0x100, 0, 0x102, 0, 0, 0, 0, 0, 0] [(0x100, [0, 0]), (0x102, [0, 1])] []
    0 0 = true := by decide
theorem test_getBit_1 : answers [0x42, 0x2, 0x100, 0, 0, 0, 0, 0, 0x3F, 0, 0] [(0x100, [2, 0x80000000])]
    [] 1 0 = true := by decide
theorem test_getBit_2 : answers [0x42, 0x2, 0x100, 0, 0, 0, 0, 0, 0x40, 0, 0] [(0x100, [2, 0x80000000, 0xFFFFFFFF])]
    [] 0 0 = true := by decide
theorem test_inc_1 : answers [0x43, 0x3, 0, 0, 0, 0, 0x100, 0x1, 0, 0, 0] [(0x100, [7, 0xFFFFFFFF, 0])]
    [(0x100, [7, 0, 1])] 0 0 = true := by decide
theorem test_inc_2 : answers [0x43, 0x2, 0, 0, 0, 0, 0x100, 0x1, 0, 0, 0] [(0x100, [7, 0xFFFFFFFF, 5])]
    [(0x100, [7, 0, 5])] 1 0 = true := by decide
theorem test_incExt_1 : answers [0x44, 0x2, 0, 0, 0, 0, 0x100, 0x1, 0, 0, 0]
    [(0x100, [7, 0xFFFFFFFF, 0xFFFFFFFF, 0xFFFFFFFF])] [(0x100, [7, 0, 0, 0])] 1 0 = true := by decide
theorem test_incExt_2 : answers [0x44, 0x2, 0, 0, 0, 0, 0x100, 0x2, 0, 0, 0]
    [(0x100, [7, 0xFFFFFFFF, 0xFFFFFFFF, 1])] [(0x100, [7, 0xFFFFFFFF, 0, 2])] 0 0 = true := by decide
theorem test_dec_1 : answers [0x45, 0x2, 0, 0, 0, 0, 0x100, 0, 0, 0, 0] [(0x100, [0, 1])] [(0x100, [0xFFFFFFFF, 0])]
    0 0 = true := by decide
theorem test_dec_2 : answers [0x45, 0x3, 0, 0, 0, 0, 0x100, 0x1, 0, 0, 0] [(0x100, [5, 0, 3])]
    [(0x100, [5, 0xFFFFFFFF, 2])] 0 0 = true := by decide

/-! ### Faults and refusals (V-60, V-60b, V-60c) -/

/-- V-60: the rows with `FAULT = 2`. -/
theorem test_preconditions_fault : [
    [0x43, 0x2, 0, 0, 0, 0, 0x100, 0x2, 0, 0, 0],
    [0x10, 0, 0x100, 0, 0x102, 0, 0x104, 0, 0, 0, 0],
    [0x10, 0x401, 0x100, 0, 0x102, 0, 0x104, 0, 0, 0, 0],
    [0x10, 0x2, 0x100, 0, 0x102, 0, 0x101, 0, 0, 0, 0],
    [0x23, 0x1, 0x100, 0, 0x101, 0, 0x101, 0, 0, 0, 0],
    [0x25, 0x1, 0x100, 0, 0, 0, 0x100, 0, 0, 0, 0],
    [0x31, 0x2, 0x100, 0, 0, 0, 0x100, 0, 0, 0, 0],
    [0x31, 0x2, 0x100, 0, 0, 0, 0x100, 0, 0, 0x20, 0],
    [0x22, 0x4, 0, 0, 0, 0, 0x100, 0x2, 0x1, 0x1, 0],
    [0x24, 0x2, 0x100, 0, 0, 0, 0x200, 0, 0, 0, 0],
    [0x24, 0x2, 0x100, 0x2, 0, 0, 0x200, 0, 0, 0, 0],
    [0x14, 0x2, 0, 0, 0, 0, 0x200, 0x4, 0x1, 0, 0],
    [0x13, 0x2, 0x100, 0, 0, 0, 0x200, 0x3, 0, 0, 0],
    [0x10, 0x401, 0xFFF, 0, 0x102, 0, 0x104, 0, 0, 0, 0]].all (faults 2) = true := by decide

/-- V-60: the rows with `FAULT = 3`. -/
theorem test_bounds_fault : [
    [0x2, 0x2, 0, 0, 0, 0, 0xFFE, 0, 0, 0, 0],
    [0x42, 0x2, 0xFFF, 0, 0, 0, 0, 0, 0xFFFFFFFF, 0, 0],
    [0x10, 0x2, 0x100, 0, 0xFFFFFFFF, 0, 0x104, 0, 0, 0, 0]].all (faults 3) = true := by decide

/-- V-60b: the five packets, all with `FAULT = 1`. -/
theorem test_illegal_opcodes_fault : [
    [0],
    [0x7, 0x1],
    [0x110, 0x2, 0x100, 0, 0x102, 0, 0x104],
    [0x46, 0x2, 0, 0, 0, 0, 0x100],
    [0xFF]].all (faults 1) = true := by decide

/-- V-60 with `CHECKED = false`: `inc 2, @0x100, 2` and `add 0, …` are refused (rule R174). -/
theorem test_trusting_unit_refuses :
    refuses [0x43, 2, 0, 0, 0, 0, 0x100, 2] = true ∧ refuses [0x10, 0, 0x100, 0, 0x102, 0, 0x104] = true := by decide

/-- V-60c: the unit with `FAULT = 2`, `RET = 1`, 010: [1, 0]. -/
def faulted : State := { unit [(0x10, [1, 0])] with ret := 1#32, fault := 2#4 }

theorem test_halted_drops_inc :
    step (presentOnly (packet [0x43, 2, 0, 0, 0, 0, 0x10]) faulted) =
      .next { presentOnly (packet [0x43, 2, 0, 0, 0, 0, 0x10]) faulted with k := 1 } := rfl

theorem test_halted_keeps_the_first_fault :
    step (presentOnly (packet [0]) faulted) = .next { presentOnly (packet [0]) faulted with k := 1 } := rfl

/-- Rule R190: reset is the exit from the halted state. -/
theorem test_reset_restarts : (hostReset [] faulted).fault = 0#4 ∧ (hostReset [] faulted).ret = 0#32 := by decide

/-! ### The step and the interface -/

/-- The table word of `add` alone has `LEN = 0`, which violates P1 (rule R173). -/
theorem test_fetch_word :
    step (State.reset.withFetchWord 32 0x10) =
      .next { State.reset.withFetchWord 32 0x10 with fault := 2#4, k := 1 } := rfl

theorem test_idle : step State.reset = .next State.reset := rfl

/-! ### The host's side (rule R41, rule R47, rule R161 to rule R163; law A3) -/

theorem test_host_write_beyond : hostWrite 0x1000 1#32 State.reset = .error .noSuchWord := by decide
theorem test_host_read_beyond : hostRead 0x1000 State.reset = .error .noSuchWord := by decide

theorem test_host_byte_little : hostByte 0x401 (unit [(0x100, [0x11223344])]) = .ok 0x33#8 := by decide

/-- A value of exactly `32·len` bits with the top bit set must succeed; one more bit, and a negative value, must fail. -/
theorem test_from_big_integer :
    (fromBigInteger 1 0x80000000 0x100 State.reset).toOption.map State.mem = some [(0x100, 0x80000000#32)] ∧
      fromBigInteger 1 0x100000000 0x100 State.reset = .error .invalidArgument ∧
      fromBigInteger 1 (-1) 0x100 State.reset = .error .invalidArgument := by decide

theorem test_to_big_integer : toBigInteger 2 0x100 (unit [(0x100, [0x89ABCDEF, 0x01234567])]) = 0x0123456789ABCDEF := by
  decide

/-! ### The assembler (the lines of rule R68 and rule R69) -/

/-- The packet of a line of text. -/
def assembled (text : List Char) : Option Packet :=
  match parseLine text with
  | some l => assemble l
  | none => none

theorem test_assemble_add :
    assembled "add 2, @0x100, @0x102, @0x104 ; a comment".toList =
      some (packet [0x10, 2, 0x100, 0, 0x102, 0, 0x104]) := by decide

theorem test_assemble_mulWordDwordAdd :
    assembled "mulWordDwordAdd 4, #0x00000003, #0x0000000100000002, @0x120, 1".toList =
      some (packet [0x22, 4, 0, 0, 0, 0, 0x120, 1, 3, 2, 1]) := by decide

theorem test_assemble_single_buffer_shift :
    assembled "shiftUpBit 2, @0x100, #0x00000000".toList =
      some (packet [0x33, 2, 0x100, 0, 0, 0, 0x100]) := by decide

theorem test_assemble_spelling : assembled "Add 2, @0x100, @0x102, @0x104".toList = none := by decide

/-! ### Witnesses: for every statement with hypotheses, a state and operands that meet all of them -/

/-- A unit fresh from reset with two two-word buffers. -/
def machine : State := unit [(0x100, [0xFFFFFFFF, 0x12345678]), (0x102, [1, 0])]

/-- The smallest legal configuration (rule R8). -/
def smallest : Config := { memWords := 2, lenMax := 1, checked := false, hostByteOrder := .big }

/-- `machine` with one packet presented. -/
def presenting (fields : List Nat) : State := presentOnly (packet fields) machine

/-- The premise of the statements about a step: the packet is the one presented. -/
theorem witness_presented (fields : List Nat) :
    (presenting fields).program[(presenting fields).k]? = some (packet fields) := rfl

theorem witness_ResetMeetsTheInvariant :
    smallest.Valid ∧ Memory.wf [(1, 7#32)] ∧ ∀ c ∈ ([(1, 7#32)] : Memory), c.1 < smallest.memWords := by decide

theorem witness_StepKeepsTheInvariant :
    (presenting [0x10, 2, 0x100, 0, 0x102, 0, 0x104]).Inv ∧
      ∃ t, step (presenting [0x10, 2, 0x100, 0, 0x102, 0, 0x104]) = .next t := ⟨by decide, _, rfl⟩

theorem witness_HostMovesKeepTheInvariant :
    machine.Inv ∧ (∃ t, hostWrite 0xFFF 7#32 machine = .ok t) ∧ Memory.wf [(0xFFF, 7#32)] ∧
      (∀ c ∈ ([(0xFFF, 7#32)] : Memory), c.1 < machine.cfg.memWords) ∧
      ∃ t, fromBigInteger 2 (2 ^ 64 - 1) 0xFFE machine = .ok t := ⟨by decide, ⟨_, rfl⟩, by decide, by decide, _, rfl⟩

/-- A checking unit, and a trusting one that the host has sent a command with a violated precondition. -/
theorem witness_ReachableStatesAreLegalAndStopOnlyWhenTrusting :
    Reachable State.reset ∧ Reachable (hostSend (packet [0x04]) (State.resetOf smallest [])) ∧
      step (hostSend (packet [0x04]) (State.resetOf smallest [])) = .refused .trustedPreconditionViolated :=
  ⟨.reset Config.testVectors [] (by decide) (by decide) (by simp),
    .move _ _ (.reset smallest [] (by decide) (by decide) (by simp)) (.hostSend _ _), rfl⟩

theorem witness_StepRunsTheDecodedCommand_next :
    (presenting [0x04, 2, 0x100]).program[(presenting [0x04, 2, 0x100]).k]? = some (packet [0x04, 2, 0x100]) ∧
      decode (packet [0x04, 2, 0x100]) = .ok (.isZero 2 0x100) ∧
      ∃ t, exec (.isZero 2 0x100) (presenting [0x04, 2, 0x100]) = .next t := ⟨by decide, by decide, _, rfl⟩

theorem witness_StepRunsTheDecodedCommand_refused :
    decode (packet [0x04, 0, 0x100]) = .ok (.isZero 0 0x100) ∧
      exec (.isZero 0 0x100) (trusting (presenting [0x04, 0, 0x100])) = .refused .trustedPreconditionViolated :=
  ⟨by decide, rfl⟩

theorem witness_StepRunsTheDecodedCommand_idle : machine.program[machine.k]? = none := by decide

theorem witness_StepFollowsTheCheckOrder_halted :
    (presentOnly (packet [0]) faulted).program[0]? = some (packet [0]) ∧
      (presentOnly (packet [0]) faulted).fault ≠ 0#4 := by decide

theorem witness_StepFollowsTheCheckOrder_illegal :
    (presenting [0x46]).fault = 0#4 ∧ decode (packet [0x46]) = .error .reservedOpcode := by decide

theorem witness_StepFollowsTheCheckOrder_violated :
    (presenting [0x43, 2, 0, 0, 0, 0, 0x100, 2]).fault = 0#4 ∧
      decode (packet [0x43, 2, 0, 0, 0, 0, 0x100, 2]) = .ok (.inc 2 0x100 2) ∧
      ¬ Legal machine.cfg (.inc 2 0x100 2) ∧ machine.cfg.checked = true ∧ (trusting machine).cfg.checked = false :=
  ⟨by decide, by decide, by simp [Legal], by decide, by decide⟩

theorem witness_StepFollowsTheCheckOrder_outside :
    decode (packet [0x02, 2, 0, 0, 0, 0, 0xFFE]) = .ok (.createExt 2 0xFFE) ∧
      Legal machine.cfg (.createExt 2 0xFFE) ∧ ¬ AllInside machine.cfg (.createExt 2 0xFFE) :=
  ⟨by decide, by simp only [Legal]; decide, fun h => absurd (h 0x1000 (.inr ⟨by decide, by decide⟩)) (by decide)⟩

theorem witness_StepFollowsTheCheckOrder_completes :
    decode (packet [0x01, 2, 0, 0, 0, 0, 0xFFE]) = .ok (.create 2 0xFFE) ∧
      Legal machine.cfg (.create 2 0xFFE) ∧ AllInside machine.cfg (.create 2 0xFFE) :=
  have hl : Legal machine.cfg (.create 2 0xFFE) := by simp only [Legal]; decide
  ⟨by decide, hl, (regionsInside_iff _ _ hl).1 (by decide)⟩

/-- P9: a partial overlap by one word (V-60 row 4), and P1 at both ends of its range. -/
theorem witness_CommandsAreCheckedBeforeTheyRun :
    machine.fault = 0#4 ∧ ¬ Legal machine.cfg (.add 2 0x100 0x102 0x101) ∧ ¬ Legal machine.cfg (.create 0 0x100) ∧
      ¬ Legal machine.cfg (.create 0x401 0x100) ∧ machine.cfg.checked = true ∧
      (trusting machine).cfg.checked = false ∧ Legal machine.cfg (.create 0x400 0xC01) ∧
      ¬ AllInside machine.cfg (.create 0x400 0xC01) :=
  ⟨by decide, by simp only [Legal]; decide, by simp only [Legal]; decide, by simp only [Legal]; decide, by decide,
    by decide, by simp only [Legal]; decide,
    fun h => absurd (h 0x1000 (.inr ⟨by decide, by decide⟩)) (by decide)⟩

/-- A halted unit, and what follows when the host writes a word, sends a packet, which the unit drops, and converts a value. -/
theorem witness_HaltedUnitStaysHaltedUntilReset :
    faulted.fault ≠ 0#4 ∧ ∃ t u v w, hostWrite 0xFFF 7#32 faulted = .ok t ∧ hostSend (packet [0x03, 1]) t = u ∧
      step u = .next v ∧ fromBigInteger 1 5 0 v = .ok w ∧ UntilReset faulted w :=
  ⟨by decide, _, _, _, _, rfl, rfl, rfl, rfl,
    .move _ _ (.move _ _ (.move _ _ (.move _ _ .refl (.hostWrite _ _ 0xFFF 7#32 rfl)) (.hostSend _ (packet [0x03, 1])))
      (.step _ _ rfl)) (.fromBigInteger _ _ 1 5 0 rfl)⟩

theorem witness_ReservedEncodingsFault :
    (presenting [0x46]).program[(presenting [0x46]).k]? = some (packet [0x46]) ∧ (presenting [0x46]).fault = 0#4 ∧
      (packet [0x46]).op.toNat ∉ [0x01, 0x02, 0x03, 0x04, 0x05, 0x06, 0x10, 0x11, 0x12, 0x13, 0x14, 0x18, 0x19, 0x1A,
        0x1B, 0x20, 0x21, 0x22, 0x23, 0x24, 0x25, 0x30, 0x31, 0x32, 0x33, 0x40, 0x41, 0x42, 0x43, 0x44, 0x45] := by
  decide

theorem witness_FaultEntryChangesOnlyFault :
    ∃ t, step (presenting [0x46]) = .next t ∧ t.fault ≠ (presenting [0x46]).fault := ⟨_, rfl, by decide⟩

theorem witness_EveryStepEnds :
    machine.cfg.checked = true ∧
      step (trusting (presenting [0x04, 0, 0x100])) = .refused .trustedPreconditionViolated := ⟨by decide, rfl⟩

theorem witness_DecodeInvertsEncode :
    (Instr.mulWordAddExt 0xFFFFFFFF 0xFFFFFFFF#32 0xFFFFFFFF 0 0xFFFFFFFF 0xFFFFFFFF).wellFormed = true := by decide

theorem witness_DecodedCommandsReencode :
    decode (packet [0x25, 1, 0x100, 9, 9, 9, 0x200, 9, 9, 9, 9]) = .ok (.square 1 0x100 0x200) := by decide

theorem witness_PacketBitsAndFieldsAgree : 2 ^ 352 - 1 < 2 ^ 352 := Nat.sub_lt (Nat.two_pow_pos 352) Nat.one_pos

theorem witness_OpcodeMapIsTheTable :
    decode (packet [0x45, 1, 0, 0, 0, 0, 2, 3]) = .ok (.dec 1 2 3) ∧
      (packet [0x45, 1, 0, 0, 0, 0, 2, 3]).op.toNat = 0x45 := by decide

theorem witness_UnusedFieldsAreIgnored :
    decode (packet [0x03, 1, 0, 0, 0, 0, 2]) = .ok (.zero 1 2) ∧
      (packet [0x03, 1, 5, 6, 7, 8, 2, 9, 10, 11, 12]).op = (packet [0x03, 1, 0, 0, 0, 0, 2]).op ∧
      (packet [0x03, 1, 5, 6, 7, 8, 2, 9, 10, 11, 12]).len = (packet [0x03, 1, 0, 0, 0, 0, 2]).len ∧
      (packet [0x03, 1, 5, 6, 7, 8, 2, 9, 10, 11, 12]).za = (packet [0x03, 1, 0, 0, 0, 0, 2]).za := by decide

theorem witness_AssemblerReadsItsOwnListing :
    (Instr.mulWordDwordAdd 4 3#32 0xFFFFFFFFFFFFFFFF#64 0x120 1).wellFormed = true := by decide

/-- The longest length, ending at the last word of memory. -/
theorem witness_CreateAndZeroFillWithZero :
    Accepts machine 0x400 ∧ Fits machine 0xC00 0x400 ∧ Instr.zero 0x400 0xC00 = Instr.zero 0x400 0xC00 := by decide

theorem witness_CreateExtFillsBothHalves : Accepts machine 0x400 ∧ Fits machine 0x800 (2 * 0x400) := by decide

theorem witness_ZeroTestsReadTheValue :
    Accepts machine 1 ∧ Fits machine 0xFFF 1 ∧ Fits machine 0xFFE (2 * 1) := by decide

theorem witness_IsOneReadsTheValue : Accepts machine 2 ∧ Fits machine 0x102 2 := by decide

/-- Disjoint buffers that touch, and the exact alias of all three. -/
theorem witness_AddIsExact :
    Accepts machine 2 ∧ Fits machine 0x100 2 ∧ Fits machine 0x102 2 ∧ Fits machine 0x104 2 ∧
      ApartOrSame 0x100 0x104 2 ∧ ApartOrSame 0x102 0x104 2 ∧ ApartOrSame 0x100 0x100 2 := by decide

theorem witness_AddBothToIsExact :
    Accepts machine 2 ∧ Fits machine 0x100 2 ∧ Fits machine 0x102 2 ∧ Fits machine 0x104 2 ∧
      ApartOrSame 0x100 0x104 2 ∧ ApartOrSame 0x102 0x104 2 := by decide

theorem witness_AddExtIsExact :
    Accepts machine 1 ∧ Fits machine 0x100 (2 * 1) ∧ Fits machine 0x102 (2 * 1) ∧ Fits machine 0xFFE (2 * 1) ∧
      ApartOrSame 0x100 0xFFE (2 * 1) ∧ ApartOrSame 0x102 0xFFE (2 * 1) := by decide

/-- `zzOff` at both ends of its range. -/
theorem witness_AddToExtIsExact :
    Accepts machine 2 ∧ (2 ≤ 2 ∧ Fits machine (0x100 + 1) 2 ∧ Fits machine (0x200 + 2) 2 ∧
      ApartOrSame (0x100 + 1) (0x200 + 2) 2) ∧
      (0 ≤ 2 ∧ Fits machine (0x200 + 0) 2 ∧ ApartOrSame (0x200 + 0) (0x200 + 0) 2) := by decide

theorem witness_AddWordExtIsExact :
    Accepts machine 2 ∧ 3 ≤ 2 * 2 - 1 ∧ 0 ≤ 2 * 2 - 1 ∧ Fits machine 0xFFC (2 * 2) := by decide

theorem witness_SubIsExact :
    Accepts machine 1 ∧ Fits machine 0x100 1 ∧ Fits machine 0x102 1 ∧ Fits machine 0xFFF 1 ∧
      ApartOrSame 0x100 0xFFF 1 ∧ ApartOrSame 0x102 0xFFF 1 := by decide

theorem witness_SubBothFromIsExact :
    Accepts machine 2 ∧ Fits machine 0x100 2 ∧ Fits machine 0x102 2 ∧ Fits machine 0x104 2 ∧
      ApartOrSame 0x100 0x104 2 ∧ ApartOrSame 0x102 0x104 2 := by decide

theorem witness_SubExtIsExact :
    Accepts machine 1 ∧ Fits machine 0x100 (2 * 1) ∧ Fits machine 0x102 (2 * 1) ∧ Fits machine 0x104 (2 * 1) ∧
      ApartOrSame 0x100 0x104 (2 * 1) ∧ ApartOrSame 0x102 0x104 (2 * 1) := by decide

theorem witness_SubFromExtIsExact :
    Accepts machine 2 ∧ 2 ≤ 2 ∧ 0 ≤ 2 ∧ Fits machine (0x100 + 1) 2 ∧ Fits machine (0x200 + 2) 2 ∧
      ApartOrSame (0x100 + 1) (0x200 + 2) 2 := by decide

theorem witness_MulWordExtIsExact :
    Accepts machine 2 ∧ 2 ≤ 2 ∧ 0 ≤ 2 ∧ Fits machine 0x100 2 ∧ Fits machine (0x100 + 2) 2 ∧
      Apart 0x100 2 (0x100 + 2) 2 := by decide

theorem witness_MulWordAddExtIsExact :
    Accepts machine 2 ∧ 2 ≤ 2 ∧ 0 ≤ 2 ∧ Fits machine (0x100 + 1) 2 ∧ Fits machine (0x200 + 2) 2 ∧
      Apart (0x100 + 1) 2 (0x200 + 2) 2 := by decide

theorem witness_MulWordDwordAddIsExact :
    Accepts machine 3 ∧ 0 + 3 ≤ 3 ∧ Fits machine 0xFFD 3 ∧ Accepts machine 5 ∧ 2 + 3 ≤ 5 ∧ Fits machine 0x100 5 := by
  decide

theorem witness_MulIsExact :
    Accepts machine 2 ∧ Fits machine 0x100 2 ∧ Fits machine 0x102 2 ∧ Fits machine 0x104 (2 * 2) ∧
      Apart 0x100 2 0x104 (2 * 2) ∧ Apart 0x102 2 0x104 (2 * 2) := by decide

/-- `xPos` at both ends of its range. -/
theorem witness_SquareWordAddExtIsExact :
    Accepts machine 3 ∧ (0 < 1 ∧ 1 < 3) ∧ (0 < 2 ∧ 2 < 3) ∧ Fits machine 0x100 3 ∧ Fits machine 0x200 (2 * 3) ∧
      Apart 0x100 3 0x200 (2 * 3) := by decide

theorem witness_SquareIsExact :
    Accepts machine 2 ∧ Fits machine 0x100 2 ∧ Fits machine 0x102 (2 * 2) ∧ Apart 0x100 2 0x102 (2 * 2) := by decide

theorem witness_SquareEqualsMul : machine.mem.wf := by decide

theorem witness_ShiftDownBitHalves :
    Accepts machine 2 ∧ Fits machine 0x100 2 ∧ ApartOrSame 0x100 0x100 2 ∧ Fits machine 0x102 2 ∧
      ApartOrSame 0x100 0x102 2 := by decide

/-- The shift amount at both ends of its range. -/
theorem witness_ShiftDownBitsDivides :
    Accepts machine 2 ∧ (0 < 1 ∧ 1 < 32) ∧ (0 < 31 ∧ 31 < 32) ∧ Fits machine 0x100 2 ∧ Fits machine 0x102 2 ∧
      ApartOrSame 0x100 0x102 2 := by decide

/-- One word, where nothing moves down, and two, where word 1 does. -/
theorem witness_ShiftDownWordMovesWords :
    Accepts machine 1 ∧ Fits machine 0xFFF 1 ∧ ApartOrSame 0xFFF 0xFFF 1 ∧ Accepts machine 2 ∧ Fits machine 0x100 2 ∧
      ApartOrSame 0x100 0x100 2 ∧ 0 + 1 < 2 := by decide

theorem witness_ShiftUpBitDoubles :
    Accepts machine 2 ∧ Fits machine 0x100 2 ∧ Fits machine 0x104 2 ∧ ApartOrSame 0x100 0x104 2 := by decide

theorem witness_ShiftsRoundTrip : Accepts machine 2 ∧ Fits machine 0x100 2 := by decide

theorem witness_ComparisonsOrderTheValues :
    Accepts machine 1 ∧ (Fits machine 0x100 1 ∧ Fits machine 0xFFF 1) ∧
      (Fits machine 0x100 (2 * 1) ∧ Fits machine 0xFFE (2 * 1)) := by decide

/-- The last bit of the buffer and the first beyond it. -/
theorem witness_GetBitReadsTheValue :
    Accepts machine 2 ∧ Fits machine 0x100 2 ∧ (63#32 : Word).toNat < 32 * 2 ∧ ¬ (64#32 : Word).toNat < 32 * 2 := by
  decide

theorem witness_IncIsExact : Accepts machine 2 ∧ 1 < 2 ∧ 0 < 2 ∧ Fits machine 0x100 2 := by decide

theorem witness_IncExtIsExact : Accepts machine 2 ∧ 3 < 2 * 2 ∧ 0 < 2 * 2 ∧ Fits machine 0x100 (2 * 2) := by decide

theorem witness_DecIsExact : Accepts machine 2 ∧ 1 < 2 ∧ 0 < 2 ∧ Fits machine 0x100 2 := by decide

theorem witness_SubUndoesAdd :
    Accepts machine 2 ∧ Fits machine 0x100 2 ∧ Fits machine 0x102 2 ∧ Fits machine 0x104 2 ∧ Fits machine 0x106 2 ∧
      ApartOrSame 0x100 0x104 2 ∧ Apart 0x102 2 0x104 2 ∧ ApartOrSame 0x104 0x106 2 ∧ ApartOrSame 0x102 0x106 2 := by
  decide

/-- The magnitude at 0x102 is 1. -/
theorem witness_IncrementAndCompareLaws :
    Accepts machine 2 ∧ (1 < 2 ∧ Fits machine 0x100 2) ∧
      (Fits machine 0x102 2 ∧ ApartOrSame 0x102 0x100 2 ∧ ApartOrSame 0x102 0x102 2 ∧ machine.mem.val 0x102 2 = 1) ∧
      (Fits machine 0x104 2 ∧ ApartOrSame 0x100 0x104 2 ∧ ApartOrSame 0x102 0x104 2) := by decide

theorem witness_InPlaceForms : Accepts machine 2 ∧ Fits machine 0x100 2 := by decide

/-- Buffers that touch, the higher one at the higher address and at the lower; the shift amount at both ends of its range. -/
theorem witness_ChainedShiftsShiftTheWideValue :
    Accepts machine 2 ∧ Fits machine 0x100 2 ∧ Fits machine 0x102 2 ∧ Apart 0x100 2 0x102 2 ∧ Apart 0x102 2 0x100 2 ∧
      (0 < 1 ∧ 1 < 32) ∧ (0 < 31 ∧ 31 < 32) := by decide

theorem witness_CommandsWriteOnlyTheirRegion :
    machine.mem.wf ∧ ∃ t, exec (.dec 2 0x102 1) machine = .next t := ⟨by decide, _, rfl⟩

/-- Two memories that differ outside the regions of the command. -/
theorem witness_ResultsDependOnlyOnTheRegions :
    machine.mem.wf ∧ (hostReset (machine.mem.write 0x300 5#32) machine).mem.wf ∧ machine.fault = 0#4 ∧
      (hostReset (machine.mem.write 0x300 5#32) machine).fault = 0#4 ∧
      (hostReset (machine.mem.write 0x300 5#32) machine).cfg = machine.cfg ∧
      Legal machine.cfg (.shiftUpBit 2 0x100 0#32 0x104) ∧ AllInside machine.cfg (.shiftUpBit 2 0x100 0#32 0x104) ∧
      (∀ q, Reads (.shiftUpBit 2 0x100 0#32 0x104) q ∨ Writes (.shiftUpBit 2 0x100 0#32 0x104) q →
        (hostReset (machine.mem.write 0x300 5#32) machine).mem.read q = machine.mem.read q) ∧
      (hostReset (machine.mem.write 0x300 5#32) machine).mem.read 0x300 ≠ machine.mem.read 0x300 :=
  have hl : Legal machine.cfg (.shiftUpBit 2 0x100 0#32 0x104) := by simp only [Legal]; decide
  ⟨by decide, by decide, by decide, by decide, by decide, hl, (regionsInside_iff _ _ hl).1 (by decide),
    fun q hq => by
      simp only [Reads, Writes] at hq
      exact read_write_other 5#32 (by omega), by decide⟩

theorem witness_HostMemoryPortReadsBack :
    machine.mem.wf ∧ 0xFFF < machine.cfg.memWords ∧ 0 ≠ 0xFFF ∧ machine.cfg.memWords ≤ 0x1000 := by decide

theorem witness_HostByteViewFollowsItsOrder :
    (3 < 4 ∧ 0xFFF < machine.cfg.memWords ∧ machine.cfg.hostByteOrder = .little) ∧
      (0 < 4 ∧ 1 < (State.resetOf smallest []).cfg.memWords ∧
        (State.resetOf smallest []).cfg.hostByteOrder = .big) ∧ machine.cfg.memWords ≤ 0x1000 := by decide

/-- The largest value that fits 64 bits, one more, and the largest negative one. -/
theorem witness_FromBigIntegerWritesTheValue :
    machine.mem.wf ∧ Fits machine 0xFFE 2 ∧ (2 ^ (32 * 2) ≤ (0x10000000000000000 : Int)) ∧ ((-1 : Int) < 0) ∧
      (0 ≤ (0xFFFFFFFFFFFFFFFF : Int) ∧ (0xFFFFFFFFFFFFFFFF : Int) < 2 ^ (32 * 2)) := by decide

theorem witness_ConversionsRoundTrip :
    machine.mem.wf ∧ Fits machine 0x100 2 ∧ Fits machine 0xFFE 2 ∧ Fits machine 0x101 2 ∧ 1 < 2 ∧ (0 ≤ (0xFFFFFFFFFFFFFFFF : Int) ∧
      (0xFFFFFFFFFFFFFFFF : Int) < 2 ^ (32 * 2)) ∧ (2 ^ (32 * 2) ≤ (0x10000000000000000 : Int)) := by decide

end Sys2Proof.Tests
end

