-- ==== Sys2Proof/Proofs/StepCases.lean ====
section
/-! SUPPORT. What a step can answer, said once: the inversion of `advance`, `illegalPacket`, `exec` and `step` (rule R26, rule R171). -/

namespace Sys2Proof.Machine

theorem advance_eq_next_iff {o : Host.Outcome State Fault Refusal} {t : State} :
    advance o = .next t ↔ ∃ u, o = .next u ∧ t = { u with k := u.k + 1 } := by
  cases o with
  | next u => simp [eq_comm]
  | fault r => simp
  | refused r => simp

/-- A packet that decodes to no command is dropped by a halted unit and faults otherwise (rule R171, rule R172). -/
theorem illegalPacket_next_cases {s t : State} (h : illegalPacket s = .next t) :
    (s.fault ≠ 0#4 ∧ t = s) ∨ (s.fault = 0#4 ∧ t = raiseFault illegalOperation s) := by
  unfold illegalPacket at h
  cases hh : halted s with
  | true => exact .inl ⟨(halted_eq_true_iff s).1 hh, by simpa [hh, eq_comm] using h⟩
  | false => exact .inr ⟨(halted_eq_false_iff s).1 hh, by simpa [hh, eq_comm] using h⟩

/-- Every way a command can have a next state: dropped, a violated precondition, out of bounds, or completed (rule R171). -/
theorem exec_next_cases {i : Instr} {s t : State} (h : exec i s = .next t) :
    (s.fault ≠ 0#4 ∧ t = s) ∨
    (s.fault = 0#4 ∧ ¬ Legal s.cfg i ∧ s.cfg.checked = true ∧ t = raiseFault preconditionViolated s) ∨
    (s.fault = 0#4 ∧ Legal s.cfg i ∧ ¬ AllInside s.cfg i ∧ t = raiseFault outOfBounds s) ∨
    (s.fault = 0#4 ∧ Legal s.cfg i ∧ AllInside s.cfg i ∧ t = complete (body i s.mem) s) := by
  rw [exec_eq_issue] at h
  rcases issue_cases i (body i) s with
    ⟨hf, he⟩ | ⟨hf, hp, hc, he⟩ | ⟨-, -, -, he⟩ | ⟨hf, hp, hb, he⟩ | ⟨hf, hp, hb, he⟩ <;> rw [he] at h <;> cases h
  · exact .inl ⟨hf, rfl⟩
  · exact .inr (.inl ⟨hf, by simp [← preconditionHolds_iff, hp], hc, rfl⟩)
  · have hl := (preconditionHolds_iff s.cfg i).1 hp
    exact .inr (.inr (.inl ⟨hf, hl, by simp [← regionsInside_iff s.cfg i hl, hb], rfl⟩))
  · have hl := (preconditionHolds_iff s.cfg i).1 hp
    exact .inr (.inr (.inr ⟨hf, hl, (regionsInside_iff s.cfg i hl).1 hb, rfl⟩))

/-- Every way a step can have a next state: idle, or the packet presented is taken and the index moves on (rule R26). -/
theorem step_next_cases {s t : State} (h : step s = .next t) :
    (presented s = none ∧ t = s) ∨
    ∃ p u, presented s = some p ∧ t = { u with k := u.k + 1 } ∧
      ((∃ i, decode p = .ok i ∧ exec i s = .next u) ∨ ∃ e, decode p = .error e ∧ illegalPacket s = .next u) := by
  unfold step at h
  cases hp : presented s with
  | none => exact .inl ⟨rfl, by simpa [hp, eq_comm] using h⟩
  | some p =>
    cases hd : decode p with
    | ok i =>
      simp only [hp, hd] at h
      obtain ⟨u, hu, ht⟩ := advance_eq_next_iff.1 h
      exact .inr ⟨p, u, rfl, ht, .inl ⟨i, hd, hu⟩⟩
    | error e =>
      simp only [hp, hd] at h
      obtain ⟨u, hu, ht⟩ := advance_eq_next_iff.1 h
      exact .inr ⟨p, u, rfl, ht, .inr ⟨e, hd, hu⟩⟩

end Sys2Proof.Machine
end

