-- ==== Sys2Proof/Proofs/Invariant.lean ====
section
/-! SUPPORT. The invariant at reset and over a step (rule R8, rule R25, rule R47). -/

namespace Sys2Proof.Machine

theorem inv_resetOf {cfg : Config} {m : Memory} (hcfg : cfg.Valid) (hwf : m.wf) (hin : ∀ c ∈ m, c.1 < cfg.memWords) :
    (State.resetOf cfg m).Inv := ⟨hcfg, hwf, hin, Nat.zero_le 3⟩

/-- Fault entry writes `FAULT` alone, so it keeps the invariant when the code is one of the spec's (rule R175). -/
theorem inv_raiseFault {s : State} {code : BitVec 4} (h : s.Inv) (hcode : code.toNat ≤ 3) : (raiseFault code s).Inv := by
  obtain ⟨hcfg, hwf, hin, -⟩ := h
  exact ⟨hcfg, hwf, hin, hcode⟩

/-- A completed command keeps the invariant: its pseudocode keeps memory canonical and writes only words of its W region, and these
exist (rule R44, rule R45). -/
theorem inv_complete {i : Instr} {s : State} (h : s.Inv) (hl : Legal s.cfg i) (hin : AllInside s.cfg i) :
    (complete (body i s.mem) s).Inv := by
  obtain ⟨hcfg, hwf, hexist, hfault⟩ := h
  obtain ⟨hwf', hframe⟩ := body_frame hwf hl
  exact ⟨hcfg, hwf', cells_exist_of_frame hwf' hframe (fun q hq => hin q (.inr hq)) hexist, hfault⟩

theorem exec_keeps_inv {i : Instr} {s t : State} (h : s.Inv) (ht : exec i s = .next t) : t.Inv := by
  rcases exec_next_cases ht with ⟨-, rfl⟩ | ⟨-, -, -, rfl⟩ | ⟨-, -, -, rfl⟩ | ⟨-, hl, hin, rfl⟩
  · exact h
  · exact inv_raiseFault h (by decide)
  · exact inv_raiseFault h (by decide)
  · exact inv_complete h hl hin

theorem illegalPacket_keeps_inv {s t : State} (h : s.Inv) (ht : illegalPacket s = .next t) : t.Inv := by
  rcases illegalPacket_next_cases ht with ⟨-, rfl⟩ | ⟨-, rfl⟩
  · exact h
  · exact inv_raiseFault h (by decide)

/-- The index `k` is no part of the invariant: it is not state of the unit (rule R26). -/
theorem inv_withIndex_iff {s : State} {n : Nat} : State.Inv { s with k := n } ↔ s.Inv := Iff.rfl

theorem step_keeps_inv {s t : State} (h : s.Inv) (ht : step s = .next t) : t.Inv := by
  obtain ⟨-, rfl⟩ | ⟨p, u, -, rfl, ⟨i, -, hu⟩ | ⟨e, -, hu⟩⟩ := step_next_cases ht
  · exact h
  · exact inv_withIndex_iff.2 (exec_keeps_inv h hu)
  · exact inv_withIndex_iff.2 (illegalPacket_keeps_inv h hu)

/-- Settles O3, by the ways a step can have a next state (`step_next_cases`, `exec_next_cases`): the frame of every pseudocode
(`body_frame`) keeps memory canonical and inside the address space. -/
theorem stepKeepsTheInvariant : Obligations.StepKeepsTheInvariant :=
  fun _ _ => step_keeps_inv

/-- Settles O2: `State.reset` is the case of the test vectors' configuration and an empty memory list. -/
theorem resetMeetsTheInvariant : Obligations.ResetMeetsTheInvariant :=
  ⟨inv_resetOf (by decide) wf_nil (by simp), fun _ _ => inv_resetOf⟩

end Sys2Proof.Machine
end

