-- ==== Sys2Proof/Proofs/Progress.lean ====
section
/-! SUPPORT. The step by what is presented, and that it has a next state but for the one refusal of rule R174 (rule R26, rule R171,
rule R200). -/

namespace Sys2Proof.Machine

/-! ### `step`, case by case -/

theorem step_of_presented_none {s : State} (h : presented s = none) : step s = .next s := by
  simp [step, h]

theorem step_of_decode_ok {s : State} {p : Packet} {i : Instr} (hp : presented s = some p) (hd : decode p = .ok i) :
    step s = advance (exec i s) := by
  simp [step, hp, hd]

theorem step_of_decode_error {s : State} {p : Packet} {e : Reject} (hp : presented s = some p)
    (hd : decode p = .error e) : step s = advance (illegalPacket s) := by
  simp [step, hp, hd]

/-! ### What has a next state -/

theorem illegalPacket_has_next (s : State) : ∃ t, illegalPacket s = .next t := by
  unfold illegalPacket
  split
  · exact ⟨_, rfl⟩
  · exact ⟨_, rfl⟩

theorem advance_has_next {o : Host.Outcome State Fault Refusal} (h : ∃ t, o = .next t) : ∃ t, advance o = .next t := by
  obtain ⟨t, rfl⟩ := h
  exact ⟨_, advance_next t⟩

/-- A command has a next state, or it is the one a trusting unit refuses (rule R174). -/
theorem exec_next_or_refused (i : Instr) (s : State) :
    (∃ t, exec i s = .next t) ∨
    (s.cfg.checked = false ∧ s.fault = 0#4 ∧ exec i s = .refused .trustedPreconditionViolated ∧ ¬ Legal s.cfg i) := by
  rw [exec_eq_issue]
  rcases issue_cases i (body i) s with
    ⟨-, he⟩ | ⟨-, -, -, he⟩ | ⟨hf, hp, hc, he⟩ | ⟨-, -, -, he⟩ | ⟨-, -, -, he⟩
  · exact .inl ⟨_, he⟩
  · exact .inl ⟨_, he⟩
  · exact .inr ⟨hc, hf, he, by simp [← preconditionHolds_iff, hp]⟩
  · exact .inl ⟨_, he⟩
  · exact .inl ⟨_, he⟩

/-- A step has a next state, or it is that of a trusting unit that is not halted, on a violated precondition (rule R200). -/
theorem step_next_or_refused (s : State) :
    (∃ t, step s = .next t) ∨
    (s.cfg.checked = false ∧ s.fault = 0#4 ∧ step s = .refused .trustedPreconditionViolated ∧
      ∃ p i, presented s = some p ∧ decode p = .ok i ∧ ¬ Legal s.cfg i) := by
  cases hp : presented s with
  | none => exact .inl ⟨s, step_of_presented_none hp⟩
  | some p =>
    cases hd : decode p with
    | error e =>
      rw [step_of_decode_error hp hd]
      exact .inl (advance_has_next (illegalPacket_has_next s))
    | ok i =>
      rw [step_of_decode_ok hp hd]
      rcases exec_next_or_refused i s with hn | ⟨hc, hf, he, hl⟩
      · exact .inl (advance_has_next hn)
      · exact .inr ⟨hc, hf, by rw [he, advance_refused], p, i, rfl, hd, hl⟩

/-- Settles O6: the step lemmas, with `advance` moving the index on after a next state and passing a refusal through. -/
theorem stepRunsTheDecodedCommand : Obligations.StepRunsTheDecodedCommand := by
  intro s
  refine ⟨fun p i hp hd => ⟨fun t ht => ?_, fun r hr => ?_⟩, step_of_presented_none⟩
  · rw [step_of_decode_ok hp hd, ht, advance_next]
  · rw [step_of_decode_ok hp hd, hr, advance_refused]

end Sys2Proof.Machine
end

