-- ==== Sys2Proof/Proofs/Reachable.lean ====
section
/-! SUPPORT. The reset values, and the invariant over the host's moves and over every reachable state (rule R28,
rule R52, rule R161, rule R190). -/

namespace Sys2Proof.Machine

/-! ### Reset -/

/-- Settles O1: the fields of the two reset states, `State.reset` being the one of the test vectors' configuration. -/
theorem resetClearsTheResponseRegisters : Obligations.ResetClearsTheResponseRegisters :=
  ⟨fun m s => ⟨hostReset_ret m s, hostReset_fault m s, hostReset_k m s, hostReset_mem m s, hostReset_cfg m s,
      hostReset_program m s⟩,
    fun cfg m => ⟨resetOf_ret cfg m, resetOf_fault cfg m, resetOf_k cfg m, resetOf_mem cfg m⟩,
    resetOf_ret Config.testVectors [], resetOf_fault Config.testVectors [], resetOf_k Config.testVectors []⟩

/-! ### The host's moves -/

/-- A host move that changes `M` alone keeps the invariant when the new memory is canonical and inside the address space. -/
theorem inv_withMemory {s : State} {m : Memory} (h : s.Inv) (hwf : m.wf) (hin : ∀ c ∈ m, c.1 < s.cfg.memWords) :
    State.Inv { s with mem := m } := by
  obtain ⟨hcfg, -, -, hfault⟩ := h
  exact ⟨hcfg, hwf, hin, hfault⟩

theorem hostWrite_keeps_inv {a : Nat} {v : Word} {s t : State} (h : s.Inv) (ht : hostWrite a v s = .ok t) : t.Inv := by
  obtain ⟨ha, rfl⟩ := hostWrite_eq_ok_iff.1 ht
  have ⟨_, hwf, hin, _⟩ := h
  refine inv_withMemory h (write_wf a v hwf) fun c hc => ?_
  rcases mem_write hc with rfl | hc
  · exact ha
  · exact hin c hc

/-- The host's list of packets is no part of the invariant: it is not state of the unit (rule R26). -/
theorem hostSend_keeps_inv {s : State} (p : Packet) (h : s.Inv) : (hostSend p s).Inv := h

/-- Reset clears `FAULT` and keeps the configuration, so only the memory it leaves has to be legal (rule R190). -/
theorem hostReset_keeps_inv {s : State} {m : Memory} (h : s.Inv) (hwf : m.wf) (hin : ∀ c ∈ m, c.1 < s.cfg.memWords) :
    (hostReset m s).Inv := by
  obtain ⟨hcfg, -, -, -⟩ := h
  exact ⟨hcfg, hwf, hin, Nat.zero_le 3⟩

/-- The words `fromBigInteger` puts are those of its region, which exist when it succeeds (rule R161). -/
theorem fromBigInteger_keeps_inv {len a : Nat} {value : Int} {s t : State} (h : s.Inv)
    (ht : fromBigInteger len value a s = .ok t) : t.Inv := by
  obtain ⟨-, -, hfit, rfl⟩ := fromBigInteger_eq_ok_iff.1 ht
  have ⟨_, hwf, hin, _⟩ := h
  obtain ⟨hwf', hsame, -⟩ := putWords_spec a value.toNat len s.mem hwf
  exact inv_withMemory h hwf' (cells_exist_of_frame hwf' hsame (fun q hq => hq.2.trans_le hfit) hin)

/-- Settles O4, move by move: each writes only words that exist, and none sets `FAULT` to anything but 0. -/
theorem hostMovesKeepTheInvariant : Obligations.HostMovesKeepTheInvariant :=
  fun _ h => ⟨fun _ _ _ => hostWrite_keeps_inv h, fun p => hostSend_keeps_inv p h, fun _ => hostReset_keeps_inv h,
    fun _ _ _ _ => fromBigInteger_keeps_inv h⟩

/-! ### Reachable states -/

theorem move_keeps_inv {s t : State} (h : s.Inv) (hmove : Move s t) : t.Inv := by
  cases hmove with
  | step _ stepped => exact step_keeps_inv h stepped
  | hostWrite _ a v wrote => exact hostWrite_keeps_inv h wrote
  | hostSend p => exact hostSend_keeps_inv p h
  | fromBigInteger _ len value a converted => exact fromBigInteger_keeps_inv h converted

/-- The invariant's induction, done once: it holds at reset, and every move and every later reset keeps it. -/
theorem inv_of_reachable {s : State} (h : Reachable s) : s.Inv := by
  induction h with
  | reset cfg m valid canonical exist => exact inv_resetOf valid canonical exist
  | move s t _ moved ih => exact move_keeps_inv ih moved
  | hostReset s m _ canonical exist ih => exact hostReset_keeps_inv ih canonical exist

/-- Settles O5: the invariant by induction over the moves; the next state or the refusal by `step_next_or_refused`, which needs
no invariant. -/
theorem reachableStatesAreLegalAndStopOnlyWhenTrusting : Obligations.ReachableStatesAreLegalAndStopOnlyWhenTrusting :=
  fun s h => ⟨inv_of_reachable h, step_next_or_refused s⟩

end Sys2Proof.Machine
end

