-- ==== Sys2Proof/Proofs/Isolation.lean ====
section
/-! SUPPORT. A command changes no word outside its destination region, and what it computes depends on no word outside its regions
(rule R45, rule R48, rule R192). -/

namespace Sys2Proof.Machine

/-- Settles O55, by the ways a command can have a next state (`exec_next_cases`): dropped and faulting commands keep memory, and a
completed one has the frame of its pseudocode (`body_frame`). -/
theorem commandsWriteOnlyTheirRegion : Obligations.CommandsWriteOnlyTheirRegion := by
  intro i s t hwf ht
  rcases exec_next_cases ht with ⟨-, rfl⟩ | ⟨-, -, -, rfl⟩ | ⟨-, -, -, rfl⟩ | ⟨-, hl, -, rfl⟩
  · exact ⟨fun _ _ => rfl, rfl, rfl, rfl⟩
  · exact ⟨fun _ _ => rfl, rfl, rfl, rfl⟩
  · exact ⟨fun _ _ => rfl, rfl, rfl, rfl⟩
  · obtain ⟨-, hframe⟩ := body_frame hwf hl
    exact ⟨hframe, rfl, rfl, rfl⟩

/-- Settles O56: both runs complete, and `body_agree` compares their pseudocode over the set of words in the command's regions. -/
theorem resultsDependOnlyOnTheRegions : Obligations.ResultsDependOnlyOnTheRegions := by
  intro i s s' hwf hwf' hf hf' hcfg hl hall hread
  have hin : regionsInside s.cfg i = true := (regionsInside_iff s.cfg i hl).2 hall
  have hagree : Agree (fun q => Reads i q ∨ Writes i q) s.mem s'.mem := ⟨hwf, hwf', hread⟩
  obtain ⟨hmem, hret⟩ := body_agree hl hagree (fun _ => .inl) (fun _ => .inr)
  exact ⟨complete (body i s.mem) s, complete (body i s'.mem) s', exec_completes hf hl hin,
    exec_completes hf' (hcfg ▸ hl) (hcfg ▸ hin), hret, fun q hq => hmem.read (.inr hq)⟩

end Sys2Proof.Machine
end

