-- ==== Sys2Proof/Proofs/HostPort.lean ====
section
/-! SUPPORT. What the host's memory port and its byte view answer (rule R41, rule R46, rule R47, rule R52). -/

namespace Sys2Proof.Machine

/-! ### The memory port -/

/-- `hostRead` succeeds exactly on a word that exists, with that word (rule R52). -/
theorem hostRead_eq_ok_iff {a : Nat} {v : Word} {s : State} :
    hostRead a s = .ok v ↔ a < s.cfg.memWords ∧ s.mem.read a = v := by
  unfold hostRead
  split <;> simp [*]

theorem hostRead_of_noSuchWord {a : Nat} {s : State} (h : s.cfg.memWords ≤ a) : hostRead a s = .error .noSuchWord :=
  if_neg h.not_gt

theorem hostWrite_of_noSuchWord {a : Nat} {v : Word} {s : State} (h : s.cfg.memWords ≤ a) :
    hostWrite a v s = .error .noSuchWord :=
  if_neg h.not_gt

/-- What the port reads depends on the configuration and on the one word at its address. -/
theorem hostRead_congr {q : Nat} {s t : State} (hcfg : t.cfg = s.cfg) (hread : t.mem.read q = s.mem.read q) :
    hostRead q t = hostRead q s := by
  simp only [hostRead, hcfg, hread]

/-- Settles O57: a host write is one memory write, so reading back and the other words are the laws of read after write. -/
theorem hostMemoryPortReadsBack : Obligations.HostMemoryPortReadsBack := by
  intro s a v hwf
  refine ⟨fun ha => ⟨{ s with mem := s.mem.write a v }, hostWrite_eq_ok_iff.2 ⟨ha, rfl⟩, ?_, fun q hq => ?_, rfl⟩,
    fun ha => ⟨hostWrite_of_noSuchWord ha, hostRead_of_noSuchWord ha⟩⟩
  · exact hostRead_eq_ok_iff.2 ⟨ha, read_write_same a v hwf⟩
  · exact hostRead_congr rfl (read_write_other v hq)

/-! ### The byte view -/

/-- Byte `i` of the four from the least significant end is bits `8·i` up. -/
theorem littleBytes_getD {i : Nat} (w : Word) (h : i < 4) : (littleBytes w).getD i 0#8 = w.extractLsb' (8 * i) 8 := by
  match i, h with
  | 0, _ | 1, _ | 2, _ | 3, _ => rfl

/-- Read from the other end, byte `i` of the four is byte `3 - i`. -/
theorem littleBytes_reverse_getD {i : Nat} (w : Word) (h : i < 4) :
    (littleBytes w).reverse.getD i 0#8 = w.extractLsb' (24 - 8 * i) 8 := by
  match i, h with
  | 0, _ | 1, _ | 2, _ | 3, _ => rfl

/-- Bytes `4·a .. 4·a+3` of the view are those of word `a`, and exist when it does. -/
theorem hostByte_of_word (s : State) (a : Nat) {i : Nat} (h : i < 4) :
    hostByte (4 * a + i) s =
      if a < s.cfg.memWords then .ok ((hostBytes s.cfg.hostByteOrder (s.mem.read a)).getD i 0#8)
      else .error .noSuchWord := by
  have hword : (4 * a + i) / 4 = a := by omega
  have hbyte : (4 * a + i) % 4 = i := by omega
  rw [hostByte, hword, hbyte]

/-- Settles O58, order by order: `hostByte_of_word` finds the word, and each order lays its four bytes from one end. -/
theorem hostByteViewFollowsItsOrder : Obligations.HostByteViewFollowsItsOrder := by
  intro s a i hi
  rw [hostByte_of_word s a hi]
  refine ⟨fun ha horder => ?_, fun ha horder => ?_, fun ha => if_neg ha.not_gt⟩
  · rw [if_pos ha, horder, hostBytes, littleBytes_getD _ hi]
  · rw [if_pos ha, horder, hostBytes, littleBytes_reverse_getD _ hi]

end Sys2Proof.Machine
end

