-- ==== Sys2Proof/Proofs/Packet.lean ====
section
/-! SUPPORT. The packet as eleven fields and as one number of 352 bits: each determines the other (rule R60). -/

namespace Sys2Proof

/-- Word `j` of a list is the 32 bits at its place in the list's number. -/
theorem word_of_bitsOfWords (ws : List Word) (j : Nat) :
    BitVec.ofNat 32 (bitsOfWords ws / 2 ^ (32 * j)) = ws.getD j 0#32 := by
  induction ws generalizing j with
  | nil => simp [bitsOfWords]
  | cons w ws ih =>
    cases j with
    | zero =>
      apply BitVec.eq_of_toNat_eq
      simp [bitsOfWords, Nat.mod_eq_of_lt w.isLt]
    | succ j =>
      have hrest : bitsOfWords (w :: ws) / 2 ^ 32 = bitsOfWords ws := by
        rw [bitsOfWords, Nat.add_mul_div_left _ _ (Nat.two_pow_pos 32), Nat.div_eq_of_lt w.isLt, Nat.zero_add]
      rw [Nat.mul_succ, Nat.add_comm, pow_add, ← Nat.div_div_eq_div_mul, hrest, ih, List.getD_cons_succ]

theorem fieldOfBits_toBits (p : Packet) {j : Nat} (hj : j ≤ 10) : fieldOfBits 352 p.toBits j = p.toWords.getD j 0#32 := by
  rw [fieldOfBits_eq _ _ hj, Packet.toBits, word_of_bitsOfWords]

theorem ofBits_toBits (p : Packet) : Packet.ofBits p.toBits = p := by
  simp [Packet.ofBits, packetOfTableWord, fieldOfBits_toBits, Packet.toWords]

theorem toBits_lt (p : Packet) : p.toBits < 2 ^ 352 := by
  have hbits : 32 * p.toWords.length = 352 := rfl
  rw [← hbits]
  exact bitsOfWords_lt p.toWords

/-- The words of the packet read from a number are the number's fields, in order. -/
theorem toWords_ofBits (w : Nat) : (Packet.ofBits w).toWords = (List.range' 0 11).map (fieldOfBits 352 w) := rfl

theorem toBits_ofBits {w : Nat} (h : w < 2 ^ 352) : (Packet.ofBits w).toBits = w := by
  have hfields : (List.range' 0 11).map (fieldOfBits 352 w) =
      (List.range' 0 11).map fun j => BitVec.ofNat 32 (w / 2 ^ (32 * j)) :=
    List.map_congr_left fun j hj => fieldOfBits_eq w j (by simp at hj; omega)
  rw [Packet.toBits, toWords_ofBits, hfields, bitsOfWords_fields, Nat.mul_zero, pow_zero, Nat.div_one, Nat.mod_eq_of_lt h]

/-- Settles O15: the two round trips between fields and bits, and the bound of eleven words. -/
theorem packetBitsAndFieldsAgree : Obligations.PacketBitsAndFieldsAgree :=
  ⟨fun p => ⟨toBits_lt p, ofBits_toBits p⟩, fun _ => toBits_ofBits⟩

end Sys2Proof
end

