-- ==== Sys2Proof/Proofs/Decoder.lean ====
section
/-! SUPPORT. The decoder against the encoder and against the opcode map (rule R61 to rule R67). -/

namespace Sys2Proof

/-! ### Encoding, then decoding -/

/-- The laws of Laws/PerInstr.lean, one for each command, as one. -/
theorem decode_encode {i : Instr} (h : i.wellFormed = true) : decode (encode i) = .ok i := by
  cases i with
  | create len z => exact Laws.EncodeDecode.create len z h
  | createExt len zz => exact Laws.EncodeDecode.createExt len zz h
  | zero len z => exact Laws.EncodeDecode.zero len z h
  | isZero len x => exact Laws.EncodeDecode.isZero len x h
  | isZeroExt len xx => exact Laws.EncodeDecode.isZeroExt len xx h
  | isOne len x => exact Laws.EncodeDecode.isOne len x h
  | add len x y z => exact Laws.EncodeDecode.add len x y z h
  | addBothTo len x y z => exact Laws.EncodeDecode.addBothTo len x y z h
  | addExt len xx yy zz => exact Laws.EncodeDecode.addExt len xx yy zz h
  | addToExt len x xOff zz zzOff => exact Laws.EncodeDecode.addToExt len x xOff zz zzOff h
  | addWordExt len x zz zzOff => exact Laws.EncodeDecode.addWordExt len x zz zzOff h
  | sub len x y z => exact Laws.EncodeDecode.sub len x y z h
  | subBothFrom len x y z => exact Laws.EncodeDecode.subBothFrom len x y z h
  | subExt len xx yy zz => exact Laws.EncodeDecode.subExt len xx yy zz h
  | subFromExt len x xOff zz zzOff => exact Laws.EncodeDecode.subFromExt len x xOff zz zzOff h
  | mulWordExt len x y zz zzOff => exact Laws.EncodeDecode.mulWordExt len x y zz zzOff h
  | mulWordAddExt len x y yyOff zz zzOff => exact Laws.EncodeDecode.mulWordAddExt len x y yyOff zz zzOff h
  | mulWordDwordAdd len x y64 z zOff => exact Laws.EncodeDecode.mulWordDwordAdd len x y64 z zOff h
  | mul len x y zz => exact Laws.EncodeDecode.mul len x y zz h
  | squareWordAddExt len x xPos zz => exact Laws.EncodeDecode.squareWordAddExt len x xPos zz h
  | square len x zz => exact Laws.EncodeDecode.square len x zz h
  | shiftDownBit len x c z => exact Laws.EncodeDecode.shiftDownBit len x c z h
  | shiftDownBits len x bits c z => exact Laws.EncodeDecode.shiftDownBits len x bits c z h
  | shiftDownWord len x c z => exact Laws.EncodeDecode.shiftDownWord len x c z h
  | shiftUpBit len x c z => exact Laws.EncodeDecode.shiftUpBit len x c z h
  | gte len x y => exact Laws.EncodeDecode.gte len x y h
  | gteExt len xx yy => exact Laws.EncodeDecode.gteExt len xx yy h
  | getBit len x bit => exact Laws.EncodeDecode.getBit len x bit h
  | inc len z zOff => exact Laws.EncodeDecode.inc len z zOff h
  | incExt len zz zzOff => exact Laws.EncodeDecode.incExt len zz zzOff h
  | dec len z zOff => exact Laws.EncodeDecode.dec len z zOff h

/-- Settles O13: the packet comes back from its bits (`ofBits_toBits`), and the command from its packet (`decode_encode`). -/
theorem decodeInvertsEncode : Obligations.DecodeInvertsEncode := by
  intro i h
  have hpacket : packetOfTableWord 352 (encode i).toBits = encode i := ofBits_toBits (encode i)
  rw [decodeTableWord, hpacket, decode_encode h]

/-! ### Decoding, then encoding -/

theorem field_toNat (w : Word) : field w.toNat = w := by
  rw [field, BitVec.ofNat_toNat, BitVec.setWidth_eq]

/-- What an arm of the opcode map reads from a packet is well-formed, since its numbers are fields, and encodes back to the arm's
opcode and the packet's LEN. -/
theorem encode_of_decodeOpcode {n : Nat} {p : Packet} {i : Instr} (h : decodeOpcode n p = some i) :
    i.wellFormed = true ∧ (encode i).op.toNat = n ∧ (encode i).len = p.len := by
  unfold decodeOpcode at h
  split at h <;> cases h
  all_goals
    refine ⟨?_, rfl, field_toNat p.len⟩
    simp [Instr.wellFormed, fitsField_toNat]

/-- The opcodes of rule R63. -/
def opcodeMap : List Nat :=
  [0x01, 0x02, 0x03, 0x04, 0x05, 0x06, 0x10, 0x11, 0x12, 0x13, 0x14, 0x18, 0x19, 0x1A, 0x1B,
    0x20, 0x21, 0x22, 0x23, 0x24, 0x25, 0x30, 0x31, 0x32, 0x33, 0x40, 0x41, 0x42, 0x43, 0x44, 0x45]

theorem op_encode_mem_opcodeMap (i : Instr) : (encode i).op.toNat ∈ opcodeMap := by
  cases i <;> simp [encode, opcodeMap]

theorem decodeOpcode_isSome_iff (n : Nat) (p : Packet) : (decodeOpcode n p).isSome = true ↔ n ∈ opcodeMap := by
  constructor
  · intro h
    obtain ⟨i, hi⟩ := Option.isSome_iff_exists.1 h
    obtain ⟨-, rfl, -⟩ := encode_of_decodeOpcode hi
    exact op_encode_mem_opcodeMap i
  · have hall : (opcodeMap.all fun n => (decodeOpcode n p).isSome) = true := rfl
    exact List.all_eq_true.1 hall n

theorem lt_of_mem_opcodeMap : ∀ n ∈ opcodeMap, n < 2 ^ 8 := by decide

/-- The match is on all 32 bits of OP: the test of `OP[31:8]` only names the rejection (rule R61, rule R63). -/
theorem decode_eq_ok_iff {p : Packet} {i : Instr} : decode p = .ok i ↔ decodeOpcode p.op.toNat p = some i := by
  by_cases hop : p.op.toNat < 2 ^ 8
  · rw [decode, if_neg (not_not.2 (Nat.div_eq_of_lt hop)), Nat.mod_eq_of_lt hop]
    cases decodeOpcode p.op.toNat p <;> simp
  · have hnone : decodeOpcode p.op.toNat p = none := by
      rw [← Option.not_isSome_iff_eq_none, decodeOpcode_isSome_iff]
      exact fun hmem => hop (lt_of_mem_opcodeMap _ hmem)
    have hupper : p.op.toNat / 2 ^ 8 ≠ 0 := by omega
    rw [decode, if_pos hupper, hnone]
    simp

theorem decode_ok_iff_mem_opcodeMap (p : Packet) : (∃ i, decode p = .ok i) ↔ p.op.toNat ∈ opcodeMap := by
  simp only [decode_eq_ok_iff, ← Option.isSome_iff_exists, decodeOpcode_isSome_iff]

/-- Settles O14: the arm's command keeps OP and LEN (`encode_of_decodeOpcode`), and decodes again because it is well-formed. -/
theorem decodedCommandsReencode : Obligations.DecodedCommandsReencode := by
  intro p i h
  obtain ⟨hwf, hop, hlen⟩ := encode_of_decodeOpcode (decode_eq_ok_iff.1 h)
  exact ⟨hwf, decode_encode hwf, BitVec.eq_of_toNat_eq hop, hlen⟩

/-- Settles O16: the opcodes are those with an arm, and the command an arm gives encodes to the arm's opcode. -/
theorem opcodeMapIsTheTable : Obligations.OpcodeMapIsTheTable := by
  refine ⟨fun p => (decode_ok_iff_mem_opcodeMap p).2, fun p i h => ?_⟩
  obtain ⟨-, hop, -⟩ := encode_of_decodeOpcode (decode_eq_ok_iff.1 h)
  rw [← hop]
  cases i <;> rfl

/-- Settles O17: OP selects the same arm for both packets, and each arm reads no field but LEN and those of its row. -/
theorem unusedFieldsAreIgnored : Obligations.UnusedFieldsAreIgnored := by
  intro p q i h hop hlen hfields
  rw [decode_eq_ok_iff] at h ⊢
  rw [hop]
  generalize p.op.toNat = n at h ⊢
  unfold decodeOpcode at h
  split at h <;> cases h
  all_goals simp [decodeOpcode, hlen, hfields]

/-- Settles O18: each packet evaluates to its command. -/
theorem specPacketsDecode : Obligations.SpecPacketsDecode := ⟨rfl, rfl, rfl, rfl, rfl⟩

end Sys2Proof

namespace Sys2Proof.Machine

/-! ### Packets without a command -/

/-- A unit that is not halted faults on a packet that decodes to no command (rule R172). -/
theorem illegalPacket_of_running {s : State} (h : s.fault = 0#4) :
    illegalPacket s = .next (raiseFault illegalOperation s) := by
  simp [illegalPacket, (halted_eq_false_iff s).2 h]

/-- Settles O10: such a packet decodes to no command, so the step is that of an illegal packet. -/
theorem reservedEncodingsFault : Obligations.ReservedEncodingsFault := by
  intro s p hp hf hop
  cases hd : decode p with
  | ok i => exact absurd ((decode_ok_iff_mem_opcodeMap p).1 ⟨i, hd⟩) hop
  | error e => rw [step_of_decode_error hp hd, illegalPacket_of_running hf, advance_next]; rfl

end Sys2Proof.Machine
end

