-- ==== Sys2Proof/Proofs/Assembler.lean ====
section
/-! SUPPORT. The assembler reads the lines the commands are listed as, and the shifts' shorter forms (rule R68, rule R69). -/

namespace Sys2Proof.Machine

theorem scalarWord_toNat (w : Word) : scalarWord w.toNat = some w := by
  rw [scalarWord, if_pos w.isLt, BitVec.ofNat_toNat, BitVec.setWidth_eq]

theorem scalarDword_toNat (v : BitVec 64) : scalarDword v.toNat = some v := by
  rw [scalarDword, if_pos v.isLt, BitVec.ofNat_toNat, BitVec.setWidth_eq]

/-- A number, a buffer and a scalar are each read back as they are written; a listed shift names both its buffers. -/
theorem assembleLine_disassemble (i : Instr) : assembleLine (disassemble i) = some i := by
  cases i <;> simp [disassemble, assembleLine, scalarWord_toNat, scalarDword_toNat]

/-- Settles O19: the line assembles to the command (`assembleLine_disassemble`), and `assemble` encodes it when it is well-formed. -/
theorem assemblerReadsItsOwnListing : Obligations.AssemblerReadsItsOwnListing := by
  intro i
  have hline := assembleLine_disassemble i
  refine ⟨hline, fun hwf => ?_⟩
  rw [assemble, hline]
  exact if_pos hwf

/-- Settles O20: the shorter form's arm and the longer form's are the same command of the same scalar. -/
theorem singleBufferShiftsExpand : Obligations.SingleBufferShiftsExpand :=
  fun _ _ _ _ => ⟨rfl, rfl, rfl, rfl⟩

end Sys2Proof.Machine
end

