-- ==== Sys2Proof/Proofs/Buffer.lean ====
section
/-! SUPPORT. The buffer primitives: the zero fills, the zero tests and the test for one (rule R80 to rule R86). -/

namespace Sys2Proof.Machine

/-- The bounds check is that every region of the operand table ends inside memory (rule R44, rule R45). -/
theorem regionsInside_eq_true_iff (cfg : Config) (i : Instr) :
    regionsInside cfg i = true ↔
      (∀ r ∈ sources i, r.base + r.size ≤ cfg.memWords) ∧ ∀ r ∈ destination i, r.base + r.size ≤ cfg.memWords := by
  simp [regionsInside, Region.inside, Option.all_eq_true]

/-! ### The zero fills -/

/-- A zero fill leaves the value 0 (rule R13, rule R80). -/
theorem val_zeroFill {n a : Nat} {m : Memory} (hm : m.wf) : (zeroFill n a m).val a n = 0 := by
  obtain ⟨-, -, hzero⟩ := zeroFill_spec n a m hm
  exact (val_eq_zero_iff _ a n).2 hzero

/-- A command whose pseudocode is a zero fill of `n` words from `d`, which is its only region, completes with 0 in `RET` and the
value 0 there, and changes nothing else. -/
theorem completesOver_of_zeroFill {i : Instr} {s : State} {d n : Nat} (hf : s.fault = 0#4) (hm : s.mem.wf)
    (hl : Legal s.cfg i) (hs : sources i = []) (hd : destination i = some ⟨d, n⟩) (hfit : Fits s d n)
    (hb : body i s.mem = (zeroFill n d s.mem, noValue)) :
    CompletesOver i s d n (fun t => t.ret = 0#32 ∧ t.mem.val d n = 0) := by
  obtain ⟨-, hsame, -⟩ := zeroFill_spec n d s.mem hm
  have hin : regionsInside s.cfg i = true := (regionsInside_eq_true_iff _ _).2 (by simpa [hs, hd] using hfit)
  exact completesOver_of_body _ _ hf hl hin hb hsame ⟨rfl, val_zeroFill hm⟩

/-- Settles O21: both commands are the zero fill of the region `z`. -/
theorem createAndZeroFillWithZero : Obligations.CreateAndZeroFillWithZero := by
  rintro s len z ⟨hf, hm, hlen⟩ hfit i (rfl | rfl)
  · exact completesOver_of_zeroFill hf hm hlen rfl rfl hfit rfl
  · exact completesOver_of_zeroFill hf hm hlen rfl rfl hfit rfl

/-- Settles O22: the zero fill of the `2·len` words from `zz`. -/
theorem createExtFillsBothHalves : Obligations.CreateExtFillsBothHalves := by
  rintro s len zz ⟨hf, hm, hlen⟩ hfit
  exact completesOver_of_zeroFill hf hm hlen rfl rfl hfit rfl

/-! ### The predicates -/

/-- A command whose pseudocode is a test of the `n` words from `x`, which are its only region, completes with the test's answer
as 1 or 0 in `RET`, and changes nothing else. -/
theorem completesReading_of_test {i : Instr} {s : State} {x n : Nat} {b : Bool} {p : Prop} [Decidable p]
    (hf : s.fault = 0#4) (hl : Legal s.cfg i) (hs : sources i = [⟨x, n⟩]) (hd : destination i = none)
    (hfit : Fits s x n) (hb : body i s.mem = (s.mem, truth b)) (hp : b = true ↔ p) :
    CompletesReading i s (if p then 1#32 else 0#32) := by
  have hin : regionsInside s.cfg i = true := (regionsInside_eq_true_iff _ _).2 (by simpa [hs, hd] using hfit)
  rw [← truth_eq b p hp]
  exact completesReading_of_body hf hl hin hb

/-- Settles O23: `allZero` tests whether the value of the words is 0, here of `len` and of `2·len` words. -/
theorem zeroTestsReadTheValue : Obligations.ZeroTestsReadTheValue := by
  rintro s len x ⟨hf, -, hlen⟩
  exact ⟨fun hfit => completesReading_of_test hf hlen rfl rfl hfit rfl (allZero_iff s.mem x len),
    fun hfit => completesReading_of_test hf hlen rfl rfl hfit rfl (allZero_iff s.mem x (2 * len))⟩

/-- A buffer holds 1 exactly when its first word is 1 and the rest hold 0: the rest weigh `2^32` and more (rule R86). -/
theorem val_eq_one_iff (m : Memory) (a : Nat) {n : Nat} (hn : 1 ≤ n) :
    m.val a n = 1 ↔ m.read a = 1#32 ∧ m.val (a + 1) (n - 1) = 0 := by
  have hsplit := val_succ_left m a (n - 1)
  rw [Nat.sub_add_cancel hn] at hsplit
  have hword : m.read a = 1#32 ↔ (m.read a).toNat = 1 := BitVec.toNat_inj.symm
  rw [hsplit, hword]
  omega

/-- The pseudocode of `isOne` tests whether the value of the words is 1 (rule R86). -/
theorem isOneTest_iff (m : Memory) (x : Nat) {len : Nat} (hlen : 1 ≤ len) :
    (m.read x == 1#32 && allZero m (x + 1) (len - 1)) = true ↔ m.val x len = 1 := by
  rw [Bool.and_eq_true, beq_iff_eq, allZero_iff, val_eq_one_iff m x hlen]

/-- Settles O24: the two parts of the test are the value being 1 (`isOneTest_iff`), since a legal length is not 0. -/
theorem isOneReadsTheValue : Obligations.IsOneReadsTheValue := by
  rintro s len x ⟨hf, -, hlen⟩ hfit
  have ⟨hpos, _⟩ := hlen
  exact completesReading_of_test hf hlen rfl rfl hfit rfl (isOneTest_iff s.mem x hpos)

end Sys2Proof.Machine
end

