-- ==== Sys2Proof/Proofs/AddSub.lean ====
section
/-! SUPPORT. The add and subtract families (rule R90 to rule R101): each command is the exact identity of its loop (Laws/AddSub.lean)
behind the shared order of checks, and `sub` undoes `add`. -/

namespace Sys2Proof.Machine

/-! ### From the pseudocode to the command -/

/-- A legal command whose regions end inside memory completes with what is shown of its pseudocode, in the words the pseudocode
keeps to. -/
theorem completesOver_of_run {i : Instr} {s : State} {d n : Nat} {w : Region} {post : State → Prop} (hf : s.fault = 0#4)
    (hl : Legal s.cfg i) (hs : ∀ r ∈ sources i, Fits s r.base r.size) (hd : destination i = some w)
    (hw : Fits s w.base w.size)
    (hrun : ∃ m' r, body i s.mem = (m', r) ∧ m'.wf ∧ SameOutside d n s.mem m' ∧ post (complete (m', r) s)) :
    CompletesOver i s d n post := by
  obtain ⟨m', r, hb, -, hsame, hpost⟩ := hrun
  have hin : regionsInside s.cfg i = true := (regionsInside_eq_true_iff _ _).2 ⟨hs, by simpa [hd] using hw⟩
  exact completesOver_of_body m' r hf hl hin hb hsame hpost

/-- The regions of a command with the two sources `x` and `y` of `n` words. -/
theorem fits_two_sources {s : State} {x y n : Nat} (hx : Fits s x n) (hy : Fits s y n) :
    ∀ r ∈ [Region.mk x n, Region.mk y n], Fits s r.base r.size :=
  List.forall_mem_cons.2 ⟨hx, List.forall_mem_singleton.2 hy⟩

/-- The range of a buffer's value (rule R17), among the exact integers the identities are stated in. -/
theorem val_bounds (m : Memory) (a n : Nat) : 0 ≤ (m.val a n : Int) ∧ (m.val a n : Int) < 2 ^ (32 * n) :=
  ⟨Int.natCast_nonneg _, by exact_mod_cast val_lt m a n⟩

/-- A value below `p` and what it carries beyond `p` are determined by their exact sum. -/
theorem low_and_carry_unique {u v b c p : Int} (hu : 0 ≤ u ∧ u < p) (hv : 0 ≤ v ∧ v < p) (h : u + p * b = v + p * c) :
    u = v ∧ b = c := by
  have hp : 0 < p := hu.1.trans_lt hu.2
  obtain ⟨hb, hu'⟩ := (Int.ediv_emod_unique hp).2 ⟨rfl, hu⟩
  obtain ⟨hc, hv'⟩ := (Int.ediv_emod_unique hp).2 ⟨h.symm, hv⟩
  exact ⟨hu'.symm.trans hv', hb.symm.trans hc⟩

/-- The words of an extended buffer are `2·len`, so its weight is `2^(64·len)` (rule R93, rule R99). -/
theorem extended_weight (len : Nat) : 64 * len = 32 * (2 * len) := by omega

/-! ### Adder -/

/-- Settles O25: the identity of the loop with two addends, `addLoop_spec`. -/
theorem addIsExact : Obligations.AddIsExact := by
  rintro s len x y z ⟨hf, hm, hlen⟩ hx hy hz hxz hyz
  exact completesOver_of_run hf ⟨hlen, hxz, hyz⟩ (fits_two_sources hx hy) rfl hz (addLoop_spec hm hxz hyz)

/-- Settles O26: the loop with three addends, one of them the destination. -/
theorem addBothToIsExact : Obligations.AddBothToIsExact := by
  rintro s len x y z ⟨hf, hm, hlen⟩ hx hy hz hxz hyz
  exact completesOver_of_run hf ⟨hlen, hxz, hyz⟩ (fits_two_sources hx hy) rfl hz (addBothLoop_spec hm hxz hyz)

/-- Settles O27: the loop of `add` over `2·len` words. -/
theorem addExtIsExact : Obligations.AddExtIsExact := by
  rintro s len xx yy zz ⟨hf, hm, hlen⟩ hx hy hz hxz hyz
  rw [extended_weight]
  exact completesOver_of_run hf ⟨hlen, hxz, hyz⟩ (fits_two_sources hx hy) rfl hz (addLoop_spec hm hxz hyz)

/-- Settles O28: the loop of `add` with the window as second addend and destination. -/
theorem addToExtIsExact : Obligations.AddToExtIsExact := by
  rintro s len x xOff zz zzOff ⟨hf, hm, hlen⟩ hoff hx hz hxz
  exact completesOver_of_run hf ⟨hlen, hoff, hxz⟩ (List.forall_mem_singleton.2 hx) rfl hz
    (addLoop_spec hm hxz (.inr rfl))

/-- Settles O29: a word added at `zzOff`, then the ripple, `addWordAt_spec`; both stay at `zzOff` and above. -/
theorem addWordExtIsExact : Obligations.AddWordExtIsExact := by
  rintro s len x zz zzOff ⟨hf, hm, hlen⟩ hoff hz
  have hlt : zzOff < 2 * len := by
    have ⟨hpos, _⟩ := hlen
    omega
  rw [extended_weight]
  exact completesOver_of_run hf ⟨hlen, hlt⟩ (List.forall_mem_nil _) rfl hz (addWordAt_spec hm hlt)

/-! ### Subtractor -/

/-- The borrow out says how the values are ordered: the words left hold no negative value and nothing of `2^(32·n)` or above
(rule R97). -/
theorem borrow_iff_lt {m : Memory} {a n x y : Nat} {r : Word} (hr : r = 0#32 ∨ r = 0xFFFFFFFF#32)
    (hval : (m.val a n : Int) + s32 r * 2 ^ (32 * n) = (x : Int) - y) : r = 0xFFFFFFFF#32 ↔ x < y := by
  have ⟨hnonneg, hlt⟩ := val_bounds m a n
  rcases hr with rfl | rfl
  · have hz : s32 0#32 = 0 := by decide
    rw [hz] at hval
    exact iff_of_false (by decide) (by omega)
  · have hone : s32 0xFFFFFFFF#32 = -1 := by decide
    rw [hone] at hval
    exact iff_of_true rfl (by omega)

/-- Settles O30: the identity of the loop with one subtrahend, `subLoop_spec`, whose borrow orders the values
(`borrow_iff_lt`). -/
theorem subIsExact : Obligations.SubIsExact := by
  rintro s len x y z ⟨hf, hm, hlen⟩ hx hy hz hxz hyz
  obtain ⟨m', r, hrun, hwf, hsame, hr, hval⟩ := subLoop_spec (n := len) hm hxz hyz
  exact completesOver_of_run hf ⟨hlen, hxz, hyz⟩ (fits_two_sources hx hy) rfl hz
    ⟨m', r, hrun, hwf, hsame, hr, hval, borrow_iff_lt hr hval⟩

/-- Settles O31: the loop with two subtrahends, the destination the minuend. -/
theorem subBothFromIsExact : Obligations.SubBothFromIsExact := by
  rintro s len x y z ⟨hf, hm, hlen⟩ hx hy hz hxz hyz
  exact completesOver_of_run hf ⟨hlen, hxz, hyz⟩ (fits_two_sources hx hy) rfl hz (subBothLoop_spec hm hxz hyz)

/-- Settles O32: the loop of `sub` over `2·len` words. -/
theorem subExtIsExact : Obligations.SubExtIsExact := by
  rintro s len xx yy zz ⟨hf, hm, hlen⟩ hx hy hz hxz hyz
  rw [extended_weight]
  exact completesOver_of_run hf ⟨hlen, hxz, hyz⟩ (fits_two_sources hx hy) rfl hz (subLoop_spec hm hxz hyz)

/-- Settles O33: the loop of `sub` with the window as minuend and destination. -/
theorem subFromExtIsExact : Obligations.SubFromExtIsExact := by
  rintro s len x xOff zz zzOff ⟨hf, hm, hlen⟩ hoff hx hz hxz
  exact completesOver_of_run hf ⟨hlen, hoff, hxz⟩ (List.forall_mem_singleton.2 hx) rfl hz
    (subLoop_spec hm (.inr rfl) hxz)

/-! ### The inverse law -/

/-- Every command keeps memory canonical, so the next one is accepted too. -/
theorem exec_keeps_canonical {i : Instr} {s t : State} (hm : s.mem.wf) (ht : exec i s = .next t) : t.mem.wf := by
  rcases exec_next_cases ht with ⟨-, rfl⟩ | ⟨-, -, -, rfl⟩ | ⟨-, -, -, rfl⟩ | ⟨-, hl, -, rfl⟩
  · exact hm
  · exact hm
  · exact hm
  · exact (body_frame hm hl).1

section
variable {s t : State} {d n : Nat}

/-- A unit that accepts a command of length `len` accepts another after one that kept `cfg` and `FAULT`. -/
theorem accepts_after {i : Instr} {len : Nat} (h : Accepts s len) (ht : exec i s = .next t) (hkeep : KeepsAllBut d n s t) :
    Accepts t len := by
  obtain ⟨hf, hm, hlen⟩ := h
  obtain ⟨hcfg, hfault, -⟩ := hkeep
  exact ⟨hfault ▸ hf, exec_keeps_canonical hm ht, hcfg ▸ hlen⟩

theorem fits_after {a k : Nat} (h : Fits s a k) (hkeep : KeepsAllBut d n s t) : Fits t a k := by
  obtain ⟨hcfg, -⟩ := hkeep
  rw [Fits, hcfg]
  exact h

/-- A buffer apart from the words a command may change keeps its value over the command. -/
theorem val_after {a k : Nat} (h : Apart a k d n) (hkeep : KeepsAllBut d n s t) : t.mem.val a k = s.mem.val a k := by
  obtain ⟨-, -, -, -, hframe⟩ := hkeep
  exact SameOutside.val hframe h

end

/-- Settles O51: `add` leaves `T = X + Y - carry·2^(32·len)` and keeps `Y`; so what `sub` leaves plus its borrow is `X` minus the
carry, and both parts of that sum are determined (`low_and_carry_unique`). -/
theorem subUndoesAdd : Obligations.SubUndoesAdd := by
  intro s len x y t u hacc hx hy ht hu hxt hyt htu hyu
  obtain ⟨s1, hadd, hkeep, -, hsum⟩ := addIsExact s len x y t hacc hx hy ht hxt (.inl hyt)
  obtain ⟨s2, hsub, -, -, hdiff, -⟩ := subIsExact s1 len t y u (accepts_after hacc hadd hkeep) (fits_after ht hkeep)
    (fits_after hy hkeep) (fits_after hu hkeep) htu hyu
  rw [val_after hyt hkeep] at hdiff
  zify at hsum
  obtain ⟨hval, hborrow⟩ := low_and_carry_unique (b := s32 s2.ret) (c := -s1.ret.toNat) (val_bounds s2.mem u len)
    (val_bounds s.mem x len) (by linear_combination hdiff + hsum)
  exact ⟨s1, s2, hadd, hsub, by exact_mod_cast hval, hborrow⟩

end Sys2Proof.Machine
end

