-- ==== Sys2Proof/Proofs/MulSquare.lean ====
section
/-! SUPPORT. The multiply and square family (rule R110 to rule R117): each command is the exact identity of its pseudocode
(Laws/Multiply.lean, Laws/Square.lean) behind the shared order of checks, and `square` is `mul` of a buffer with itself. -/

namespace Sys2Proof.Machine

/-! ### Rows -/

/-- Settles O34: the row that overwrites its window, `mulRow_spec`. -/
theorem mulWordExtIsExact : Obligations.MulWordExtIsExact := by
  rintro s len x y zz zzOff ⟨hf, hm, hlen⟩ hoff hy hz hyz
  exact completesOver_of_run hf ⟨hlen, hoff, hyz⟩ (List.forall_mem_singleton.2 hy) rfl hz (mulRow_spec hm hyz)

/-- Settles O35: the row added into its window, `mulAddRow_spec`. -/
theorem mulWordAddExtIsExact : Obligations.MulWordAddExtIsExact := by
  rintro s len x y yyOff zz zzOff ⟨hf, hm, hlen⟩ hoff hy hz hyz
  exact completesOver_of_run hf ⟨hlen, hoff, hyz⟩ (List.forall_mem_singleton.2 hy) rfl hz (mulAddRow_spec hm hyz)

/-- The row of rule R115 reads the words of `x` below `xPos` and stays in the `xPos` words from `zz[xPos]`. -/
theorem crossTerms_spec {len x xPos zz : Nat} {m : Memory} (hm : m.wf) (hpos : xPos < len) (hxz : Apart x len zz (2 * len)) :
    ∃ m' r, crossTerms x xPos zz m = (m', r) ∧ m'.wf ∧ SameOutside (zz + xPos) xPos m m' ∧
      m'.val (zz + xPos) xPos + r.toNat * 2 ^ (32 * xPos) =
        m.val (zz + xPos) xPos + (m.read (x + xPos)).toNat * m.val x xPos :=
  mulAddRow_spec hm (by omega)

/-- Settles O38: the added row over `xPos` words, `crossTerms_spec`, whose frame is narrower than the command's region. -/
theorem squareWordAddExtIsExact : Obligations.SquareWordAddExtIsExact := by
  rintro s len x xPos zz ⟨hf, hm, hlen⟩ hpos hlt hx hz hxz
  exact completesOver_of_run hf ⟨hlen, hpos, hlt, hxz⟩ (List.forall_mem_singleton.2 hx) rfl hz
    (crossTerms_spec hm hlt hxz)

/-! ### Word times double word -/

/-- What a buffer gains is what a window inside it gains, at the window's weight. -/
theorem val_add_window {a off k n : Nat} {m m' : Memory} (h : off + k ≤ n) (hsame : SameOutside (a + off) k m m') :
    m'.val a n + 2 ^ (32 * off) * m.val (a + off) k = m.val a n + 2 ^ (32 * off) * m'.val (a + off) k := by
  obtain ⟨j, rfl⟩ := Nat.exists_eq_add_of_le h
  have hlow : m'.val a off = m.val a off := hsame.val (by omega)
  have hhigh : m'.val (a + off + k) j = m.val (a + off + k) j := hsame.val (by omega)
  rw [Nat.add_assoc off, val_append m', val_append m, val_append m' (a + off), val_append m (a + off), hlow, hhigh]
  ring

/-- The pseudocode of rule R113: the 96-bit product added in its window, the carry out of the window rippling to the top. -/
theorem mulDwordAdd_spec {len z zOff : Nat} {x : Word} {y64 : BitVec 64} {m : Memory} (hm : m.wf) (h : zOff + 3 ≤ len) :
    ∃ m' r, body (.mulWordDwordAdd len x y64 z zOff) m = (m', r) ∧ m'.wf ∧ SameOutside (z + zOff) (len - zOff) m m' ∧
      r.toNat ≤ 1 ∧
      m'.val z len + r.toNat * 2 ^ (32 * len) = m.val z len + x.toNat * y64.toNat * 2 ^ (32 * zOff) := by
  obtain ⟨m1, c, hrun, hwf, hsame, hc, hwin⟩ := mulDwordWindow_spec (x := x) (y64 := y64) (a := z + zOff) hm
  have hbuf := val_add_window h hsame
  replace hsame : SameOutside (z + zOff) (len - zOff) m m1 := hsame.mono (le_refl _) (by omega)
  simp only [body, effective, Nat.add_zero, hrun]
  rcases hc with rfl | rfl
  · refine ⟨m1, 0#32, if_pos rfl, hwf, hsame, by decide, ?_⟩
    zify at hbuf ⊢
    rw [BitVec.toNat_zero]
    linear_combination hbuf + (2 : Int) ^ (32 * zOff) * hwin
  · obtain ⟨m2, r, hripple, hwf2, hsame2, hr, hval⟩ := rippleInc_spec (base := z) hwf h
    refine ⟨m2, r, (if_neg one_ne_zero).trans hripple, hwf2, hsame.trans (hsame2.mono (by omega) (by omega)), ?_, ?_⟩
    · rcases hr with rfl | rfl <;> decide
    · have hweight : 2 ^ (32 * (zOff + 3)) = 2 ^ (32 * zOff) * 2 ^ 96 := by rw [← pow_add, Nat.mul_add]
      rw [hweight] at hval
      zify at hbuf hval ⊢
      linear_combination hval + hbuf + (2 : Int) ^ (32 * zOff) * hwin

/-- Settles O36: the window of three words and the ripple above it, `mulDwordAdd_spec`; both stay at `zOff` and above. -/
theorem mulWordDwordAddIsExact : Obligations.MulWordDwordAddIsExact := by
  rintro s len x y64 z zOff ⟨hf, hm, hlen⟩ hoff hz
  exact completesOver_of_run hf ⟨hlen, hoff⟩ (List.forall_mem_nil _) rfl hz (mulDwordAdd_spec hm hoff)

/-! ### Product and square -/

/-- Settles O37: the rows of the full product, `mulAll_spec`. -/
theorem mulIsExact : Obligations.MulIsExact := by
  rintro s len x y zz ⟨hf, hm, hlen⟩ hx hy hz hxz hyz
  obtain ⟨hwf, hsame, hval⟩ := mulAll_spec hm hlen.1 hxz hyz
  exact completesOver_of_run hf ⟨hlen, hxz, hyz⟩ (fits_two_sources hx hy) rfl hz ⟨_, _, rfl, hwf, hsame, rfl, hval⟩

/-- Settles O39: the three passes, `squareAll_spec`. -/
theorem squareIsExact : Obligations.SquareIsExact := by
  rintro s len x zz ⟨hf, hm, hlen⟩ hx hz hxz
  obtain ⟨hwf, hsame, hval⟩ := squareAll_spec hm hlen.1 hxz
  exact completesOver_of_run hf ⟨hlen, hxz⟩ (List.forall_mem_singleton.2 hx) rfl hz ⟨_, _, rfl, hwf, hsame, rfl, hval⟩

/-- Canonical memories that come from the same memory by writes to one buffer, and hold the same value there, are equal. -/
theorem memory_eq_of_val_eq {d n : Nat} {m m1 m2 : Memory} (hwf1 : m1.wf) (hwf2 : m2.wf) (hsame1 : SameOutside d n m m1)
    (hsame2 : SameOutside d n m m2) (hval : m1.val d n = m2.val d n) : m1 = m2 := by
  refine memory_ext hwf1 hwf2 fun q => ?_
  by_cases hq : Within d n q
  · obtain ⟨i, rfl⟩ := Nat.exists_eq_add_of_le hq.1
    exact read_eq_of_val_eq hval i (by omega)
  · exact (hsame1 q hq).trans (hsame2 q hq).symm

/-- The three passes of rule R116 leave the memory the rows of rule R114 leave for `x` times `x`. -/
theorem squareAll_eq_mulAll {len x zz : Nat} {m : Memory} (hm : m.wf) (hlen : 1 ≤ len) (hxz : Apart x len zz (2 * len)) :
    squareAll len x zz m = mulAll len x x zz m := by
  obtain ⟨hwf1, hsame1, hval1⟩ := squareAll_spec hm hlen hxz
  obtain ⟨hwf2, hsame2, hval2⟩ := mulAll_spec hm hlen hxz hxz
  exact memory_eq_of_val_eq hwf1 hwf2 hsame1 hsame2 (hval1.trans hval2.symm)

/-- Two commands that pass the same checks, and whose pseudocode agrees when they are legal, answer alike. -/
theorem exec_congr {i j : Instr} {s : State} (hpre : preconditionHolds s.cfg i = preconditionHolds s.cfg j)
    (hin : regionsInside s.cfg i = regionsInside s.cfg j) (hbody : Legal s.cfg i → body i s.mem = body j s.mem) :
    exec i s = exec j s := by
  rw [exec_eq_issue, exec_eq_issue]
  rcases issue_cases i (body i) s with
    ⟨hf, hi⟩ | ⟨hf, hp, hc, hi⟩ | ⟨hf, hp, hc, hi⟩ | ⟨hf, hp, hb, hi⟩ | ⟨hf, hp, hb, hi⟩ <;> rw [hi]
  · exact (issue_halted hf).symm
  · rw [issue_violated hf (hpre ▸ hp), if_pos hc]
  · rw [issue_violated hf (hpre ▸ hp), hc, if_neg Bool.false_ne_true]
  · exact (issue_outside hf (hpre ▸ hp) (hin ▸ hb)).symm
  · rw [issue_completes hf (hpre ▸ hp) (hin ▸ hb), hbody ((preconditionHolds_iff _ _).1 hp)]

/-- Settles O40: both commands have the source `x` and the destination `zz`, so they pass the same checks, and where they
complete their pseudocode leaves the same memory (`squareAll_eq_mulAll`). -/
theorem squareEqualsMul : Obligations.SquareEqualsMul := by
  intro s len x zz hm
  have hlegal : Legal s.cfg (.square len x zz) ↔ Legal s.cfg (.mul len x x zz) := by
    simp only [Legal, and_self]
  refine exec_congr ?_ ?_ ?_
  · rw [Bool.eq_iff_iff, preconditionHolds_iff, preconditionHolds_iff, hlegal]
  · simp [regionsInside, sources, destination]
  · rintro ⟨hlen, hxz⟩
    simp only [body, squareAll_eq_mulAll hm hlen.1 hxz]

end Sys2Proof.Machine
end

