-- ==== Sys2Proof/Proofs/Shift.lean ====
section
/-! SUPPORT. The shift family (rule R130 to rule R136): each command is its loop (Laws/Shift.lean) behind the shared order of
checks. `shiftDownBit` is `shiftDownBits` by one bit and `shiftDownWord` moves the words as a shift by 32 bits would, so the three
down shifts have one value law. -/

namespace Sys2Proof.Machine

/-! ### The low bits of a buffer -/

/-- The low bits of a buffer are those of its first word: a power of two up to `2^32` divides every higher weight (rule R13). -/
theorem val_mod_two_pow (m : Memory) (a : Nat) {n b : Nat} (hn : 1 ≤ n) (hb : b ≤ 32) :
    m.val a n % 2 ^ b = (m.read a).toNat % 2 ^ b := by
  have hword : (m.read a).toNat = m.val a n % 2 ^ 32 := by simpa using read_eq_val_div m a (k := 0) hn
  rw [hword, Nat.mod_mod_of_dvd _ (Nat.pow_dvd_pow 2 hb)]

/-- `2^b` divides the weight above a buffer of at least one word. -/
theorem two_pow_dvd_weight {n b : Nat} (hn : 1 ≤ n) (hb : b ≤ 32) : 2 ^ b ∣ 2 ^ (32 * n) :=
  Nat.pow_dvd_pow 2 (by omega)

/-! ### The pseudocode -/

/-- The down shift by `b` bits: `z` holds the quotient of `x`, with the carry-in above it, by `2^b`; the last carry word is the
old `x[0]` (rule R131 to rule R133). -/
theorem shiftDown_spec {n x z b : Nat} {c : Word} {m : Memory} (hm : m.wf) (hn : 1 ≤ n) (hb : b ≤ 32)
    (hxz : ApartOrSame x z n) :
    ∃ m', shiftDown n x z (downWord b) c m = (m', m.read x) ∧ m'.wf ∧ SameOutside z n m m' ∧
      m'.val z n = (m.val x n + c.toNat % 2 ^ b * 2 ^ (32 * n)) / 2 ^ b := by
  obtain ⟨m', c', hrun, hwf, hsame, hc, hval⟩ := shiftDown_val (c := c) hm hb hxz
  rw [if_neg (by omega)] at hc
  subst hc
  have hp := Nat.two_pow_pos b
  refine ⟨m', hrun, hwf, hsame, ?_⟩
  rw [← hval, Nat.add_comm, Nat.add_mul_div_right _ _ hp, Nat.div_eq_of_lt (Nat.mod_lt _ hp), Nat.zero_add]

/-- The pseudocode of `shiftDownBits` (rule R132). -/
theorem shiftDownBits_spec {n x z b : Nat} {c : Word} {m : Memory} (hm : m.wf) (hn : 1 ≤ n) (hb : b ≤ 32)
    (hxz : ApartOrSame x z n) :
    ∃ m' r, body (.shiftDownBits n x b c z) m = (m', r) ∧ m'.wf ∧ SameOutside z n m m' ∧
      m'.val z n = (m.val x n + c.toNat % 2 ^ b * 2 ^ (32 * n)) / 2 ^ b ∧
      r.toNat = m.val x n % 2 ^ b * 2 ^ (32 - b) := by
  obtain ⟨m', hrun, hwf, hsame, hval⟩ := shiftDown_spec (c := c) hm hn hb hxz
  refine ⟨m', shl (m.read x) (32 - b), ?_, hwf, hsame, hval, ?_⟩
  · simp only [body, hrun]
  · rw [toNat_shl_top _ hb, val_mod_two_pow m x hn hb]

/-- A down shift by 32 bits makes a word from its carry-in alone, as `shiftDownWord` does (rule R133). -/
theorem downWord_word_size : downWord 32 = fun _ carry => carry := by
  funext next c
  refine BitVec.eq_of_toNat_eq ?_
  have hid := downWord_identity next c (b := 32) le_rfl
  have hnext := next.isLt
  have hc := c.isLt
  omega

/-- The pseudocode of `shiftDownWord`, word by word and as a value (rule R133). -/
theorem shiftDownWord_spec {n x z : Nat} {c : Word} {m : Memory} (hm : m.wf) (hn : 1 ≤ n) (hxz : ApartOrSame x z n) :
    ∃ m' r, body (.shiftDownWord n x c z) m = (m', r) ∧ m'.wf ∧ SameOutside z n m m' ∧
      m'.read (z + (n - 1)) = c ∧ (∀ i, i + 1 < n → m'.read (z + i) = m.read (x + (i + 1))) ∧ r = m.read x ∧
      m'.val z n = (m.val x n + c.toNat * 2 ^ (32 * n)) / 2 ^ 32 ∧ r.toNat = m.val x n % 2 ^ 32 := by
  obtain ⟨m', hrun, hwf, hsame, hval⟩ := shiftDown_spec (c := c) hm hn (le_refl 32) hxz
  obtain ⟨m1, c1, hrun1, -, -, -, hwords⟩ := shiftDown_words (combine := downWord 32) (c := c) hm hxz
  obtain ⟨rfl, -⟩ := Prod.mk.inj (hrun.symm.trans hrun1)
  rw [downWord_word_size] at hrun hwords
  rw [Nat.mod_eq_of_lt c.isLt] at hval
  refine ⟨m', m.read x, hrun, hwf, hsame, ?_, fun i hi => ?_, rfl, hval, ?_⟩
  · rw [hwords (n - 1) (by omega), if_pos (by omega)]
  · rw [hwords i (by omega), if_neg (by omega)]
  · rw [val_mod_two_pow m x hn le_rfl, Nat.mod_eq_of_lt (m.read x).isLt]

/-- The pseudocode of `shiftUpBit` (rule R134). -/
theorem shiftUpBit_spec {n x z : Nat} {c : Word} {m : Memory} (hm : m.wf) (hn : 1 ≤ n) (hxz : ApartOrSame x z n) :
    ∃ m' r, body (.shiftUpBit n x c z) m = (m', r) ∧ m'.wf ∧ SameOutside z n m m' ∧
      r.toNat = (m.read (x + (n - 1))).toNat / 2 ^ 31 ∧
      m'.val z n + r.toNat * 2 ^ (32 * n) = 2 * m.val x n + c.toNat / 2 ^ 31 := by
  obtain ⟨m', c', hrun, hwf, hsame, hc, hval⟩ := shiftUp_val (c := c) hm hxz
  rw [if_neg (by omega)] at hc
  subst hc
  refine ⟨m', shr (m.read (x + (n - 1))) 31, ?_, hwf, hsame, toNat_shr _ _, ?_⟩
  · simp only [body, shiftUpOne, hrun]
  · rw [toNat_shr, hval]

/-! ### The commands -/

/-- Settles O42: the loop of the down shift, whose last carry word is returned top-aligned, `shiftDownBits_spec`. -/
theorem shiftDownBitsDivides : Obligations.ShiftDownBitsDivides := by
  rintro s len x bits c z ⟨hf, hm, hlen⟩ hpos hlt hx hz hxz
  exact completesOver_of_run hf ⟨hlen, hpos, hlt, hxz⟩ (List.forall_mem_singleton.2 hx) rfl hz
    (shiftDownBits_spec hm hlen.1 hlt.le hxz)

/-- `shiftDownBit` is `shiftDownBits` by one bit: the same checks and the same loop (rule R131, rule R132). -/
theorem exec_shiftDownBit_eq (len x : Nat) (c : Word) (z : Nat) (s : State) :
    exec (.shiftDownBit len x c z) s = exec (.shiftDownBits len x 1 c z) s :=
  exec_congr rfl rfl fun _ => rfl

/-- Settles O41: the case of one bit (`exec_shiftDownBit_eq`) of O42. -/
theorem shiftDownBitHalves : Obligations.ShiftDownBitHalves := by
  intro s len x c z hacc hx hz hxz
  obtain ⟨t, hexec, hkeep, hval, hret⟩ :=
    shiftDownBitsDivides s len x 1 c z hacc Nat.one_pos (by decide) hx hz hxz
  rw [pow_one] at hval hret
  exact ⟨t, (exec_shiftDownBit_eq len x c z s).trans hexec, hkeep, hval, hret⟩

/-- Settles O43: the loop that makes a word from its carry-in alone, `shiftDownWord_spec`. -/
theorem shiftDownWordMovesWords : Obligations.ShiftDownWordMovesWords := by
  rintro s len x c z ⟨hf, hm, hlen⟩ hx hz hxz
  exact completesOver_of_run hf ⟨hlen, hxz⟩ (List.forall_mem_singleton.2 hx) rfl hz
    (shiftDownWord_spec hm hlen.1 hxz)

/-- Settles O44: the loop of the up shift, `shiftUpBit_spec`. -/
theorem shiftUpBitDoubles : Obligations.ShiftUpBitDoubles := by
  rintro s len x c z ⟨hf, hm, hlen⟩ hx hz hxz
  exact completesOver_of_run hf ⟨hlen, hxz⟩ (List.forall_mem_singleton.2 hx) rfl hz (shiftUpBit_spec hm hlen.1 hxz)

/-! ### The round trip -/

/-- Two commands in a row that change only the words of one buffer, and leave its value as it was, leave memory as it was. -/
theorem mem_eq_of_round_trip {s t u : State} {d n : Nat} (hs : s.mem.wf) (hu : u.mem.wf) (hst : KeepsAllBut d n s t)
    (htu : KeepsAllBut d n t u) (hval : u.mem.val d n = s.mem.val d n) : u.mem = s.mem := by
  obtain ⟨-, -, -, -, hframe⟩ := hst
  obtain ⟨-, -, -, -, hframe'⟩ := htu
  exact memory_eq_of_val_eq hu hs (SameOutside.trans hframe hframe') (SameOutside.refl d n s.mem) hval

/-- Bit `i` of a word, left in its place, as a number. -/
theorem toNat_and_bit (c : Word) {mask : Word} {i : Nat} (hmask : mask.toNat = 2 ^ i) :
    (c &&& mask).toNat = c.toNat / 2 ^ i % 2 * 2 ^ i := by
  rw [BitVec.toNat_and, hmask, Nat.and_two_pow, Nat.toNat_testBit]

/-- The round trip's first half: halving what doubling left gives the value back, and the bit shifted in is shifted out. -/
theorem shiftUp_then_shiftDown {s : State} {len z : Nat} {c : Word} (hacc : Accepts s len) (hz : Fits s z len) :
    ∃ s1 s2, exec (.shiftUpBit len z c z) s = .next s1 ∧ exec (.shiftDownBit len z s1.ret z) s1 = .next s2 ∧
      s2.mem = s.mem ∧ s2.ret = c &&& 0x80000000#32 := by
  obtain ⟨s1, hup, hkeep, htop, hval⟩ := shiftUpBitDoubles s len z c z hacc hz hz (.inr rfl)
  have hacc1 := accepts_after hacc hup hkeep
  obtain ⟨s2, hdown, hkeep2, hval2, hret2⟩ :=
    shiftDownBitHalves s1 len z s1.ret z hacc1 (fits_after hz hkeep) (fits_after hz hkeep) (.inr rfl)
  obtain ⟨-, hm, hlen, -⟩ := hacc
  obtain ⟨-, hm1, -⟩ := hacc1
  have hbit : s1.ret.toNat % 2 = s1.ret.toNat := by
    have htopWord := (s.mem.read (z + (len - 1))).isLt
    omega
  have hin : c.toNat / 2 ^ 31 % 2 = c.toNat / 2 ^ 31 := by
    have hc := c.isLt
    omega
  have heven : 2 ∣ s1.ret.toNat * 2 ^ (32 * len) := (two_pow_dvd_weight (b := 1) hlen (by decide)).mul_left _
  refine ⟨s1, s2, hup, hdown, ?_, BitVec.eq_of_toNat_eq ?_⟩
  · refine mem_eq_of_round_trip hm (exec_keeps_canonical hm1 hdown) hkeep hkeep2 ?_
    rw [hval2, hbit, hval]
    omega
  · rw [hret2, toNat_and_bit c (i := 31) rfl]
    omega

/-- The round trip's second half: doubling what halving left, the bit shifted out coming back in, gives the value back, and the
bit shifted in is shifted out. -/
theorem shiftDown_then_shiftUp {s : State} {len z : Nat} {c : Word} (hacc : Accepts s len) (hz : Fits s z len) :
    ∃ s1 s2, exec (.shiftDownBit len z c z) s = .next s1 ∧ exec (.shiftUpBit len z s1.ret z) s1 = .next s2 ∧
      s2.mem = s.mem ∧ s2.ret = c &&& 1#32 := by
  obtain ⟨s1, hdown, hkeep, hval, hret⟩ := shiftDownBitHalves s len z c z hacc hz hz (.inr rfl)
  have hacc1 := accepts_after hacc hdown hkeep
  obtain ⟨s2, hup, hkeep2, -, hval2⟩ :=
    shiftUpBitDoubles s1 len z s1.ret z hacc1 (fits_after hz hkeep) (fits_after hz hkeep) (.inr rfl)
  obtain ⟨-, hm, hlen, -⟩ := hacc
  obtain ⟨-, hm1, -⟩ := hacc1
  have heven : 2 ∣ c.toNat % 2 * 2 ^ (32 * len) := (two_pow_dvd_weight (b := 1) hlen (by decide)).mul_left _
  have hsum : s2.mem.val z len + s2.ret.toNat * 2 ^ (32 * len) =
      s.mem.val z len + c.toNat % 2 * 2 ^ (32 * len) := by omega
  zify at hsum
  obtain ⟨hback, hout⟩ := low_and_carry_unique (b := s2.ret.toNat) (c := (c.toNat % 2 : Nat))
    (val_bounds s2.mem z len) (val_bounds s.mem z len) (by push_cast; linear_combination hsum)
  refine ⟨s1, s2, hdown, hup, ?_, BitVec.eq_of_toNat_eq ?_⟩
  · exact mem_eq_of_round_trip hm (exec_keeps_canonical hm1 hup) hkeep hkeep2 (by exact_mod_cast hback)
  · rw [toNat_and_bit c (i := 0) rfl]
    omega

/-- Settles O45: the two orders of the round trip. -/
theorem shiftsRoundTrip : Obligations.ShiftsRoundTrip :=
  fun _ _ _ _ hacc hz => ⟨shiftUp_then_shiftDown hacc hz, shiftDown_then_shiftUp hacc hz⟩

/-! ### Chaining across buffers -/

/-- The weight above two buffers is that above each, twice (rule R135). -/
theorem wide_weight (len : Nat) : 2 ^ (64 * len) = 2 ^ (32 * len) * 2 ^ (32 * len) := by
  rw [← pow_add, ← Nat.add_mul]

/-- Long division in two digits of weight `w`, a multiple of the divisor: the higher digit's remainder comes down to the lower
digit. -/
theorem div_of_high_then_low {p w : Nat} (lo hi : Nat) (hp : 0 < p) :
    (lo + hi % p * w) / p + w * (hi / p) = (lo + w * hi) / p := by
  rw [← Nat.add_mul_div_left _ _ hp]
  congr 1
  calc lo + hi % p * w + p * (w * (hi / p)) = lo + w * (hi % p + p * (hi / p)) := by ring
    _ = lo + w * hi := by rw [Nat.mod_add_div]

/-- Two down shifts of the higher and then the lower buffer, the remainder of the higher passed on to the lower, are the down
shift of the wide value (rule R135). -/
theorem wideValue_of_shifts_down {s s1 s2 : State} {len b0 b1 p k : Nat} (hapart : Apart b0 len b1 len) (hp : 0 < p)
    (hdvd : p ∣ 2 ^ (32 * len)) (hkeep1 : KeepsAllBut b1 len s s1) (hkeep2 : KeepsAllBut b0 len s1 s2)
    (hval1 : s1.mem.val b1 len = (s.mem.val b1 len + k * 2 ^ (32 * len)) / p)
    (hval2 : s2.mem.val b0 len = (s1.mem.val b0 len + s.mem.val b1 len % p * 2 ^ (32 * len)) / p) :
    wideValue s2.mem b0 b1 len = (wideValue s.mem b0 b1 len + k * 2 ^ (64 * len)) / p := by
  have hrem : (s.mem.val b1 len + k * 2 ^ (32 * len)) % p = s.mem.val b1 len % p := by
    obtain ⟨q, hq⟩ := hdvd.mul_left k
    rw [hq, Nat.add_mul_mod_self_left]
  rw [wideValue, hval2, val_after hapart hkeep1, val_after hapart.symm hkeep2, hval1, ← hrem, div_of_high_then_low _ _ hp,
    wide_weight]
  congr 1
  ring

/-- What a down shift takes out of the wide value comes out of the lower buffer. -/
theorem wideValue_mod {p len : Nat} (m : Memory) (b0 b1 : Nat) (hdvd : p ∣ 2 ^ (32 * len)) :
    wideValue m b0 b1 len % p = m.val b0 len % p := by
  obtain ⟨q, hq⟩ := hdvd
  rw [wideValue, hq, Nat.mul_assoc, Nat.add_mul_mod_self_left]

/-- `shiftDownBits` depends on the low bits of the carry-in alone (rule R132, rule R135). -/
theorem exec_shiftDownBits_carry_congr {len x bits z : Nat} {c d : Word} (s : State)
    (h : c.toNat % 2 ^ bits = d.toNat % 2 ^ bits) :
    exec (.shiftDownBits len x bits c z) s = exec (.shiftDownBits len x bits d z) s := by
  refine exec_congr rfl rfl ?_
  rintro ⟨⟨hpos, -⟩, -, hlt, -⟩
  simp only [body, shiftDown_carry_congr hpos hlt.le h]

section
variable {s : State} {len b0 b1 : Nat} {c : Word}

/-- Rule R135, down by `bits`. The realigned `RET` and the old word `b1[0]` both have the remainder of the higher buffer in their
low bits. -/
theorem chained_shiftDownBits (hacc : Accepts s len) (h0 : Fits s b0 len) (h1 : Fits s b1 len)
    (hapart : Apart b0 len b1 len) {bits : Nat} (hpos : 0 < bits) (hlt : bits < 32) :
    ∃ s1 s2, exec (.shiftDownBits len b1 bits c b1) s = .next s1 ∧
      exec (.shiftDownBits len b0 bits (shr s1.ret (32 - bits)) b0) s1 = .next s2 ∧
      exec (.shiftDownBits len b0 bits (s.mem.read b1) b0) s1 = .next s2 ∧
      wideValue s2.mem b0 b1 len = (wideValue s.mem b0 b1 len + c.toNat % 2 ^ bits * 2 ^ (64 * len)) / 2 ^ bits ∧
      s2.ret.toNat = wideValue s.mem b0 b1 len % 2 ^ bits * 2 ^ (32 - bits) := by
  obtain ⟨s1, hexec1, hkeep1, hval1, hret1⟩ := shiftDownBitsDivides s len b1 bits c b1 hacc hpos hlt h1 h1 (.inr rfl)
  have h0' := fits_after h0 hkeep1
  obtain ⟨s2, hexec2, hkeep2, hval2, hret2⟩ := shiftDownBitsDivides s1 len b0 bits (s.mem.read b1) b0
    (accepts_after hacc hexec1 hkeep1) hpos hlt h0' h0' (.inr rfl)
  obtain ⟨-, -, hlen, -⟩ := hacc
  have hdvd := two_pow_dvd_weight hlen hlt.le
  have hfirst := val_mod_two_pow s.mem b1 hlen hlt.le
  have hrealigned : (shr s1.ret (32 - bits)).toNat = s.mem.val b1 len % 2 ^ bits := by
    rw [toNat_shr, hret1, Nat.mul_div_cancel _ (Nat.two_pow_pos _)]
  rw [← hfirst] at hval2
  refine ⟨s1, s2, hexec1, ?_, hexec2, ?_, ?_⟩
  · rw [← hexec2]
    exact exec_shiftDownBits_carry_congr s1 (by rw [hrealigned, Nat.mod_mod, hfirst])
  · exact wideValue_of_shifts_down hapart (Nat.two_pow_pos bits) hdvd hkeep1 hkeep2 hval1 hval2
  · rw [hret2, val_after hapart hkeep1, wideValue_mod _ _ _ hdvd]

/-- Rule R135, down by one bit: the case of one bit. -/
theorem chained_shiftDownBit (hacc : Accepts s len) (h0 : Fits s b0 len) (h1 : Fits s b1 len)
    (hapart : Apart b0 len b1 len) :
    ∃ s1 s2, exec (.shiftDownBit len b1 c b1) s = .next s1 ∧
      exec (.shiftDownBit len b0 (shr s1.ret 31) b0) s1 = .next s2 ∧
      exec (.shiftDownBit len b0 (s.mem.read b1) b0) s1 = .next s2 ∧
      wideValue s2.mem b0 b1 len = (wideValue s.mem b0 b1 len + c.toNat % 2 * 2 ^ (64 * len)) / 2 ∧
      s2.ret.toNat = wideValue s.mem b0 b1 len % 2 * 2 ^ 31 := by
  have hone := chained_shiftDownBits (c := c) hacc h0 h1 hapart Nat.one_pos (by decide)
  simpa only [exec_shiftDownBit_eq, pow_one] using hone

/-- Rule R135, down by a word: what the higher buffer returns, its remainder by `2^32`, is passed on unchanged. -/
theorem chained_shiftDownWord (hacc : Accepts s len) (h0 : Fits s b0 len) (h1 : Fits s b1 len)
    (hapart : Apart b0 len b1 len) :
    ∃ s1 s2, exec (.shiftDownWord len b1 c b1) s = .next s1 ∧
      exec (.shiftDownWord len b0 s1.ret b0) s1 = .next s2 ∧
      wideValue s2.mem b0 b1 len = (wideValue s.mem b0 b1 len + c.toNat * 2 ^ (64 * len)) / 2 ^ 32 ∧
      s2.ret.toNat = wideValue s.mem b0 b1 len % 2 ^ 32 := by
  obtain ⟨s1, hexec1, hkeep1, -, -, -, hval1, hret1⟩ := shiftDownWordMovesWords s len b1 c b1 hacc h1 h1 (.inr rfl)
  have h0' := fits_after h0 hkeep1
  obtain ⟨s2, hexec2, hkeep2, -, -, -, hval2, hret2⟩ := shiftDownWordMovesWords s1 len b0 s1.ret b0
    (accepts_after hacc hexec1 hkeep1) h0' h0' (.inr rfl)
  obtain ⟨-, -, hlen, -⟩ := hacc
  have hdvd := two_pow_dvd_weight hlen (le_refl 32)
  rw [hret1] at hval2
  refine ⟨s1, s2, hexec1, hexec2, ?_, ?_⟩
  · exact wideValue_of_shifts_down hapart (Nat.two_pow_pos 32) hdvd hkeep1 hkeep2 hval1 hval2
  · rw [hret2, val_after hapart hkeep1, wideValue_mod _ _ _ hdvd]

/-- Rule R135, up by one bit: the bit the lower buffer returns, moved to bit 31, is what the higher buffer shifts in. -/
theorem chained_shiftUpBit (hacc : Accepts s len) (h0 : Fits s b0 len) (h1 : Fits s b1 len)
    (hapart : Apart b0 len b1 len) :
    ∃ s1 s2, exec (.shiftUpBit len b0 c b0) s = .next s1 ∧
      exec (.shiftUpBit len b1 (shl s1.ret 31) b1) s1 = .next s2 ∧
      wideValue s2.mem b0 b1 len + s2.ret.toNat * 2 ^ (64 * len) =
        2 * wideValue s.mem b0 b1 len + c.toNat / 2 ^ 31 := by
  obtain ⟨s1, hexec1, hkeep1, htop, hval1⟩ := shiftUpBitDoubles s len b0 c b0 hacc h0 h0 (.inr rfl)
  have h1' := fits_after h1 hkeep1
  obtain ⟨s2, hexec2, hkeep2, -, hval2⟩ := shiftUpBitDoubles s1 len b1 (shl s1.ret 31) b1
    (accepts_after hacc hexec1 hkeep1) h1' h1' (.inr rfl)
  have hmoved : (shl s1.ret 31).toNat / 2 ^ 31 = s1.ret.toNat := by
    have htopWord := (s.mem.read (b0 + (len - 1))).isLt
    rw [toNat_shl]
    omega
  rw [hmoved, val_after hapart.symm hkeep1] at hval2
  refine ⟨s1, s2, hexec1, hexec2, ?_⟩
  rw [wideValue, val_after hapart hkeep2, wide_weight]
  linear_combination hval1 + 2 ^ (32 * len) * hval2

end

/-- Settles O54: the four chains of rule R135. -/
theorem chainedShiftsShiftTheWideValue : Obligations.ChainedShiftsShiftTheWideValue :=
  fun _ _ _ _ _ hacc h0 h1 hapart =>
    ⟨fun _ hpos hlt => chained_shiftDownBits hacc h0 h1 hapart hpos hlt, chained_shiftDownBit hacc h0 h1 hapart,
      chained_shiftDownWord hacc h0 h1 hapart, chained_shiftUpBit hacc h0 h1 hapart⟩

end Sys2Proof.Machine
end

