-- ==== Sys2Proof/Proofs/CompareIncDec.lean ====
section
/-! SUPPORT. Comparison, bit test, increment and decrement (rule R140 to rule R146): each command is its pseudocode
(Laws/Compare.lean, Laws/Ripple.lean) behind the shared order of checks. Rule R147 ties them to each other, to `add` and to
`sub`. -/

namespace Sys2Proof.Machine

/-! ### Comparison and bit test -/

/-- A command without a destination whose sources end inside memory completes with the word its pseudocode answers, and changes
nothing else. -/
theorem completesReading_of_sources {i : Instr} {s : State} {v : Word} (hf : s.fault = 0#4) (hl : Legal s.cfg i)
    (hs : ∀ r ∈ sources i, Fits s r.base r.size) (hd : destination i = none) (hb : body i s.mem = (s.mem, v)) :
    CompletesReading i s v :=
  completesReading_of_body hf hl ((regionsInside_eq_true_iff _ _).2 ⟨hs, by simp [hd]⟩) hb

/-- A predicate's answer is the comparison of the values (rule R24, rule R140). -/
theorem truth_notBelow (m : Memory) (x y n : Nat) :
    truth (notBelow m x y n) = if m.val y n ≤ m.val x n then 1#32 else 0#32 :=
  truth_eq _ _ (notBelow_iff m x y n)

/-- Settles O46: the word comparison from the top down orders the values (`notBelow_iff`), here of `len` and of `2·len` words. -/
theorem comparisonsOrderTheValues : Obligations.ComparisonsOrderTheValues := by
  rintro s len x y ⟨hf, -, hlen⟩
  rw [← truth_notBelow, ← truth_notBelow]
  exact ⟨fun hx hy => completesReading_of_sources hf hlen (fits_two_sources hx hy) rfl rfl,
    fun hx hy => completesReading_of_sources hf hlen (fits_two_sources hx hy) rfl rfl⟩

/-- The bit test as a word; from the buffer's end on the value has no bit (rule R17, rule R142). -/
theorem bitAt_eq (len x : Nat) (bit : Word) (m : Memory) :
    bitAt len x bit m =
      if bit.toNat < 32 * len then BitVec.ofNat 32 (m.val x len / 2 ^ bit.toNat % 2) else 0#32 := by
  refine BitVec.eq_of_toNat_eq ?_
  rw [bitAt_spec]
  split
  · rw [BitVec.toNat_ofNat]
    omega
  · have hlt : m.val x len < 2 ^ bit.toNat :=
      (val_lt m x len).trans_le (Nat.pow_le_pow_right Nat.two_pos (by omega))
    rw [Nat.div_eq_of_lt hlt]
    rfl

/-- Settles O47: the pseudocode answers a bit of the value, `bitAt_eq`. -/
theorem getBitReadsTheValue : Obligations.GetBitReadsTheValue := by
  rintro s len x bit ⟨hf, -, hlen⟩ hx
  rw [← bitAt_eq]
  exact completesReading_of_sources hf hlen (List.forall_mem_singleton.2 hx) rfl rfl

/-! ### Increment and decrement -/

/-- Settles O48: the ripple from `zOff` to the top, `rippleInc_spec`. -/
theorem incIsExact : Obligations.IncIsExact := by
  rintro s len z zOff ⟨hf, hm, hlen⟩ hoff hz
  exact completesOver_of_run hf ⟨hlen, hoff⟩ (List.forall_mem_nil _) rfl hz (rippleInc_spec hm hoff.le)

/-- Settles O49: the ripple of `inc` with its top at `2·len`. -/
theorem incExtIsExact : Obligations.IncExtIsExact := by
  rintro s len zz zzOff ⟨hf, hm, hlen⟩ hoff hz
  rw [extended_weight]
  exact completesOver_of_run hf ⟨hlen, hoff⟩ (List.forall_mem_nil _) rfl hz (rippleInc_spec hm hoff.le)

/-- Settles O50: the ripple of the borrow, `rippleDec_spec`. -/
theorem decIsExact : Obligations.DecIsExact := by
  rintro s len z zOff ⟨hf, hm, hlen⟩ hoff hz
  exact completesOver_of_run hf ⟨hlen, hoff⟩ (List.forall_mem_nil _) rfl hz (rippleDec_spec hm hoff.le)

/-! ### The laws of rule R147 -/

/-- The signed reading of rule R10 is two's complement. -/
theorem s32_eq_toInt (w : Word) : s32 w = w.toInt := by
  rw [s32, BitVec.toInt_eq_toNat_cond]
  split <;> split <;> omega

/-- A word is determined by its signed reading (rule R10). -/
theorem lo32_s32 (w : Word) : lo32 (s32 w) = w := by
  rw [s32_eq_toInt, lo32, BitVec.ofInt_toInt]

/-- The frame of a command inside a larger buffer. -/
theorem KeepsAllBut.mono {s t : State} {d n e k : Nat} (h : KeepsAllBut d n s t) (h1 : e ≤ d) (h2 : d + n ≤ e + k) :
    KeepsAllBut e k s t := by
  obtain ⟨hcfg, hfault, hprogram, hk, hframe⟩ := h
  exact ⟨hcfg, hfault, hprogram, hk, SameOutside.mono hframe h1 h2⟩

/-- The first law: `dec` takes off what `inc` adds, so what `dec` leaves plus its borrow is the old value minus the carry, and
both parts of that sum are determined (`low_and_carry_unique`). -/
theorem inc_then_dec {s : State} {len z zOff : Nat} (hacc : Accepts s len) (hoff : zOff < len) (hz : Fits s z len) :
    ∃ s1 s2, exec (.inc len z zOff) s = .next s1 ∧ exec (.dec len z zOff) s1 = .next s2 ∧
      s2.mem = s.mem ∧ s2.ret = lo32 (-(s1.ret.toNat : Int)) := by
  obtain ⟨s1, hinc, hkeep1, -, hval1⟩ := incIsExact s len z zOff hacc hoff hz
  have hacc1 := accepts_after hacc hinc hkeep1
  obtain ⟨s2, hdec, hkeep2, -, hval2⟩ := decIsExact s1 len z zOff hacc1 hoff (fits_after hz hkeep1)
  obtain ⟨-, hm, -⟩ := hacc
  obtain ⟨-, hm1, -⟩ := hacc1
  zify at hval1
  obtain ⟨hback, hborrow⟩ := low_and_carry_unique (b := s32 s2.ret) (c := -s1.ret.toNat) (val_bounds s2.mem z len)
    (val_bounds s.mem z len) (by linear_combination hval2 + hval1)
  refine ⟨s1, s2, hinc, hdec, ?_, ?_⟩
  · exact mem_eq_of_round_trip hm (exec_keeps_canonical hm1 hdec) (hkeep1.mono (e := z) (k := len) (by omega) (by omega))
      (hkeep2.mono (by omega) (by omega)) (by exact_mod_cast hback)
  · rw [← hborrow, lo32_s32]

/-- The pseudocode of `inc` at offset 0 does what that of `add` does with a magnitude that is 1: same exact sum, same words
written (rule R91, rule R143). -/
theorem body_inc_eq_body_add {len z y : Nat} {m : Memory} (hm : m.wf) (hyz : ApartOrSame y z len) (hone : m.val y len = 1) :
    body (.inc len z 0) m = body (.add len z y z) m := by
  obtain ⟨m1, r1, hrun1, hwf1, hsame1, -, hval1⟩ := rippleInc_spec (base := z) hm (Nat.zero_le len)
  obtain ⟨m2, r2, hrun2, hwf2, hsame2, -, hval2⟩ := addLoop_spec (n := len) (x := z) hm (.inr rfl) hyz
  rw [hone] at hval2
  zify at hval1 hval2
  obtain ⟨hval, hret⟩ := low_and_carry_unique (b := r1.toNat) (c := r2.toNat) (val_bounds m1 z len) (val_bounds m2 z len)
    (by linear_combination hval1 - hval2)
  have hmem : m1 = m2 := memory_eq_of_val_eq hwf1 hwf2 hsame1 hsame2 (by exact_mod_cast hval)
  have hword : r1 = r2 := BitVec.eq_of_toNat_eq (by exact_mod_cast hret)
  calc body (.inc len z 0) m = (m1, r1) := hrun1
    _ = (m2, r2) := by rw [hmem, hword]
    _ = body (.add len z y z) m := hrun2.symm

/-- A legal command whose regions end inside memory answers what its pseudocode leaves. -/
theorem exec_completes_of_fits {i : Instr} {s : State} {w : Region} (hf : s.fault = 0#4) (hl : Legal s.cfg i)
    (hs : ∀ r ∈ sources i, Fits s r.base r.size) (hd : destination i = some w) (hw : Fits s w.base w.size) :
    exec i s = .next (complete (body i s.mem) s) :=
  exec_completes hf hl ((regionsInside_eq_true_iff _ _).2 ⟨hs, by simpa [hd] using hw⟩)

/-- The second law: both commands complete, and their pseudocode agrees. -/
theorem inc_eq_add_one {s : State} {len z y : Nat} (hacc : Accepts s len) (hz : Fits s z len) (hy : Fits s y len)
    (hyz : ApartOrSame y z len) (hone : s.mem.val y len = 1) : exec (.inc len z 0) s = exec (.add len z y z) s := by
  obtain ⟨hf, hm, hlen⟩ := hacc
  have hinc : exec (.inc len z 0) s = .next (complete (body (.inc len z 0) s.mem) s) :=
    exec_completes_of_fits hf ⟨hlen, hlen.1⟩ (List.forall_mem_nil _) rfl hz
  have hadd : exec (.add len z y z) s = .next (complete (body (.add len z y z) s.mem) s) :=
    exec_completes_of_fits hf ⟨hlen, .inr rfl, hyz⟩ (fits_two_sources hz hy) rfl hz
  rw [hinc, hadd, body_inc_eq_body_add hm hyz hone]

/-- The third law: both say that the value of `x` is at least that of `y`. -/
theorem gte_iff_sub_no_borrow {s : State} {len x y t : Nat} (hacc : Accepts s len) (hx : Fits s x len) (hy : Fits s y len)
    (ht : Fits s t len) (hxt : ApartOrSame x t len) (hyt : ApartOrSame y t len) :
    ∃ s1 s2, exec (.gte len x y) s = .next s1 ∧ exec (.sub len x y t) s = .next s2 ∧
      (s1.ret = 1#32 ↔ s2.ret = 0#32) := by
  have hgte := (comparisonsOrderTheValues s len x y hacc).1 hx hy
  obtain ⟨s2, hsub, -, hret, -, hborrow⟩ := subIsExact s len x y t hacc hx hy ht hxt hyt
  refine ⟨_, s2, hgte, hsub, ?_⟩
  by_cases hle : s.mem.val y len ≤ s.mem.val x len
  · have hne : s2.ret ≠ 0xFFFFFFFF#32 := fun h => absurd (hborrow.1 h) (not_lt.2 hle)
    exact iff_of_true (if_pos hle) (hret.resolve_right hne)
  · rw [hborrow.2 (not_le.1 hle)]
    simp only [if_neg hle]
    decide

/-- Settles O52: the three laws of rule R147. -/
theorem incrementAndCompareLaws : Obligations.IncrementAndCompareLaws :=
  fun _ _ hacc =>
    ⟨fun _ _ => inc_then_dec hacc, fun _ _ => inc_eq_add_one hacc, fun _ _ _ => gte_iff_sub_no_borrow hacc⟩

end Sys2Proof.Machine
end

