-- ==== Sys2Proof/Proofs/Conversion.lean ====
section
/-! SUPPORT. The conversion boundary: when `fromBigInteger` fails and what it writes when it does not, that `toBigInteger` reads a
buffer's value, and that each undoes the other (rule R161, rule R162, rule R163). -/

namespace Sys2Proof.Machine

/-! ### Into memory -/

/-- Rule R161's failure, whatever region the host chose. -/
theorem fromBigInteger_of_invalidArgument {len a : Nat} {value : Int} {s : State} (h : value < 0 ∨ 2 ^ (32 * len) ≤ value) :
    fromBigInteger len value a s = .error .invalidArgument :=
  if_pos h

/-- A value and a region that fit: memory alone changes, in the words of the region alone, and these hold the value. -/
theorem fromBigInteger_writes_value {s : State} {len a : Nat} {value : Int} (hm : s.mem.wf) (ha : Fits s a len)
    (hnonneg : 0 ≤ value) (hlt : value < 2 ^ (32 * len)) :
    ∃ m, fromBigInteger len value a s = .ok { s with mem := m } ∧ m.wf ∧ SameOutside a len s.mem m ∧
      (m.val a len : Int) = value := by
  obtain ⟨hwf, hsame, hval⟩ := putWords_spec a value.toNat len s.mem hm
  refine ⟨_, fromBigInteger_eq_ok_iff.2 ⟨hnonneg, hlt, ha, rfl⟩, hwf, hsame, ?_⟩
  zify at hval
  rw [hval, Int.toNat_of_nonneg hnonneg, Int.emod_eq_of_lt hnonneg hlt]

/-- Settles O59: the value is rejected before the region is looked at, and a value that fits is written whole. -/
theorem fromBigIntegerWritesTheValue : Obligations.FromBigIntegerWritesTheValue := by
  intro s len a value hm ha
  refine ⟨fromBigInteger_of_invalidArgument, fun hnonneg hlt => ?_⟩
  obtain ⟨m, hfrom, -, hsame, hval⟩ := fromBigInteger_writes_value hm ha hnonneg hlt
  exact ⟨_, hfrom, ⟨rfl, rfl, rfl, rfl, hsame⟩, rfl, hval⟩

/-! ### There and back -/

/-- What the host reads of a buffer is its value (rule R162). -/
theorem toBigInteger_eq_val (len x : Nat) (s : State) : toBigInteger len x s = s.mem.val x len :=
  integerOfBytes_bigEndianBytes s.mem x len

/-- What the host read of one buffer fits any other of that length, and is its value once written there. -/
theorem fromBigInteger_toBigInteger {s : State} {len a b : Nat} (hm : s.mem.wf) (hb : Fits s b len) :
    ∃ m, fromBigInteger len (toBigInteger len a s) b s = .ok { s with mem := m } ∧ m.wf ∧ SameOutside b len s.mem m ∧
      m.val b len = s.mem.val a len := by
  obtain ⟨hnonneg, hlt⟩ := val_bounds s.mem a len
  rw [toBigInteger_eq_val]
  obtain ⟨m, hfrom, hwf, hsame, hval⟩ := fromBigInteger_writes_value hm hb hnonneg hlt
  exact ⟨m, hfrom, hwf, hsame, by exact_mod_cast hval⟩

/-- A buffer converted and written back over itself: canonical memory is what its words make it, so the state is the same. -/
theorem fromBigInteger_toBigInteger_self {s : State} {len a : Nat} (hm : s.mem.wf) (ha : Fits s a len) :
    fromBigInteger len (toBigInteger len a s) a s = .ok s := by
  obtain ⟨m, hfrom, hwf, hsame, hval⟩ := fromBigInteger_toBigInteger (a := a) hm ha
  rw [hfrom, memory_eq_of_val_eq hwf hm hsame (SameOutside.refl a len s.mem) hval]

/-- Settles O60: equal values of equal length are equal words, so a buffer's value, written anywhere, reproduces the buffer. -/
theorem conversionsRoundTrip : Obligations.ConversionsRoundTrip := by
  intro s len a hm ha
  refine ⟨toBigInteger_eq_val len a s, fun b hb => ?_, fromBigInteger_toBigInteger_self hm ha, fun value hnonneg hlt => ?_,
    fun _ => fromBigInteger_of_invalidArgument⟩
  · obtain ⟨m, hfrom, -, hsame, hval⟩ := fromBigInteger_toBigInteger (a := a) hm hb
    exact ⟨_, hfrom, ⟨rfl, rfl, rfl, rfl, hsame⟩, rfl, read_eq_of_val_eq hval⟩
  · obtain ⟨m, hfrom, -, -, hval⟩ := fromBigInteger_writes_value hm ha hnonneg hlt
    exact ⟨_, hfrom, by rw [toBigInteger_eq_val, hval]⟩

end Sys2Proof.Machine
end

