-- ==== Sys2Proof/Proofs/Exceptions.lean ====
section
/-! SUPPORT. The order of checks of a step, fault entry and the halted unit (rule R171 to rule R178, rule R200). -/

namespace Sys2Proof.Machine

/-! ### A command by the first check it does not pass -/

theorem exec_of_halted (i : Instr) {s : State} (h : s.fault ≠ 0#4) : exec i s = .next s := by
  rw [exec_eq_issue, issue_halted h]

/-- A violated precondition is answered before the bounds are looked at, and by `CHECKED` alone (rule R173, rule R174). -/
theorem exec_of_not_legal {i : Instr} {s : State} (h : s.fault = 0#4) (hl : ¬ Legal s.cfg i) :
    exec i s =
      if s.cfg.checked then .next (raiseFault preconditionViolated s) else .refused .trustedPreconditionViolated := by
  have hp : preconditionHolds s.cfg i = false := by simpa [← preconditionHolds_iff] using hl
  rw [exec_eq_issue, issue_violated h hp]

theorem exec_of_not_allInside {i : Instr} {s : State} (h : s.fault = 0#4) (hl : Legal s.cfg i)
    (hin : ¬ AllInside s.cfg i) : exec i s = .next (raiseFault outOfBounds s) := by
  have hb : regionsInside s.cfg i = false := by simpa [← regionsInside_iff s.cfg i hl] using hin
  rw [exec_eq_issue, issue_outside h ((preconditionHolds_iff s.cfg i).2 hl) hb]

/-- Settles O8, one lemma for each check that can fail. -/
theorem commandsAreCheckedBeforeTheyRun : Obligations.CommandsAreCheckedBeforeTheyRun := by
  intro i s hf
  refine ⟨fun hl hc => ?_, fun hl hc => ?_, exec_of_not_allInside hf⟩
  · rw [exec_of_not_legal hf hl, if_pos hc]; rfl
  · rw [exec_of_not_legal hf hl, hc]; rfl

/-! ### The halted unit -/

theorem illegalPacket_of_halted {s : State} (h : s.fault ≠ 0#4) : illegalPacket s = .next s := by
  simp [illegalPacket, (halted_eq_true_iff s).2 h]

/-- A halted unit drops the packet it is presented, whether or not that is a command: only the index moves (rule R177). -/
theorem step_of_halted {s : State} {p : Packet} (h : s.fault ≠ 0#4) (hp : presented s = some p) :
    step s = .next { s with k := s.k + 1 } := by
  cases hd : decode p with
  | ok i => rw [step_of_decode_ok hp hd, exec_of_halted i h, advance_next]
  | error e => rw [step_of_decode_error hp hd, illegalPacket_of_halted h, advance_next]

theorem step_of_halted_or_idle {s : State} (h : s.fault ≠ 0#4) :
    step s = .next { s with k := s.k + 1 } ∨ presented s = none ∧ step s = .next s := by
  cases hp : presented s with
  | none => exact .inr ⟨rfl, step_of_presented_none hp⟩
  | some p => exact .inl (step_of_halted h hp)

/-- A halted unit always has a next state, with the same `M`, `RET` and `FAULT`. -/
theorem halted_step_keeps {s : State} (h : s.fault ≠ 0#4) :
    ∃ t, step s = .next t ∧ t.mem = s.mem ∧ t.ret = s.ret ∧ t.fault = s.fault := by
  rcases step_of_halted_or_idle h with he | ⟨-, he⟩
  · exact ⟨_, he, rfl, rfl, rfl⟩
  · exact ⟨_, he, rfl, rfl, rfl⟩

/-- The host's moves write `M` or the list of packets, and a halted unit's step neither response register (rule R28). -/
theorem halted_move_keeps_response {s t : State} (h : s.fault ≠ 0#4) (hmove : Move s t) :
    t.fault = s.fault ∧ t.ret = s.ret := by
  cases hmove with
  | step _ stepped =>
    obtain ⟨u, he, -, hret, hfault⟩ := halted_step_keeps h
    cases he.symm.trans stepped
    exact ⟨hfault, hret⟩
  | hostWrite _ a v wrote =>
    obtain ⟨-, rfl⟩ := hostWrite_eq_ok_iff.1 wrote
    exact ⟨rfl, rfl⟩
  | hostSend p => exact ⟨hostSend_fault p s, hostSend_ret p s⟩
  | fromBigInteger _ len value a converted =>
    obtain ⟨-, -, -, rfl⟩ := fromBigInteger_eq_ok_iff.1 converted
    exact ⟨rfl, rfl⟩

theorem halted_untilReset_keeps_response {s t : State} (h : s.fault ≠ 0#4) (hreach : UntilReset s t) :
    t.fault = s.fault ∧ t.ret = s.ret := by
  induction hreach with
  | refl => exact ⟨rfl, rfl⟩
  | move t u _ moved ih =>
    obtain ⟨hfault, hret⟩ := ih
    obtain ⟨hfault', hret'⟩ := halted_move_keeps_response (hfault ▸ h) moved
    exact ⟨hfault'.trans hfault, hret'.trans hret⟩

/-- A run goes on from the next state of its first step. -/
theorem run_succ_of_step {s t : State} (n : Nat) (h : step s = .next t) :
    Sys2Proof.core.run (n + 1) s = Sys2Proof.core.run n t := by
  simp only [Host.Core.run, Sys2Proof.core, h]

theorem halted_run_keeps (n : Nat) {s : State} (h : s.fault ≠ 0#4) :
    ∃ t : State, Sys2Proof.core.run n s = .next t ∧ t.mem = s.mem ∧ t.ret = s.ret ∧ t.fault = s.fault := by
  induction n generalizing s with
  | zero => exact ⟨s, rfl, rfl, rfl, rfl⟩
  | succ n ih =>
    obtain ⟨u, hstep, hmem, hret, hfault⟩ := halted_step_keeps h
    obtain ⟨t, hrun, hmem', hret', hfault'⟩ := ih (s := u) (hfault ▸ h)
    exact ⟨t, (run_succ_of_step n hstep).trans hrun, hmem'.trans hmem, hret'.trans hret, hfault'.trans hfault⟩

/-- Settles O9: the moves by induction over `UntilReset`, the steps alone by induction over their number. -/
theorem haltedUnitStaysHaltedUntilReset : Obligations.HaltedUnitStaysHaltedUntilReset := by
  intro s h
  refine ⟨fun t ht => ?_, fun n => halted_run_keeps n h, fun m => hostReset_fault m s⟩
  obtain ⟨hfault, hret⟩ := halted_untilReset_keeps_response h ht
  exact ⟨hfault, hret, step_of_halted_or_idle (hfault ▸ h)⟩

/-! ### The order of checks -/

/-- Settles O7: a packet presented to a halted unit is dropped; otherwise the step is the index moving on after the illegal packet or
after the command, by the first check that fails. -/
theorem stepFollowsTheCheckOrder : Obligations.StepFollowsTheCheckOrder := by
  intro s p hp
  refine ⟨fun h => step_of_halted h hp, fun hf => ⟨fun e hd => ?illegal, fun i hd => ?_⟩⟩
  case illegal => rw [step_of_decode_error hp hd, illegalPacket_of_running hf, advance_next]; rfl
  obtain ⟨hchecked, htrusting, houtside⟩ := commandsAreCheckedBeforeTheyRun i s hf
  rw [step_of_decode_ok hp hd]
  refine ⟨fun hl hc => ?_, fun hl hc => ?_, fun hl hin => ?_, fun hl hin => ?_⟩
  · rw [hchecked hl hc, advance_next]
  · rw [htrusting hl hc, advance_refused]
  · rw [houtside hl hin, advance_next]
  · have he := exec_completes hf hl ((regionsInside_iff s.cfg i hl).2 hin)
    exact ⟨_, he, by rw [he, advance_next, complete_k], hf⟩

/-! ### Fault entry -/

/-- The three codes ever written to `FAULT` (rule R172, rule R173, rule R176). -/
def IsFaultCode (code : BitVec 4) : Prop :=
  code = illegalOperation ∨ code = preconditionViolated ∨ code = outOfBounds

/-- A command that changes `FAULT` has raised one of the faults in a unit that had none (rule R175). -/
theorem exec_fault_entry {i : Instr} {s t : State} (h : exec i s = .next t) (hne : t.fault ≠ s.fault) :
    s.fault = 0#4 ∧ ∃ code, IsFaultCode code ∧ t = raiseFault code s := by
  rcases exec_next_cases h with ⟨-, rfl⟩ | ⟨hf, -, -, ht⟩ | ⟨hf, -, -, ht⟩ | ⟨-, -, -, rfl⟩
  · exact absurd rfl hne
  · exact ⟨hf, preconditionViolated, .inr (.inl rfl), ht⟩
  · exact ⟨hf, outOfBounds, .inr (.inr rfl), ht⟩
  · exact absurd (complete_fault _ s) hne

theorem illegalPacket_fault_entry {s t : State} (h : illegalPacket s = .next t) (hne : t.fault ≠ s.fault) :
    s.fault = 0#4 ∧ ∃ code, IsFaultCode code ∧ t = raiseFault code s := by
  rcases illegalPacket_next_cases h with ⟨-, rfl⟩ | ⟨hf, ht⟩
  · exact absurd rfl hne
  · exact ⟨hf, illegalOperation, .inl rfl, ht⟩

/-- A step that changes `FAULT` is fault entry and the index moving on (rule R26, rule R175). -/
theorem step_fault_entry {s t : State} (h : step s = .next t) (hne : t.fault ≠ s.fault) :
    s.fault = 0#4 ∧ ∃ code, IsFaultCode code ∧ t = { raiseFault code s with k := s.k + 1 } := by
  rcases step_next_cases h with ⟨-, rfl⟩ | ⟨p, u, -, rfl, hu⟩
  · exact absurd rfl hne
  · have hentry : s.fault = 0#4 ∧ ∃ code, IsFaultCode code ∧ u = raiseFault code s := by
      rcases hu with ⟨i, -, he⟩ | ⟨e, -, he⟩
      · exact exec_fault_entry he hne
      · exact illegalPacket_fault_entry he hne
    obtain ⟨hf, code, hcode, rfl⟩ := hentry
    exact ⟨hf, code, hcode, rfl⟩

/-- Settles O11: the fields of a state that differs from the old one by fault entry and the index. -/
theorem faultEntryChangesOnlyFault : Obligations.FaultEntryChangesOnlyFault := by
  intro s t h hne
  obtain ⟨hf, code, hcode, rfl⟩ := step_fault_entry h hne
  exact ⟨hf, hcode, rfl, rfl, rfl, rfl, rfl⟩

/-! ### Every step ends -/

/-- Settles O12: a step has a next state or is the refusal of `step_next_or_refused`, which a checking unit never gives and which is
the only one. -/
theorem everyStepEnds : Obligations.EveryStepEnds := by
  intro s
  rcases step_next_or_refused s with ⟨t, ht⟩ | ⟨hc, hf, he, hviolated⟩
  · exact ⟨fun _ => ⟨t, ht⟩, fun r hr => nomatch ht.symm.trans hr⟩
  · refine ⟨fun hchecked => absurd (hc.symm.trans hchecked) Bool.false_ne_true, fun r hr => ?_⟩
    cases he.symm.trans hr
    exact ⟨hf, hc, rfl, hviolated⟩

end Sys2Proof.Machine
end

namespace Sys2Proof.Machine

/-! ### The destination both sources (rule R193, U13) -/

/-- What a command is shown to leave may be weakened under its frame. -/
theorem CompletesOver.imp {i : Instr} {s : State} {d n : Nat} {post post' : State → Prop} (h : CompletesOver i s d n post)
    (hpost : ∀ t, post t → post' t) : CompletesOver i s d n post' := by
  obtain ⟨t, ht, hkeep, hp⟩ := h
  exact ⟨t, ht, hkeep, hpost t hp⟩

section
variable {s : State} {len x : Nat} (hacc : Accepts s len) (hx : Fits s x len)
include hacc hx

theorem add_in_place : CompletesOver (.add len x x x) s x len (fun t =>
    t.mem.val x len + t.ret.toNat * 2 ^ (32 * len) = 2 * s.mem.val x len) :=
  (addIsExact s len x x x hacc hx hx hx (.inr rfl) (.inr rfl)).imp fun _ ⟨_, hsum⟩ => by
    rw [hsum, two_mul]

/-- No value is less than itself, so there is no borrow, and without one the exact difference is what is left. -/
theorem sub_in_place : CompletesOver (.sub len x x x) s x len (fun t => t.mem.val x len = 0 ∧ t.ret = 0#32) :=
  (subIsExact s len x x x hacc hx hx hx (.inr rfl) (.inr rfl)).imp fun t ⟨hret, hdiff, hborrow⟩ => by
    have hzero : t.ret = 0#32 := hret.resolve_right fun h => lt_irrefl _ (hborrow.1 h)
    have hs : s32 0#32 = 0 := by decide
    rw [hzero, hs, zero_mul, add_zero, sub_self] at hdiff
    exact ⟨by exact_mod_cast hdiff, hzero⟩

theorem addBothTo_in_place : CompletesOver (.addBothTo len x x x) s x len (fun t =>
    t.mem.val x len + t.ret.toNat * 2 ^ (32 * len) = 3 * s.mem.val x len) :=
  (addBothToIsExact s len x x x hacc hx hx hx (.inr rfl) (.inr rfl)).imp fun _ ⟨_, hsum⟩ => by
    rw [hsum]
    ring

end

/-- Settles O53: a buffer is an exact alias of itself, so each result is the command's identity (O25, O26, O30) with `x` for all
three operands. -/
theorem inPlaceForms : Obligations.InPlaceForms :=
  fun _ _ _ hacc hx => ⟨add_in_place hacc hx, sub_in_place hacc hx, addBothTo_in_place hacc hx⟩

end Sys2Proof.Machine
